-- ==== Sys2Proof/Word.lean ====
section
/-! DEFINITION. The words of the core: bytes, schedule words, blocks, and groups of eight. -/

namespace Sys2Proof

/-- A byte, bit 0 the least significant (00_scope.md R10). -/
abbrev Byte := BitVec 8

/-- A schedule word: four bytes, byte `i` in bits `8i+7 .. 8i` (00_scope.md R13, packed as R14). -/
abbrev Word := BitVec 32

/-- A block, a round key or a plane: sixteen bytes, byte `p` in bits `8p+7 .. 8p` (00_scope.md R11, R14). -/
abbrev Block := BitVec 128

/-- Eight like things: the eight lanes of a batch, the eight planes of the bit-sliced form
(43_portable_engine.md R171), the eight inputs of the S-box circuit (41_sbox.md R126). -/
structure Oct (α : Type) where
  c0 : α
  c1 : α
  c2 : α
  c3 : α
  c4 : α
  c5 : α
  c6 : α
  c7 : α
deriving DecidableEq, Repr

end Sys2Proof
end

