-- ==== Sys2Proof/Config.lean ====
section
/-! DEFINITION. What one instance of the core fixes before reset (00_scope.md R7), and the free values. -/

namespace Sys2Proof

/-- The two block engines (00_scope.md R2, R8). -/
inductive Engine where
  | portable
  | accel
deriving DecidableEq, Repr

/-- The direction of a memory access (00_scope.md R7, `mem_admit`). -/
inductive AccessKind where
  | read
  | write
deriving DecidableEq, Repr

/-- One rule by which the platform refuses a buffer (93_implementation_defined.md U3). -/
inductive AdmitRule where
  /-- refuse a buffer of this kind that touches a byte of `base .. base + size - 1` (20_memory.md R51) -/
  | touching (kind : AccessKind) (base size : Nat)
  /-- refuse a buffer of this kind by its start address and its byte count, both in closed ranges -/
  | shaped (kind : AccessKind) (addrLow addrHigh countLow countHigh : Nat)
deriving DecidableEq, Repr

/-- The parameters of an instance that the spec leaves open (00_scope.md R7). `PIPE` is `pipeExtra + 1`,
so that it is at least 1. `mem_admit` is held as the list of the rules that refuse: every predicate on the
finite set of buffers is such a list, and the empty list is the default "always true" (log 3). -/
structure Config where
  targetHasRoundUnit : Bool
  forcePortable : Bool
  pipeExtra : Nat
  filler : Block
  refusedBuffers : List AdmitRule
deriving DecidableEq, Repr

/-- `AW` (00_scope.md R7). -/
def Config.addressBits : Nat := 64

/-- `LENW` (00_scope.md R7). -/
def Config.lengthBits : Nat := 32

/-- `BATCH` (00_scope.md R7). -/
def Config.batch : Nat := 8

/-- `BLOCK_BYTES` (00_scope.md R7). -/
def Config.blockBytes : Nat := 16

/-- The instance that State.reset stands for: the spec's defaults for `PIPE`, `FILLER` and `mem_admit`
(00_scope.md R7; 93_implementation_defined.md U3, U8, U9). DESIGN CHOICE (log 2): it has the round unit and
does not force the Portable engine, so its engine is the Accelerated one. -/
def Config.initial : Config where
  targetHasRoundUnit := true
  forcePortable := false
  pipeExtra := 0
  filler := 0
  refusedBuffers := []

/-- Free values: what a 128-bit working register holds once a command has responded is unspecified
(10_state.md R30; 93_implementation_defined.md U6). First argument: the how-manieth free value; second:
which register (log 17). -/
opaque Config.freeBlock : Nat → Nat → Block

/-- The same for the list of blocks at the engine's port (log 17). -/
opaque Config.freeBlocks : Nat → List Block

/-- The same for the data output of the S-box ROM (log 17). -/
opaque Config.freeByte : Nat → Byte

end Sys2Proof
end

