-- ==== Sys2Proof/Syntax.lean ====
section
/-! DEFINITION. The 22 rows of spec/opcode_table.json as one type, and the ports their words arrive at. -/

namespace Sys2Proof

/-- The key-size variants (00_scope.md R3; codes 0, 1, 2 of 30_encoding.md R64). -/
inductive Variant where
  | aes128
  | aes192
  | aes256
deriving DecidableEq, Repr

/-- The operations of the round unit (30_encoding.md R69). -/
inductive RndSel where
  | ark
  | enc
  | encLast
  | dec
  | decLast
deriving DecidableEq, Repr

/-- An instruction: a host command with its operands as numbers (30_encoding.md R75), an engine request
(R68), a round-unit operation (R69), or a read of the S-box ROM (R70). -/
inductive Instr where
  /-- KEYSETUP.128 addr, len (45_facade.md R244) -/
  | keysetup128 (addr len : Nat)
  /-- KEYSETUP.192 addr, len (45_facade.md R245) -/
  | keysetup192 (addr len : Nat)
  /-- KEYSETUP.256 addr, len (45_facade.md R246) -/
  | keysetup256 (addr len : Nat)
  /-- ENCB addr (45_facade.md R248) -/
  | encb (addr : Nat)
  /-- DECB addr (45_facade.md R249) -/
  | decb (addr : Nat)
  /-- ENCBS addr, n (45_facade.md R250) -/
  | encbs (addr n : Nat)
  /-- DECBS addr, n (45_facade.md R251) -/
  | decbs (addr n : Nat)
  /-- P.ENC1 (43_portable_engine.md R196) -/
  | pEnc1
  /-- P.DEC1 (43_portable_engine.md R197) -/
  | pDec1
  /-- P.ENC8 (43_portable_engine.md R194) -/
  | pEnc8
  /-- P.DEC8 (43_portable_engine.md R195) -/
  | pDec8
  /-- A.ENC1 (44_accelerated_engine.md R218) -/
  | aEnc1
  /-- A.DEC1 (44_accelerated_engine.md R219) -/
  | aDec1
  /-- A.ENCN (44_accelerated_engine.md R220) -/
  | aEncN
  /-- A.DECN (44_accelerated_engine.md R221) -/
  | aDecN
  /-- RND.ARK (44_accelerated_engine.md R212) -/
  | rndArk
  /-- RND.ENC (44_accelerated_engine.md R213) -/
  | rndEnc
  /-- RND.ENCLAST (44_accelerated_engine.md R214) -/
  | rndEncLast
  /-- RND.DEC (44_accelerated_engine.md R215) -/
  | rndDec
  /-- RND.DECLAST (44_accelerated_engine.md R216) -/
  | rndDecLast
  /-- SBOX.FWD x (41_sbox.md R124) -/
  | sboxFwd (x : Byte)
  /-- SBOX.INV y (41_sbox.md R124) -/
  | sboxInv (y : Byte)
deriving DecidableEq, Repr

/-- A word offered to the core, with the port it arrives at: the command port (30_encoding.md R60), or one
of the internal ports of R68, R69 and R70. -/
inductive Request where
  /-- a 128-bit descriptor on the command port -/
  | cmd (descriptor : BitVec 128)
  /-- a 5-bit request to a block engine -/
  | ereq (word : BitVec 5)
  /-- a 3-bit operation select of the round unit -/
  | rsel (word : BitVec 3)
  /-- a 9-bit address of the S-box ROM -/
  | srom (address : BitVec 9)
deriving DecidableEq, Repr

end Sys2Proof
end

