-- ==== Sys2Proof/Machine/State.lean ====
section
/-! DEFINITION. The state of one core with its memory and ports, its value after reset, and the reasons a step stops. -/

namespace Sys2Proof.Machine

/-- Reasons for which the machine would stop with a fault. There is none: the core always answers
(60_exceptions.md R289, R290; 70_reset_and_hazards.md R314), and what the spec calls a fault is a response,
after which the core goes on (60_exceptions.md R280). Safe: a claim cannot rest on a stop (log 12). -/
inductive Fault where
deriving DecidableEq, Repr

/-- Reasons for which the model gives an offered word no meaning. -/
inductive Refusal where
  /-- Raised by exec for an instruction that has no meaning yet; no arm raises it. Safe. -/
  | notModelled (mnemonic : String)
  /-- Raised by step for an `EREQ` word that is none of the eight (93_implementation_defined.md U5). Safe. -/
  | reservedEngineRequest
  /-- Raised by step for an `RSEL` word 5 to 7 (93_implementation_defined.md U5). Safe. -/
  | reservedRoundSelect
  /-- Raised by an engine request whose `ESEL` names the engine that `ENGINE` does not
  (93_implementation_defined.md U5). Safe. -/
  | engineNotSelected
  /-- Raised by a round-unit operation in an instance without the round unit
  (44_accelerated_engine.md, introduction; 00_scope.md R7). Safe. -/
  | roundUnitAbsent
  /-- Raised by the host's actions `issue` and `resetEvent` while a word waits at the port
  (30_encoding.md R60; 70_reset_and_hazards.md R310; log 22). Safe. -/
  | portOccupied
  /-- Raised by the host's accesses to a byte of the buffer that a waiting command names (20_memory.md R54;
  93_implementation_defined.md U1). Safe. -/
  | bufferOwned
  /-- Raised by the host's accesses to an address past `2^64 - 1`, which does not exist (20_memory.md R40). Safe. -/
  | noSuchAddress
deriving DecidableEq, Repr

/-- The round-key register file `RK[0..14]` (10_state.md R21). -/
abbrev RoundKeys := Vector Block 15

/-- Host memory: the bytes that differ from what an unlisted address reads as, by rising address
(20_memory.md R40). -/
abbrev Memory := List Host.Cell

/-- One access of the core to memory: the bytes `addr .. addr + count - 1`, each once (20_memory.md R48). -/
structure BusAccess where
  kind : AccessKind
  addr : Nat
  count : Nat
deriving DecidableEq, Repr

/-- One internal step of a command (70_reset_and_hazards.md R320, point 3). -/
inductive UnitOp where
  /-- a run of the Key Schedule Expander (40_key_schedule.md R90) -/
  | expand (variant : Variant)
  /-- an engine request, by its `EREQ` word (30_encoding.md R68) -/
  | request (word : BitVec 5)
  /-- a round-unit operation, by its select (30_encoding.md R69) -/
  | round (sel : RndSel)
  /-- so many reads of the S-box ROM (41_sbox.md R124) -/
  | romReads (inverse : Bool) (count : Nat)
  /-- one evaluation of the S-box circuit on eight planes (41_sbox.md R127, R129) -/
  | circuit (inverse : Bool)
deriving DecidableEq, Repr

/-- The state. The context is `keyValid`, `variant`, `rk` (10_state.md R20); `mem`, `port` and `response` are
the memory and the command port; `unitS` to `romOut` are the working registers that a row of the opcode table
reads or writes (10_state.md R29); `cfg` is the instance's configuration; `bus`, `unitOps` and `freeCount` are
the model's own. -/
structure State where
  /-- the configuration; no step changes it (10_state.md R26) -/
  cfg : Config
  /-- `KEY_VALID` (10_state.md R24) -/
  keyValid : Bool
  /-- `VARIANT` (10_state.md R24) -/
  variant : Variant
  /-- `RK[0..14]` (10_state.md R21) -/
  rk : RoundKeys
  /-- host memory (20_memory.md R40) -/
  mem : Memory
  /-- the word that waits at a port (30_encoding.md R60; 70_reset_and_hazards.md R311) -/
  port : Option Request
  /-- the response on the command port (30_encoding.md R60, R65; 70_reset_and_hazards.md R311) -/
  response : Option (BitVec 32)
  /-- the round unit's working register `S` (44_accelerated_engine.md R211) -/
  unitS : Block
  /-- the round unit's key input `K` (44_accelerated_engine.md R211) -/
  unitK : Block
  /-- operand, then result, of a one-block engine request (30_encoding.md R68) -/
  reqBlock : Block
  /-- operand, then result, of an eight-block engine request (43_portable_engine.md R170) -/
  reqBatch : Oct Block
  /-- operand, then result, of an n-block engine request (44_accelerated_engine.md R210) -/
  reqBlocks : List Block
  /-- data output of the S-box ROM (41_sbox.md R124) -/
  romOut : Byte
  /-- the memory accesses of the current command, in order (log 13) -/
  bus : List BusAccess
  /-- the internal steps of the current command, in order (log 13) -/
  unitOps : List UnitOp
  /-- how many free values have been used up (log 17) -/
  freeCount : Nat
deriving DecidableEq, Repr

/-- The machine right after reset (10_state.md R33; 70_reset_and_hazards.md R311), in the instance
`Config.initial`, with no byte of memory listed. The working registers hold no value after reset; DESIGN
CHOICE (log 8): zero. -/
def State.reset : State where
  cfg := Config.initial
  keyValid := false
  variant := .aes128
  rk := Vector.replicate 15 0
  mem := []
  port := none
  response := none
  unitS := 0
  unitK := 0
  reqBlock := 0
  reqBatch := ⟨0, 0, 0, 0, 0, 0, 0, 0⟩
  reqBlocks := []
  romOut := 0
  bus := []
  unitOps := []
  freeCount := 0

end Sys2Proof.Machine
end

