-- ==== Sys2Proof/Machine/Bytes.lean ====
section
/-! DEFINITION. Bytes of wide values, values from bytes, and groups of eight (00_scope.md R10 to R14). -/

namespace Sys2Proof.Machine

/-- Byte `p` of a wide value: bits `8p+7 .. 8p` (00_scope.md R14). -/
def byteAt {w : Nat} (v : BitVec w) (p : Nat) : Byte := v.extractLsb' (8 * p) 8

/-- The byte whose bit `i` is `g i` (00_scope.md R10). -/
def byteOfBits (g : Nat → Bool) : Byte :=
  BitVec.ofBool (g 7) ++ BitVec.ofBool (g 6) ++ BitVec.ofBool (g 5) ++ BitVec.ofBool (g 4) ++
    BitVec.ofBool (g 3) ++ BitVec.ofBool (g 2) ++ BitVec.ofBool (g 1) ++ BitVec.ofBool (g 0)

/-- The word `[a0, a1, a2, a3]` (00_scope.md R13). -/
def wordOf (a0 a1 a2 a3 : Byte) : Word := a3 ++ a2 ++ a1 ++ a0

/-- The block whose byte `p` is `f p` (00_scope.md R11, R14). -/
def blockOf (f : Nat → Byte) : Block :=
  f 15 ++ f 14 ++ f 13 ++ f 12 ++ f 11 ++ f 10 ++ f 9 ++ f 8 ++
    f 7 ++ f 6 ++ f 5 ++ f 4 ++ f 3 ++ f 2 ++ f 1 ++ f 0

/-- The block `w0 ‖ w1 ‖ w2 ‖ w3` of four words (00_scope.md R13). -/
def blockOfWords (w0 w1 w2 w3 : Word) : Block := w3 ++ w2 ++ w1 ++ w0

/-- The block that a sequence of 16 bytes is (00_scope.md R11). -/
def blockOfBytes (bytes : List Byte) : Block := blockOf fun p => bytes.getD p 0

/-- The 16 bytes of a block, byte 0 first (00_scope.md R11). -/
def bytesOfBlock (b : Block) : List Byte := (List.range 16).map (byteAt b)

end Sys2Proof.Machine

namespace Sys2Proof

/-- Element `i` of eight. -/
def Oct.get {α : Type} (o : Oct α) : Nat → α
  | 0 => o.c0
  | 1 => o.c1
  | 2 => o.c2
  | 3 => o.c3
  | 4 => o.c4
  | 5 => o.c5
  | 6 => o.c6
  | _ => o.c7

/-- The eight values `f 0` to `f 7`. -/
def Oct.ofFn {α : Type} (f : Nat → α) : Oct α := ⟨f 0, f 1, f 2, f 3, f 4, f 5, f 6, f 7⟩

/-- `f` of each of eight. -/
def Oct.map {α β : Type} (f : α → β) (o : Oct α) : Oct β := Oct.ofFn fun i => f (o.get i)

/-- The eight in order. -/
def Oct.toList {α : Type} (o : Oct α) : List α := [o.c0, o.c1, o.c2, o.c3, o.c4, o.c5, o.c6, o.c7]

/-- Eight from a list, filled up at the end (45_facade.md R253). -/
def Oct.padded {α : Type} (filler : α) (xs : List α) : Oct α := Oct.ofFn fun i => xs.getD i filler

end Sys2Proof
end

