-- ==== Sys2Proof/Machine/Operands.lean ====
section
/-! DEFINITION. What the operands of a command stand for: sizes of a variant, the selected engine, the
admission of a buffer, block addresses, and the groups a multi-block command is cut into. -/

namespace Sys2Proof

/-- `Nk` (00_scope.md R3). -/
def Variant.keyWords : Variant → Nat
  | .aes128 => 4
  | .aes192 => 6
  | .aes256 => 8

/-- `KB` (00_scope.md R3; 30_encoding.md R64). -/
def Variant.keyBytes : Variant → Nat
  | .aes128 => 16
  | .aes192 => 24
  | .aes256 => 32

/-- `Nr` (00_scope.md R3; 10_state.md R24). -/
def Variant.rounds : Variant → Nat
  | .aes128 => 10
  | .aes192 => 12
  | .aes256 => 14

/-- `ENGINE` (00_scope.md R8). -/
def Config.engine (c : Config) : Engine :=
  if c.targetHasRoundUnit && !c.forcePortable then .accel else .portable

/-- `PIPE`, at least 1 (00_scope.md R7). -/
def Config.pipe (c : Config) : Nat := c.pipeExtra + 1

/-- Whether a rule refuses a buffer of `n` bytes at `addr` for accesses of a kind. -/
def AdmitRule.refuses (rule : AdmitRule) (addr n : Nat) (kind : AccessKind) : Bool :=
  match rule with
  | .touching k base size => k = kind && addr < base + size && base < addr + n
  | .shaped k addrLow addrHigh countLow countHigh =>
    k = kind && addrLow ≤ addr && addr ≤ addrHigh && countLow ≤ n && n ≤ countHigh

/-- `mem_admit(addr, n, kind)` (00_scope.md R7; 20_memory.md R46). -/
def Config.memAdmit (c : Config) (addr n : Nat) (kind : AccessKind) : Bool :=
  !c.refusedBuffers.any fun rule => rule.refuses addr n kind

/-- A key buffer is admitted: empty, or in the address space and readable (20_memory.md R46). -/
def Config.admitsKey (c : Config) (addr n : Nat) : Bool :=
  n = 0 || (addr + n ≤ 2 ^ Config.addressBits && c.memAdmit addr n .read)

/-- A block buffer is admitted: empty, or in the address space, readable and writable (20_memory.md R46). -/
def Config.admitsBlocks (c : Config) (addr n : Nat) : Bool :=
  n = 0 || (addr + n ≤ 2 ^ Config.addressBits && c.memAdmit addr n .read && c.memAdmit addr n .write)

end Sys2Proof

namespace Sys2Proof.Machine

/-- Round-key register `RK[j]`; no rule reads past `RK[14]` (10_state.md R21, R22). -/
def roundKey (rk : RoundKeys) (j : Nat) : Block := if h : j < 15 then rk[j] else 0

/-- `EA(m)`, the address of block `m` of a buffer (20_memory.md R59). -/
def blockAddr (addr m : Nat) : Nat := addr + Config.blockBytes * m

/-- The number of bytes of `n` blocks, exact (30_encoding.md R62). -/
def blocksBytes (n : Nat) : Nat := Config.blockBytes * n

/-- The groups of at most `size` of `n` blocks, in increasing order, each as its first block and its count:
the chunks of 45_facade.md R253 for `size = 8`, the groups of R254 for `size = PIPE`. -/
def groups (size n : Nat) : List (Nat × Nat) :=
  (List.range ((n + size - 1) / size)).map fun g => (size * g, min size (n - size * g))

end Sys2Proof.Machine
end

