-- ==== Sys2Proof/Machine/Field.lean ====
section
/-! DEFINITION. Arithmetic in GF(2^8) and the affine maps of the S-box (41_sbox.md R111 to R119). -/

namespace Sys2Proof.Machine

/-- Multiplication by `x` (41_sbox.md R112). -/
def xtime (a : Byte) : Byte := (a <<< 1) ^^^ (if a.getLsbD 7 then 0x1b else 0x00)

/-- Multiplication in GF(2^8), one bit of `b` after the other (41_sbox.md R113). -/
def gmul (a b : Byte) : Byte :=
  ((List.range 8).foldl
    (fun (acc : Byte × Byte) i => (if b.getLsbD i then acc.1 ^^^ acc.2 else acc.1, xtime acc.2)) (0, a)).1

/-- The inverse as `a^254`, 0 for 0, by the chain of 41_sbox.md R115. -/
def ginv (a : Byte) : Byte :=
  let x2 := gmul a a
  let x3 := gmul x2 a
  let x6 := gmul x3 x3
  let x12 := gmul x6 x6
  let x15 := gmul x12 x3
  let x30 := gmul x15 x15
  let x60 := gmul x30 x30
  let x120 := gmul x60 x60
  let x240 := gmul x120 x120
  let x252 := gmul x240 x12
  gmul x252 x2

/-- The constant of the affine transform (41_sbox.md R117). -/
def affConstant : Byte := 0x63

/-- The affine transform (41_sbox.md R117). -/
def aff (v : Byte) : Byte :=
  byteOfBits fun i =>
    v.getLsbD i ^^ v.getLsbD ((i + 4) % 8) ^^ v.getLsbD ((i + 5) % 8) ^^ v.getLsbD ((i + 6) % 8) ^^
      v.getLsbD ((i + 7) % 8) ^^ affConstant.getLsbD i

/-- The constant of the inverse affine transform (41_sbox.md R119). -/
def invAffConstant : Byte := 0x05

/-- The inverse affine transform (41_sbox.md R119). -/
def invAff (y : Byte) : Byte :=
  byteOfBits fun i =>
    y.getLsbD ((i + 2) % 8) ^^ y.getLsbD ((i + 5) % 8) ^^ y.getLsbD ((i + 7) % 8) ^^
      invAffConstant.getLsbD i

end Sys2Proof.Machine
end

