-- ==== Sys2Proof/Machine/Cipher.lean ====
section
/-! DEFINITION. The round transformations and the reference cipher (42_reference_cipher.md). -/

namespace Sys2Proof.Machine

/-- The two directions of a block operation (42_reference_cipher.md R140). -/
inductive Direction where
  | enc
  | dec
deriving DecidableEq, Repr

/-- `SubBytes` (42_reference_cipher.md R141). -/
def subBytes (b : Block) : Block := blockOf fun i => sbox (byteAt b i)

/-- `InvSubBytes` (42_reference_cipher.md R142). -/
def invSubBytes (b : Block) : Block := blockOf fun i => invSbox (byteAt b i)

/-- The table `SR`: `SR[r + 4c] = r + 4((c + r) mod 4)` (42_reference_cipher.md R143). -/
def srIndex (i : Nat) : Nat := i % 4 + 4 * ((i / 4 + i % 4) % 4)

/-- The table `ISR`: `ISR[r + 4c] = r + 4((c - r) mod 4)` (42_reference_cipher.md R144). -/
def isrIndex (i : Nat) : Nat := i % 4 + 4 * ((i / 4 + 4 - i % 4) % 4)

/-- `PermBytes(P, T)`: byte `p` of the result is byte `T[p]` of `P` (43_portable_engine.md R178). -/
def permBytes (b : Block) (table : Nat → Nat) : Block := blockOf fun p => byteAt b (table p)

/-- `ShiftRows` (42_reference_cipher.md R143). -/
def shiftRows (b : Block) : Block := permBytes b srIndex

/-- `InvShiftRows` (42_reference_cipher.md R144). -/
def invShiftRows (b : Block) : Block := permBytes b isrIndex

/-- Byte `a[r]` of the column that byte `i` stands in, `r` taken modulo 4 (42_reference_cipher.md R145). -/
def columnByte (b : Block) (i r : Nat) : Byte := byteAt b (4 * (i / 4) + r % 4)

/-- `MixColumns` (42_reference_cipher.md R145). -/
def mixColumns (b : Block) : Block :=
  blockOf fun i =>
    let r := i % 4
    gmul 0x02 (columnByte b i r) ^^^ gmul 0x03 (columnByte b i (r + 1)) ^^^
      columnByte b i (r + 2) ^^^ columnByte b i (r + 3)

/-- `InvMixColumns` (42_reference_cipher.md R150). -/
def invMixColumns (b : Block) : Block :=
  blockOf fun i =>
    let r := i % 4
    gmul 0x0e (columnByte b i r) ^^^ gmul 0x0b (columnByte b i (r + 1)) ^^^
      gmul 0x0d (columnByte b i (r + 2)) ^^^ gmul 0x09 (columnByte b i (r + 3))

/-- `AddRoundKey` (42_reference_cipher.md R146). -/
def addRoundKey (b k : Block) : Block := b ^^^ k

/-- `Cipher(RK, Nr, B)` (42_reference_cipher.md R152). -/
def cipher (rk : RoundKeys) (nr : Nat) (b : Block) : Block :=
  let s := (List.range (nr - 1)).foldl
    (fun s i => addRoundKey (mixColumns (shiftRows (subBytes s))) (roundKey rk (i + 1)))
    (addRoundKey b (roundKey rk 0))
  addRoundKey (shiftRows (subBytes s)) (roundKey rk nr)

/-- `InvCipher(RK, Nr, B)`, the direct inverse cipher (42_reference_cipher.md R153). -/
def invCipher (rk : RoundKeys) (nr : Nat) (b : Block) : Block :=
  let s := (List.range (nr - 1)).foldl
    (fun s i => invMixColumns (addRoundKey (invSubBytes (invShiftRows s)) (roundKey rk (nr - 1 - i))))
    (addRoundKey b (roundKey rk nr))
  addRoundKey (invSubBytes (invShiftRows s)) (roundKey rk 0)

/-- The block function of a direction (45_facade.md R252). -/
def blockFunction (dir : Direction) (rk : RoundKeys) (nr : Nat) (b : Block) : Block :=
  match dir with
  | .enc => cipher rk nr b
  | .dec => invCipher rk nr b

end Sys2Proof.Machine
end

