-- ==== Sys2Proof/Machine/BitSlice.lean ====
section
/-! DEFINITION. The bit-sliced representation and its operations (43_portable_engine.md R171 to R186). -/

namespace Sys2Proof.Machine

/-- `BS.Pack`: `Q[j][8p + k] = X[k][p][j]` (43_portable_engine.md R171, R172). -/
def bsPack (X : Oct Block) : Oct Block :=
  Oct.ofFn fun j => blockOf fun p => byteOfBits fun k => (X.get k).getLsbD (8 * p + j)

/-- `BS.Unpack`: `X[k][p][j] = Q[j][8p + k]` (43_portable_engine.md R173). -/
def bsUnpack (Q : Oct Block) : Oct Block :=
  Oct.ofFn fun k => blockOf fun p => byteOfBits fun j => (Q.get j).getLsbD (8 * p + k)

/-- `BS.Key`: the same round key in all lanes (43_portable_engine.md R176). -/
def bsKey (k : Block) : Oct Block := bsPack ⟨k, k, k, k, k, k, k, k⟩

/-- `BS.AddRoundKey` (43_portable_engine.md R177). -/
def bsAddRoundKey (Q KQ : Oct Block) : Oct Block := Oct.ofFn fun j => Q.get j ^^^ KQ.get j

/-- `BS.ShiftRows` (43_portable_engine.md R178). -/
def bsShiftRows (Q : Oct Block) : Oct Block := Q.map fun plane => permBytes plane srIndex

/-- `BS.InvShiftRows` (43_portable_engine.md R179). -/
def bsInvShiftRows (Q : Oct Block) : Oct Block := Q.map fun plane => permBytes plane isrIndex

/-- `BS.SubBytes`: the circuit with width 128 (43_portable_engine.md R180). -/
def bsSubBytes (Q : Oct Block) : Oct Block := sboxCirc Q

/-- `BS.InvSubBytes` (43_portable_engine.md R182). -/
def bsInvSubBytes (Q : Oct Block) : Oct Block := invSboxCirc Q

/-- `BS.XTime` (43_portable_engine.md R183). -/
def bsXTime (T : Oct Block) : Oct Block :=
  ⟨T.c7, T.c0 ^^^ T.c7, T.c1, T.c2 ^^^ T.c7, T.c3 ^^^ T.c7, T.c4, T.c5, T.c6⟩

/-- `RotRows(P, i)` (43_portable_engine.md R184). -/
def rotRows (plane : Block) (i : Nat) : Block := blockOf fun p => byteAt plane ((p % 4 + i) % 4 + 4 * (p / 4))

/-- `BS.MixColumns` (43_portable_engine.md R185). -/
def bsMixColumns (Q : Oct Block) : Oct Block :=
  let X := bsXTime (Q.map fun q => q ^^^ rotRows q 1)
  Oct.ofFn fun j => X.get j ^^^ rotRows (Q.get j) 1 ^^^ rotRows (Q.get j) 2 ^^^ rotRows (Q.get j) 3

/-- `BS.InvMixColumns` (43_portable_engine.md R186). -/
def bsInvMixColumns (Q : Oct Block) : Oct Block :=
  let U := bsXTime (bsXTime (Q.map fun q => q ^^^ rotRows q 2))
  bsMixColumns (Oct.ofFn fun j => Q.get j ^^^ U.get j)

end Sys2Proof.Machine
end

