-- ==== Sys2Proof/Machine/KeySchedule.lean ====
section
/-! DEFINITION. The Key Schedule Expander (40_key_schedule.md). -/

namespace Sys2Proof.Machine

/-- A value with the internal steps taken to compute it (70_reset_and_hazards.md R320; log 13). -/
structure Traced (α : Type) where
  val : α
  ops : List UnitOp

/-- `RotWord` (40_key_schedule.md R92). -/
def rotWord (w : Word) : Word := wordOf (byteAt w 1) (byteAt w 2) (byteAt w 3) (byteAt w 0)

/-- `SubWord` (40_key_schedule.md R93). -/
def subWord (w : Word) : Word :=
  wordOf (sbox (byteAt w 0)) (sbox (byteAt w 1)) (sbox (byteAt w 2)) (sbox (byteAt w 3))

/-- `SubWord` through four reads of the ROM, as with `ENGINE = ACCEL` (40_key_schedule.md R101). -/
def subWordRom (w : Word) : Traced Word :=
  ⟨wordOf (sboxFwd (byteAt w 0)) (sboxFwd (byteAt w 1)) (sboxFwd (byteAt w 2)) (sboxFwd (byteAt w 3)),
    [.romReads false 4]⟩

/-- `SubWord` through the circuit, as with `ENGINE = PORTABLE`: the word in positions 0 to 3 of lane 0 of an
otherwise zero batch (40_key_schedule.md R101, R102). -/
def subWordCircuit (w : Word) : Traced Word :=
  let lane := (bsUnpack (bsSubBytes (bsPack ⟨blockOfWords w 0 0 0, 0, 0, 0, 0, 0, 0, 0⟩))).c0
  ⟨wordOf (byteAt lane 0) (byteAt lane 1) (byteAt lane 2) (byteAt lane 3), [.circuit false]⟩

/-- The substitution hardware of the engine in use (40_key_schedule.md R101). -/
def engineSubWord : Engine → Word → Traced Word
  | .portable => subWordCircuit
  | .accel => subWordRom

/-- `rc(j)`; `rc(0)` is never used (40_key_schedule.md R95). -/
def rc : Nat → Byte
  | 0 => 0x01
  | 1 => 0x01
  | j + 2 => xtime (rc (j + 1))

/-- `Rcon(j)` (40_key_schedule.md R95). -/
def rcon (j : Nat) : Word := wordOf (rc j) 0x00 0x00 0x00

/-- The first `Nk` words are the key (40_key_schedule.md R94). -/
def keyScheduleStart (nk : Nat) (key : List Byte) : List Word :=
  (List.range nk).map fun i =>
    wordOf (key.getD (4 * i) 0) (key.getD (4 * i + 1) 0) (key.getD (4 * i + 2) 0) (key.getD (4 * i + 3) 0)

/-- `temp` of the step that computes `w[i]` (40_key_schedule.md R96). -/
def scheduleTemp (sub : Word → Traced Word) (nk i : Nat) (prev : Word) : Traced Word :=
  if i % nk = 0 then
    let t := sub (rotWord prev)
    ⟨t.val ^^^ rcon (i / nk), t.ops⟩
  else if nk = 8 ∧ i % nk = 4 then sub prev
  else ⟨prev, []⟩

/-- One step of the recurrence: `w[i] = w[i-Nk] xor temp` (40_key_schedule.md R96). -/
def scheduleStep (sub : Word → Traced Word) (nk : Nat) (t : Traced (List Word)) (i : Nat) : Traced (List Word) :=
  let temp := scheduleTemp sub nk i (t.val.getD (i - 1) 0)
  ⟨t.val ++ [t.val.getD (i - nk) 0 ^^^ temp.val], t.ops ++ temp.ops⟩

/-- The words `w[0 .. 4(Nr+1)-1]` (40_key_schedule.md R96). -/
def scheduleWords (sub : Word → Traced Word) (v : Variant) (key : List Byte) : Traced (List Word) :=
  let nk := v.keyWords
  (List.range (4 * (v.rounds + 1) - nk)).foldl (fun t k => scheduleStep sub nk t (nk + k))
    ⟨keyScheduleStart nk key, []⟩

/-- The register file that a schedule fills: round key `j` is words `4j` to `4j+3` for `j` up to `Nr`, and
zero above (40_key_schedule.md R97; 45_facade.md R244). -/
def registersOfWords (nr : Nat) (w : List Word) : RoundKeys :=
  Vector.ofFn fun j =>
    if j.val ≤ nr then
      blockOfWords (w.getD (4 * j.val) 0) (w.getD (4 * j.val + 1) 0) (w.getD (4 * j.val + 2) 0)
        (w.getD (4 * j.val + 3) 0)
    else 0

/-- `KS.EXPAND` by a given substitution, as the contents of `RK[0..14]` (40_key_schedule.md R90, R96). -/
def expandKey (sub : Word → Traced Word) (v : Variant) (key : List Byte) : Traced RoundKeys :=
  let w := scheduleWords sub v key
  ⟨registersOfWords v.rounds w.val, .expand v :: w.ops⟩

/-- `KS.EXPAND` with the `SubWord` of the table: the schedule that both engines must produce
(40_key_schedule.md R96, R101). -/
def keySchedule (v : Variant) (key : List Byte) : RoundKeys := (expandKey (fun w => ⟨subWord w, []⟩) v key).val

end Sys2Proof.Machine
end

