-- ==== Sys2Proof/WellFormed.lean ====
section
/-! DEFINITION. Which instructions have words: the operands must fit the fields of the descriptor. -/

namespace Sys2Proof

/-- An address fits the `ADDR` field (00_scope.md R15; 30_encoding.md R61). -/
def addrFits (addr : Nat) : Bool := addr < 2 ^ Config.addressBits

/-- A count fits the `LEN` field (00_scope.md R15; 30_encoding.md R61, R76). -/
def lenFits (len : Nat) : Bool := len < 2 ^ Config.lengthBits

/-- The operands of an instruction can be expressed in one word of its format (30_encoding.md R61, R76). -/
def Instr.wellFormed : Instr → Bool
  | .keysetup128 addr len => addrFits addr && lenFits len
  | .keysetup192 addr len => addrFits addr && lenFits len
  | .keysetup256 addr len => addrFits addr && lenFits len
  | .encb addr => addrFits addr
  | .decb addr => addrFits addr
  | .encbs addr n => addrFits addr && lenFits n
  | .decbs addr n => addrFits addr && lenFits n
  | .pEnc1 => true
  | .pDec1 => true
  | .pEnc8 => true
  | .pDec8 => true
  | .aEnc1 => true
  | .aDec1 => true
  | .aEncN => true
  | .aDecN => true
  | .rndArk => true
  | .rndEnc => true
  | .rndEncLast => true
  | .rndDec => true
  | .rndDecLast => true
  | .sboxFwd _ => true
  | .sboxInv _ => true

end Sys2Proof
end

