-- ==== Sys2Proof/Decode.lean ====
section
/-! DEFINITION. Decoding of the four input formats (30_encoding.md R61 to R74), and the encoder. -/

namespace Sys2Proof

/-- The five causes of an illegal descriptor, in the order of 30_encoding.md R72. -/
inductive IllegalCause where
  /-- case 1: a bit of `RSV` is one -/
  | reservedBits
  /-- case 2: `OP` is 0x0 or 0x6 to 0xF -/
  | reservedOp
  /-- case 3: `OP = KEYSETUP` and `VARIANT = 3` -/
  | reservedVariant
  /-- case 4: a block command and `VARIANT` is not 0 -/
  | blockVariant
  /-- case 5: ENCB or DECB and `LEN` is not 0 -/
  | unusedLength
deriving DecidableEq, Repr

/-- Why a word decodes to no instruction. -/
inductive Rejected where
  /-- a descriptor that is none of the seven commands (30_encoding.md R72) -/
  | illegal (cause : IllegalCause)
  /-- an `EREQ` value not in 30_encoding.md R68 (R73) -/
  | reservedEreq
  /-- an `RSEL` value 5 to 7 (30_encoding.md R69, R73) -/
  | reservedRsel
deriving DecidableEq, Repr

/-- The control word of a descriptor, `CTRL` (30_encoding.md R61). -/
def descCtrl (d : BitVec 128) : BitVec 32 := d.extractLsb' 0 32

/-- The `LEN` field as a number (30_encoding.md R61, R62). -/
def descLen (d : BitVec 128) : Nat := (d.extractLsb' 32 32).toNat

/-- The `ADDR` field as a number (30_encoding.md R61, R62). -/
def descAddr (d : BitVec 128) : Nat := (d.extractLsb' 64 64).toNat

/-- The `OP` field (30_encoding.md R61, R63). -/
def ctrlOp (ctrl : BitVec 32) : BitVec 4 := ctrl.extractLsb' 0 4

/-- The `VARIANT` field (30_encoding.md R61, R64). -/
def ctrlVariant (ctrl : BitVec 32) : BitVec 2 := ctrl.extractLsb' 4 2

/-- The `RSV` field (30_encoding.md R61). -/
def ctrlReserved (ctrl : BitVec 32) : BitVec 26 := ctrl.extractLsb' 6 26

/-- Decoding of a descriptor (30_encoding.md R67), an illegal one with its cause of R72. -/
def decodeCmd (d : BitVec 128) : Except Rejected Instr :=
  let ctrl := descCtrl d
  let op := ctrlOp ctrl
  let var := ctrlVariant ctrl
  let len := descLen d
  let addr := descAddr d
  if ctrlReserved ctrl ≠ 0 then .error (.illegal .reservedBits)
  else if op = 1 then
    if var = 0 then .ok (.keysetup128 addr len)
    else if var = 1 then .ok (.keysetup192 addr len)
    else if var = 2 then .ok (.keysetup256 addr len)
    else .error (.illegal .reservedVariant)
  else if op = 2 then
    if var ≠ 0 then .error (.illegal .blockVariant)
    else if len ≠ 0 then .error (.illegal .unusedLength)
    else .ok (.encb addr)
  else if op = 3 then
    if var ≠ 0 then .error (.illegal .blockVariant)
    else if len ≠ 0 then .error (.illegal .unusedLength)
    else .ok (.decb addr)
  else if op = 4 then
    if var ≠ 0 then .error (.illegal .blockVariant) else .ok (.encbs addr len)
  else if op = 5 then
    if var ≠ 0 then .error (.illegal .blockVariant) else .ok (.decbs addr len)
  else .error (.illegal .reservedOp)

/-- Decoding of an engine request (30_encoding.md R68). -/
def decodeEreq (word : BitVec 5) : Except Rejected Instr :=
  if word = 0b00010 then .ok .pEnc1
  else if word = 0b00011 then .ok .pDec1
  else if word = 0b00100 then .ok .pEnc8
  else if word = 0b00101 then .ok .pDec8
  else if word = 0b10010 then .ok .aEnc1
  else if word = 0b10011 then .ok .aDec1
  else if word = 0b10100 then .ok .aEncN
  else if word = 0b10101 then .ok .aDecN
  else .error .reservedEreq

/-- The operation an `RSEL` word selects (30_encoding.md R69). -/
def decodeRndSel (word : BitVec 3) : Option RndSel :=
  if word = 0 then some .ark
  else if word = 1 then some .enc
  else if word = 2 then some .encLast
  else if word = 3 then some .dec
  else if word = 4 then some .decLast
  else none

/-- Decoding of a round-unit operation select (30_encoding.md R69). -/
def decodeRsel (word : BitVec 3) : Except Rejected Instr :=
  match decodeRndSel word with
  | some .ark => .ok .rndArk
  | some .enc => .ok .rndEnc
  | some .encLast => .ok .rndEncLast
  | some .dec => .ok .rndDec
  | some .decLast => .ok .rndDecLast
  | none => .error .reservedRsel

/-- The S-box ROM read an address stands for: bit 8 is `INV`, bits 7:0 the input byte (30_encoding.md R70). -/
def decodeSrom (address : BitVec 9) : Instr :=
  let x : Byte := address.extractLsb' 0 8
  if address.getLsbD 8 then .sboxInv x else .sboxFwd x

/-- Decoding of a word by the format of its port. It depends on no state and no configuration
(30_encoding.md R74). -/
def decode : Request → Except Rejected Instr
  | .cmd d => decodeCmd d
  | .ereq w => decodeEreq w
  | .rsel w => decodeRsel w
  | .srom a => .ok (decodeSrom a)

/-- The `VARIANT` code (30_encoding.md R64). -/
def Variant.code : Variant → BitVec 2
  | .aes128 => 0
  | .aes192 => 1
  | .aes256 => 2

/-- The `RSEL` code (30_encoding.md R69). -/
def RndSel.code : RndSel → BitVec 3
  | .ark => 0
  | .enc => 1
  | .encLast => 2
  | .dec => 3
  | .decLast => 4

/-- A descriptor from its fields, most significant first (30_encoding.md R61). -/
def descriptor (addr len : Nat) (variant : BitVec 2) (op : BitVec 4) : BitVec 128 :=
  BitVec.ofNat 64 addr ++ BitVec.ofNat 32 len ++ (0 : BitVec 26) ++ variant ++ op

/-- The word of an instruction, on the port of its format (30_encoding.md R61, R66, R68 to R70). -/
def encode : Instr → Request
  | .keysetup128 addr len => .cmd (descriptor addr len Variant.aes128.code 1)
  | .keysetup192 addr len => .cmd (descriptor addr len Variant.aes192.code 1)
  | .keysetup256 addr len => .cmd (descriptor addr len Variant.aes256.code 1)
  | .encb addr => .cmd (descriptor addr 0 0 2)
  | .decb addr => .cmd (descriptor addr 0 0 3)
  | .encbs addr n => .cmd (descriptor addr n 0 4)
  | .decbs addr n => .cmd (descriptor addr n 0 5)
  | .pEnc1 => .ereq 0b00010
  | .pDec1 => .ereq 0b00011
  | .pEnc8 => .ereq 0b00100
  | .pDec8 => .ereq 0b00101
  | .aEnc1 => .ereq 0b10010
  | .aDec1 => .ereq 0b10011
  | .aEncN => .ereq 0b10100
  | .aDecN => .ereq 0b10101
  | .rndArk => .rsel RndSel.ark.code
  | .rndEnc => .rsel RndSel.enc.code
  | .rndEncLast => .rsel RndSel.encLast.code
  | .rndDec => .rsel RndSel.dec.code
  | .rndDecLast => .rsel RndSel.decLast.code
  | .sboxFwd x => .srom ((0 : BitVec 1) ++ x)
  | .sboxInv y => .srom ((1 : BitVec 1) ++ y)

/-- The port a word of the opcode table goes to, told by the number of bits the table gives its row: 128 for
`CMD`, 9 (two bytes) for `SROM`, 5 for `EREQ`, 3 for `RSEL`. A whole byte may be either of the last two: it is
read as an `EREQ` word where one exists with that number, and as an `RSEL` word otherwise (log 14). -/
def requestOfTable (nbits w : Nat) : Request :=
  if nbits = 3 then .rsel (BitVec.ofNat 3 w)
  else if nbits = 5 then .ereq (BitVec.ofNat 5 w)
  else if nbits ≤ 8 then
    match decodeEreq (BitVec.ofNat 5 w) with
    | .ok _ => .ereq (BitVec.ofNat 5 w)
    | .error _ => .rsel (BitVec.ofNat 3 w)
  else if nbits ≤ 16 then .srom (BitVec.ofNat 9 w)
  else .cmd (BitVec.ofNat 128 w)

/-- The instruction that the decoder reads from a word of the opcode table. -/
def decodeTableWord (nbits w : Nat) : Option Instr :=
  match decode (requestOfTable nbits w) with
  | .ok i => some i
  | .error _ => none

end Sys2Proof
end

