-- ==== Sys2Proof/Machine/Flags.lean ====
section
/-! DEFINITION. The core has no flags (10_state.md R28); its only status is the response (30_encoding.md R65). -/

namespace Sys2Proof.Machine

/-- The response codes (30_encoding.md R65). -/
inductive Code where
  | ok
  | invalidKeyLength
  | illegalCommand
  | noKey
  | bufferFault
deriving DecidableEq, Repr

/-- `CODE` (30_encoding.md R65). -/
def Code.bits : Code → BitVec 4
  | .ok => 0
  | .invalidKeyLength => 1
  | .illegalCommand => 2
  | .noKey => 3
  | .bufferFault => 4

/-- The response word: `CODE` in bits 3:0, zeros above (30_encoding.md R65). -/
def Code.word (c : Code) : BitVec 32 := (0 : BitVec 28) ++ c.bits

end Sys2Proof.Machine
end

