-- ==== Sys2Proof/Machine/Ops.lean ====
section
/-! DEFINITION. The operations over memory, the ports and the context that the meanings are written with. -/

namespace Sys2Proof.Machine

/-- What an address that is not listed reads as. The spec gives host memory no contents; DESIGN CHOICE, unsafe
(log 4): zero. -/
def Memory.unlisted : Byte := 0x00

/-- `Mem[a]` (20_memory.md R40). -/
def Memory.read : Memory → Nat → Byte
  | [], _ => Memory.unlisted
  | (b, v) :: rest, a => if a = b then v else Memory.read rest a

/-- A byte in front of a memory whose addresses are all above, left out when it reads so anyway. -/
def Memory.cons (a : Nat) (v : Byte) (rest : Memory) : Memory :=
  if v = Memory.unlisted then rest else (a, v) :: rest

/-- `Mem[a] <- v` (20_memory.md R43), in canonical form. -/
def Memory.write : Memory → Nat → Byte → Memory
  | [], a, v => Memory.cons a v []
  | (b, u) :: rest, a, v =>
    if a < b then Memory.cons a v ((b, u) :: rest)
    else if a = b then Memory.cons a v rest
    else (b, u) :: Memory.write rest a v

/-- The canonical form above an address: addresses rise strictly, lie in the address space, and no entry reads
as an unlisted address would. -/
def Memory.wfFrom (low : Nat) : Memory → Bool
  | [] => true
  | (a, v) :: rest =>
    decide (low ≤ a) && decide (a < 2 ^ Config.addressBits) && decide (v ≠ Memory.unlisted) &&
      Memory.wfFrom (a + 1) rest

/-- The canonical form. -/
def Memory.wf (m : Memory) : Bool := Memory.wfFrom 0 m

/-- `MemRead(addr, n)`: lowest address first (20_memory.md R42). -/
def Memory.readBytes (m : Memory) (addr n : Nat) : List Byte := (List.range n).map fun i => m.read (addr + i)

/-- `MemWrite(addr, n, v)`: byte `v[i]` to address `addr + i` (20_memory.md R43). -/
def Memory.writeBytes (m : Memory) (addr : Nat) : List Byte → Memory
  | [] => m
  | v :: vs => (m.write addr v).writeBytes (addr + 1) vs

/-- The block at an address (20_memory.md R42, R44). -/
def Memory.readBlock (m : Memory) (addr : Nat) : Block := blockOfBytes (m.readBytes addr Config.blockBytes)

/-- A block stored at an address (20_memory.md R43, R44). -/
def Memory.writeBlock (m : Memory) (addr : Nat) (b : Block) : Memory := m.writeBytes addr (bytesOfBlock b)

/-- The block stored at an address, with the access put on record (20_memory.md R48). -/
def State.storeBlock (s : State) (addr : Nat) (b : Block) : State :=
  { s with
    mem := s.mem.writeBlock addr b
    bus := s.bus ++ [⟨.write, addr, Config.blockBytes⟩] }

/-- Blocks stored at a list of addresses, in that order (45_facade.md R253, R254). -/
def State.storeBlocks (s : State) : List (Nat × Block) → State
  | [] => s
  | (addr, b) :: rest => (s.storeBlock addr b).storeBlocks rest

/-- A read of `n` bytes put on record (20_memory.md R48). -/
def State.recordRead (s : State) (addr n : Nat) : State := { s with bus := s.bus ++ [⟨.read, addr, n⟩] }

/-- Reads of the blocks at a list of addresses put on record, in that order. -/
def State.recordReads (s : State) (addrs : List Nat) : State :=
  { s with bus := s.bus ++ addrs.map fun a => ⟨.read, a, Config.blockBytes⟩ }

/-- Internal steps put on record (70_reset_and_hazards.md R320). -/
def State.recordOps (s : State) (ops : List UnitOp) : State := { s with unitOps := s.unitOps ++ ops }

/-- The core takes the waiting word: the port is empty, no response is given yet, and the records of this
command begin (30_encoding.md R60; 60_exceptions.md R300). -/
def State.accept (s : State) : State := { s with port := none, response := none, bus := [], unitOps := [] }

/-- The end of a host command: the response is given, and the working registers hold unspecified values
(30_encoding.md R65; 10_state.md R30; log 5, 17). -/
def State.respond (s : State) (code : Code) : State :=
  { s with
    response := some code.word
    unitS := Config.freeBlock s.freeCount 0
    unitK := Config.freeBlock s.freeCount 1
    reqBlock := Config.freeBlock s.freeCount 2
    reqBatch := Oct.ofFn fun i => Config.freeBlock s.freeCount (3 + i)
    reqBlocks := Config.freeBlocks s.freeCount
    romOut := Config.freeByte s.freeCount
    freeCount := s.freeCount + 1 }

/-- `raise <Fault>`: the command ends at once with that code; the context and memory are as they were and no
memory was accessed (00_scope.md R16; 60_exceptions.md R286). This is the whole of taking a fault: control goes
nowhere, nothing is saved, and there is no return (60_exceptions.md R290). -/
def State.raise (s : State) (code : Code) : State := s.respond code

/-- A word that decodes to no instruction: an illegal descriptor is answered with `IllegalCommand`
(60_exceptions.md R287); a reserved internal word is refused (93_implementation_defined.md U5). -/
def rejectWord (e : Rejected) (s : State) : Host.Outcome State Fault Refusal :=
  match e with
  | .illegal _ => .next (s.accept.raise .illegalCommand)
  | .reservedEreq => .refused .reservedEngineRequest
  | .reservedRsel => .refused .reservedRoundSelect

/-- What reset leaves: the context is cleared and the ports are empty, the working registers hold unspecified values,
the configuration and memory are untouched (70_reset_and_hazards.md R311). -/
def State.afterReset (s : State) : State :=
  { s.accept.respond .ok with
    keyValid := false
    variant := .aes128
    rk := Vector.replicate 15 0
    response := none }

/-- The reset event. It is given while no command is in progress (70_reset_and_hazards.md R310); from issue to
response a command is in progress, so while a word waits the event is refused (93_implementation_defined.md U7;
log 22). -/
def State.resetEvent (s : State) : Host.Outcome State Fault Refusal :=
  match s.port with
  | none => .next s.afterReset
  | some _ => .refused .portOccupied

/-- A descriptor placed at an empty port (30_encoding.md R60). -/
def State.withDescriptor (s : State) (d : BitVec 128) : State := { s with port := some (.cmd d), response := none }

/-- The host offers the core a descriptor (30_encoding.md R60; 00_scope.md R18, point 8). The port takes one at a time
(60_exceptions.md R299, R300). What becomes of an offer made while a word waits, the spec leaves open; DESIGN CHOICE
(log 22): the offer is refused and may be made again later, the waiting word stays and is answered. The order in
which competing threads' offers are taken (93_implementation_defined.md U2) is the order of the accepted ones. -/
def State.issue (s : State) (d : BitVec 128) : Host.Outcome State Fault Refusal :=
  match s.port with
  | none => .next (s.withDescriptor d)
  | some _ => .refused .portOccupied

/-- The buffer a command names (20_memory.md R41), and whether the command writes it. -/
structure NamedBuffer where
  addr : Nat
  count : Nat
  written : Bool
deriving DecidableEq, Repr

/-- The buffer of a command (20_memory.md R41); an internal request names none. -/
def namedBuffer : Instr → Option NamedBuffer
  | .keysetup128 addr len => some ⟨addr, len, false⟩
  | .keysetup192 addr len => some ⟨addr, len, false⟩
  | .keysetup256 addr len => some ⟨addr, len, false⟩
  | .encb addr => some ⟨addr, blocksBytes 1, true⟩
  | .decb addr => some ⟨addr, blocksBytes 1, true⟩
  | .encbs addr n => some ⟨addr, blocksBytes n, true⟩
  | .decbs addr n => some ⟨addr, blocksBytes n, true⟩
  | .pEnc1 => none
  | .pDec1 => none
  | .pEnc8 => none
  | .pDec8 => none
  | .aEnc1 => none
  | .aDec1 => none
  | .aEncN => none
  | .aDecN => none
  | .rndArk => none
  | .rndEnc => none
  | .rndEncLast => none
  | .rndDec => none
  | .rndDecLast => none
  | .sboxFwd _ => none
  | .sboxInv _ => none

/-- The buffer that belongs to the core: from the issue of a command to its response the one it names
(20_memory.md R54), otherwise none. -/
def State.ownedBuffer (s : State) : Option NamedBuffer :=
  match s.port with
  | none => none
  | some request =>
    match decode request with
    | .ok i => namedBuffer i
    | .error _ => none

/-- Whether the host must keep off a byte: off every byte of a block buffer, and off writing a key buffer, which
it may read (20_memory.md R54; 70_reset_and_hazards.md R315, R316). -/
def State.owns (s : State) (kind : AccessKind) (addr : Nat) : Bool :=
  match s.ownedBuffer with
  | none => false
  | some b => (kind = .write || b.written) && b.addr ≤ addr && addr < b.addr + b.count

/-- An access of the host: refused where the address does not exist (20_memory.md R40) and where the byte belongs to
the core (R54; 93_implementation_defined.md U1). -/
def State.hostAccess {α : Type} (s : State) (kind : AccessKind) (addr : Nat) (result : α) :
    Host.Outcome α Fault Refusal :=
  if 2 ^ Config.addressBits ≤ addr then .refused .noSuchAddress
  else if s.owns kind addr then .refused .bufferOwned
  else .next result

/-- A byte of memory changed. -/
def State.withByte (s : State) (addr : Nat) (v : Byte) : State := { s with mem := s.mem.write addr v }

/-- The host writes a byte of its memory (20_memory.md R54, R55). -/
def State.hostWrite (s : State) (addr : Nat) (v : Byte) : Host.Outcome State Fault Refusal :=
  s.hostAccess .write addr (s.withByte addr v)

/-- The host reads a byte of its memory (20_memory.md R54, R55). -/
def State.hostRead (s : State) (addr : Nat) : Host.Outcome Byte Fault Refusal :=
  s.hostAccess .read addr (s.mem.read addr)

/-- The instance in which a word can be offered: an engine request is only ever sent to the engine that
`ENGINE` names, and a round-unit operation only where there is a round unit (30_encoding.md R68, R73; log 15). -/
def configFor (c : Config) (request : Request) : Config :=
  match request with
  | .cmd _ => c
  | .ereq w => if w.getLsbD 4 then { c with targetHasRoundUnit := true, forcePortable := false }
      else { c with forcePortable := true }
  | .rsel _ => { c with targetHasRoundUnit := true }
  | .srom _ => c

end Sys2Proof.Machine
end

