-- ==== Sys2Proof/Machine/RoundUnit.lean ====
section
/-! DEFINITION. The round unit of the Accelerated engine and its five operations (44_accelerated_engine.md R211
to R217). -/

namespace Sys2Proof.Machine

/-- `SubBytes` through 16 reads of the ROM (44_accelerated_engine.md R211). -/
def romSubBytes (b : Block) : Block := blockOf fun i => sboxFwd (byteAt b i)

/-- `InvSubBytes` through 16 reads of the ROM (44_accelerated_engine.md R211). -/
def romInvSubBytes (b : Block) : Block := blockOf fun i => sboxInv (byteAt b i)

/-- The new value of `S` (44_accelerated_engine.md R212 to R216). -/
def roundUnit (sel : RndSel) (S K : Block) : Block :=
  match sel with
  | .ark => addRoundKey S K
  | .enc => addRoundKey (mixColumns (shiftRows (romSubBytes S))) K
  | .encLast => addRoundKey (shiftRows (romSubBytes S)) K
  | .dec => invMixColumns (addRoundKey (romInvSubBytes (invShiftRows S)) K)
  | .decLast => addRoundKey (romInvSubBytes (invShiftRows S)) K

/-- The ROM reads of one operation: 16, forward or inverse, and none for `RND.ARK`
(44_accelerated_engine.md R211). -/
def roundUnitOps (sel : RndSel) : List UnitOp :=
  match sel with
  | .ark => [.round .ark]
  | .enc => [.round .enc, .romReads false 16]
  | .encLast => [.round .encLast, .romReads false 16]
  | .dec => [.round .dec, .romReads true 16]
  | .decLast => [.round .decLast, .romReads true 16]

/-- A round-unit operation on the registers `S` and `K` of the unit taken alone; refused in an instance without
the unit (44_accelerated_engine.md R211; log 11). -/
def roundUnitStep (sel : RndSel) (s : State) : Host.Outcome State Fault Refusal :=
  if s.cfg.targetHasRoundUnit then
    .next (({ s.accept with unitS := roundUnit sel s.unitS s.unitK }).recordOps (roundUnitOps sel))
  else .refused .roundUnitAbsent

/-- RND.ARK (44_accelerated_engine.md R212). -/
def execRndArk (s : State) : Host.Outcome State Fault Refusal := roundUnitStep .ark s

/-- RND.ENC (44_accelerated_engine.md R213). -/
def execRndEnc (s : State) : Host.Outcome State Fault Refusal := roundUnitStep .enc s

/-- RND.ENCLAST (44_accelerated_engine.md R214). -/
def execRndEncLast (s : State) : Host.Outcome State Fault Refusal := roundUnitStep .encLast s

/-- RND.DEC (44_accelerated_engine.md R215). -/
def execRndDec (s : State) : Host.Outcome State Fault Refusal := roundUnitStep .dec s

/-- RND.DECLAST (44_accelerated_engine.md R216). -/
def execRndDecLast (s : State) : Host.Outcome State Fault Refusal := roundUnitStep .decLast s

end Sys2Proof.Machine
end

