-- ==== Sys2Proof/Machine/Accelerated.lean ====
section
/-! DEFINITION. The Accelerated block engine and its four requests (44_accelerated_engine.md R210 to R222). -/

namespace Sys2Proof.Machine

/-- The round-unit operations of A.ENC1, each with the number of its round key (44_accelerated_engine.md R218). -/
def encProgram (nr : Nat) : List (RndSel × Nat) :=
  (.ark, 0) :: ((List.range (nr - 1)).map fun i => (.enc, i + 1)) ++ [(.encLast, nr)]

/-- The round-unit operations of A.DEC1 (44_accelerated_engine.md R219). -/
def decProgram (nr : Nat) : List (RndSel × Nat) :=
  (.ark, nr) :: ((List.range (nr - 1)).map fun i => (.dec, nr - 1 - i)) ++ [(.decLast, 0)]

/-- The operations of a direction. -/
def unitProgram (dir : Direction) (nr : Nat) : List (RndSel × Nat) :=
  match dir with
  | .enc => encProgram nr
  | .dec => decProgram nr

/-- One operation on each block in flight: round `r` on all of them before round `r + 1` on any, each in a
register of its own (44_accelerated_engine.md R222). -/
def roundUnitGroup (rk : RoundKeys) (t : Traced (List Block)) (op : RndSel × Nat) : Traced (List Block) :=
  ⟨t.val.map fun S => roundUnit op.1 S (roundKey rk op.2), t.ops ++ t.val.flatMap fun _ => roundUnitOps op.1⟩

/-- The blocks of one group through the round unit (44_accelerated_engine.md R222). -/
def runGroup (dir : Direction) (rk : RoundKeys) (nr : Nat) (xs : List Block) : Traced (List Block) :=
  (unitProgram dir nr).foldl (roundUnitGroup rk) ⟨xs, []⟩

/-- A.ENC1 and A.DEC1: one block through the round unit, `S` at the end (44_accelerated_engine.md R218, R219). -/
def accelOne (dir : Direction) (rk : RoundKeys) (nr : Nat) (b : Block) : Traced Block :=
  (unitProgram dir nr).foldl
    (fun t op => ⟨roundUnit op.1 t.val (roundKey rk op.2), t.ops ++ roundUnitOps op.1⟩) ⟨b, []⟩

/-- A.ENCN and A.DECN: the blocks in groups of `PIPE`, in increasing order, a short last group
(44_accelerated_engine.md R220 to R222). -/
def accelMany (dir : Direction) (rk : RoundKeys) (nr pipe : Nat) (xs : List Block) : Traced (List Block) :=
  (groups pipe xs.length).foldl
    (fun t g =>
      let r := runGroup dir rk nr ((xs.drop g.1).take g.2)
      ⟨t.val ++ r.val, t.ops ++ r.ops⟩) ⟨[], []⟩

/-- A one-block request to the Accelerated engine. `S` ends as the result, `K` is unspecified afterwards
(44_accelerated_engine.md R218; log 5); refused when `ENGINE` is not `ACCEL` (log 11). -/
def accelOneStep (dir : Direction) (s : State) : Host.Outcome State Fault Refusal :=
  match s.cfg.engine with
  | .portable => .refused .engineNotSelected
  | .accel =>
    let r := accelOne dir s.rk s.variant.rounds s.reqBlock
    .next (({ s.accept with
      reqBlock := r.val
      unitS := r.val
      unitK := Config.freeBlock s.freeCount 1
      freeCount := s.freeCount + 1 }).recordOps r.ops)

/-- An n-block request to the Accelerated engine. The registers of the round unit are unspecified afterwards
(44_accelerated_engine.md R220 to R222; log 5); refused when `ENGINE` is not `ACCEL` (log 11). -/
def accelManyStep (dir : Direction) (s : State) : Host.Outcome State Fault Refusal :=
  match s.cfg.engine with
  | .portable => .refused .engineNotSelected
  | .accel =>
    let r := accelMany dir s.rk s.variant.rounds s.cfg.pipe s.reqBlocks
    .next (({ s.accept with
      reqBlocks := r.val
      unitS := Config.freeBlock s.freeCount 0
      unitK := Config.freeBlock s.freeCount 1
      freeCount := s.freeCount + 1 }).recordOps r.ops)

/-- A.ENC1 (44_accelerated_engine.md R218). -/
def execAEnc1 (s : State) : Host.Outcome State Fault Refusal := accelOneStep .enc s

/-- A.DEC1 (44_accelerated_engine.md R219). -/
def execADec1 (s : State) : Host.Outcome State Fault Refusal := accelOneStep .dec s

/-- A.ENCN (44_accelerated_engine.md R220). -/
def execAEncN (s : State) : Host.Outcome State Fault Refusal := accelManyStep .enc s

/-- A.DECN (44_accelerated_engine.md R221). -/
def execADecN (s : State) : Host.Outcome State Fault Refusal := accelManyStep .dec s

end Sys2Proof.Machine
end

