-- ==== Sys2Proof/Machine/Portable.lean ====
section
/-! DEFINITION. The Portable block engine and its four requests (43_portable_engine.md R170, R194 to R197). -/

namespace Sys2Proof.Machine

/-- A full encryption round on the planes (43_portable_engine.md R194). -/
def bsEncRound (rk : RoundKeys) (t : Traced (Oct Block)) (r : Nat) : Traced (Oct Block) :=
  ⟨bsAddRoundKey (bsMixColumns (bsShiftRows (bsSubBytes t.val))) (bsKey (roundKey rk r)), t.ops ++ [.circuit false]⟩

/-- P.ENC8 (43_portable_engine.md R194). -/
def pEnc8 (rk : RoundKeys) (nr : Nat) (X : Oct Block) : Traced (Oct Block) :=
  let first : Traced (Oct Block) := ⟨bsAddRoundKey (bsPack X) (bsKey (roundKey rk 0)), []⟩
  let t := (List.range (nr - 1)).foldl (fun t i => bsEncRound rk t (i + 1)) first
  let last := bsAddRoundKey (bsShiftRows (bsSubBytes t.val)) (bsKey (roundKey rk nr))
  ⟨bsUnpack last, t.ops ++ [.circuit false]⟩

/-- A full decryption round on the planes (43_portable_engine.md R195). -/
def bsDecRound (rk : RoundKeys) (t : Traced (Oct Block)) (r : Nat) : Traced (Oct Block) :=
  ⟨bsInvMixColumns (bsAddRoundKey (bsInvSubBytes (bsInvShiftRows t.val)) (bsKey (roundKey rk r))),
    t.ops ++ [.circuit true]⟩

/-- P.DEC8 (43_portable_engine.md R195). -/
def pDec8 (rk : RoundKeys) (nr : Nat) (X : Oct Block) : Traced (Oct Block) :=
  let first : Traced (Oct Block) := ⟨bsAddRoundKey (bsPack X) (bsKey (roundKey rk nr)), []⟩
  let t := (List.range (nr - 1)).foldl (fun t i => bsDecRound rk t (nr - 1 - i)) first
  let last := bsAddRoundKey (bsInvSubBytes (bsInvShiftRows t.val)) (bsKey (roundKey rk 0))
  ⟨bsUnpack last, t.ops ++ [.circuit true]⟩

/-- The eight-block operation of a direction (43_portable_engine.md R170). -/
def portableBatch (dir : Direction) (rk : RoundKeys) (nr : Nat) (X : Oct Block) : Traced (Oct Block) :=
  match dir with
  | .enc => pEnc8 rk nr X
  | .dec => pDec8 rk nr X

/-- P.ENC1 and P.DEC1: the block in lane 0, filler in the others, lanes 1 to 7 discarded
(43_portable_engine.md R196, R197). -/
def portableOne (dir : Direction) (rk : RoundKeys) (nr : Nat) (filler b : Block) : Traced Block :=
  let r := portableBatch dir rk nr (Oct.padded filler [b])
  ⟨r.val.c0, r.ops⟩

/-- A one-block request to the Portable engine; refused when `ENGINE` is not `PORTABLE` (log 11). -/
def portableOneStep (dir : Direction) (s : State) : Host.Outcome State Fault Refusal :=
  match s.cfg.engine with
  | .accel => .refused .engineNotSelected
  | .portable =>
    let r := portableOne dir s.rk s.variant.rounds s.cfg.filler s.reqBlock
    .next (({ s.accept with reqBlock := r.val }).recordOps r.ops)

/-- An eight-block request to the Portable engine; refused when `ENGINE` is not `PORTABLE` (log 11). -/
def portableBatchStep (dir : Direction) (s : State) : Host.Outcome State Fault Refusal :=
  match s.cfg.engine with
  | .accel => .refused .engineNotSelected
  | .portable =>
    let r := portableBatch dir s.rk s.variant.rounds s.reqBatch
    .next (({ s.accept with reqBatch := r.val }).recordOps r.ops)

/-- P.ENC1 (43_portable_engine.md R196). -/
def execPEnc1 (s : State) : Host.Outcome State Fault Refusal := portableOneStep .enc s

/-- P.DEC1 (43_portable_engine.md R197). -/
def execPDec1 (s : State) : Host.Outcome State Fault Refusal := portableOneStep .dec s

/-- P.ENC8 (43_portable_engine.md R194). -/
def execPEnc8 (s : State) : Host.Outcome State Fault Refusal := portableBatchStep .enc s

/-- P.DEC8 (43_portable_engine.md R195). -/
def execPDec8 (s : State) : Host.Outcome State Fault Refusal := portableBatchStep .dec s

end Sys2Proof.Machine
end

