-- ==== Sys2Proof/Machine/Facade.lean ====
section
/-! DEFINITION. The Cipher Facade: the seven host commands (45_facade.md). -/

namespace Sys2Proof.Machine

/-- The `EREQ` word of a one-block request (30_encoding.md R68). -/
def oneRequest : Engine → Direction → BitVec 5
  | .portable, .enc => 0b00010
  | .portable, .dec => 0b00011
  | .accel, .enc => 0b10010
  | .accel, .dec => 0b10011

/-- The `EREQ` word of a multi-block request (30_encoding.md R68). -/
def manyRequest : Engine → Direction → BitVec 5
  | .portable, .enc => 0b00100
  | .portable, .dec => 0b00101
  | .accel, .enc => 0b10100
  | .accel, .dec => 0b10101

/-- `ENG.ENC1` and `ENG.DEC1` of the selected engine (45_facade.md R243). -/
def engineOne (c : Config) (dir : Direction) (rk : RoundKeys) (nr : Nat) (b : Block) : Traced Block :=
  match c.engine with
  | .portable => portableOne dir rk nr c.filler b
  | .accel => accelOne dir rk nr b

/-- The blocks of one chunk or group through the selected engine: padded to eight lanes on the Portable engine,
whose filler lanes are dropped (45_facade.md R253), as they are on the Accelerated one (R254). -/
def engineMany (c : Config) (dir : Direction) (rk : RoundKeys) (nr : Nat) (xs : List Block) : Traced (List Block) :=
  match c.engine with
  | .portable =>
    let r := portableBatch dir rk nr (Oct.padded c.filler xs)
    ⟨r.val.toList.take xs.length, r.ops⟩
  | .accel => accelMany dir rk nr c.pipe xs

/-- How many blocks go to the engine at once: `BATCH` or `PIPE` (45_facade.md R253, R254). -/
def groupSize (c : Config) : Nat :=
  match c.engine with
  | .portable => Config.batch
  | .accel => c.pipe

/-- The KEYSETUP procedure (45_facade.md R244 to R246). -/
def keySetup (v : Variant) (addr len : Nat) (s : State) : Host.Outcome State Fault Refusal :=
  let s0 := s.accept
  if len ≠ v.keyBytes then .next (s0.raise .invalidKeyLength)
  else if !s.cfg.admitsKey addr v.keyBytes then .next (s0.raise .bufferFault)
  else
    let r := expandKey (engineSubWord s.cfg.engine) v (s.mem.readBytes addr v.keyBytes)
    let s1 := (s0.recordRead addr v.keyBytes).recordOps r.ops
    .next (({ s1 with rk := r.val, variant := v, keyValid := true }).respond .ok)

/-- The single-block path: read, one request, write (45_facade.md R248, R249). -/
def runOneBlock (dir : Direction) (addr : Nat) (s : State) : State :=
  let r := engineOne s.cfg dir s.rk s.variant.rounds (s.mem.readBlock addr)
  ((s.recordRead addr Config.blockBytes).recordOps (.request (oneRequest s.cfg.engine dir) :: r.ops)).storeBlock
    addr r.val

/-- One chunk or group of the multi-block path: all its reads, one request, all its writes (45_facade.md R253,
R254). -/
def runBlockGroup (dir : Direction) (addr : Nat) (s : State) (g : Nat × Nat) : State :=
  let addrs := (List.range g.2).map fun k => blockAddr addr (g.1 + k)
  let r := engineMany s.cfg dir s.rk s.variant.rounds (addrs.map s.mem.readBlock)
  ((s.recordReads addrs).recordOps (.request (manyRequest s.cfg.engine dir) :: r.ops)).storeBlocks
    (addrs.zip r.val)

/-- The multi-block path: the chunks or groups in increasing address order (45_facade.md R253, R254). -/
def runBlocks (dir : Direction) (addr n : Nat) (s : State) : State :=
  (groups (groupSize s.cfg) n).foldl (runBlockGroup dir addr) s

/-- The checks of a block command on `n` blocks, in the order of 60_exceptions.md R285, then the command
(45_facade.md R242). -/
def blockCommand (addr n : Nat) (run : State → State) (s : State) : Host.Outcome State Fault Refusal :=
  let s0 := s.accept
  if !s.keyValid then .next (s0.raise .noKey)
  else if !s.cfg.admitsBlocks addr (blocksBytes n) then .next (s0.raise .bufferFault)
  else .next ((run s0).respond .ok)

/-- KEYSETUP.128 (45_facade.md R244). -/
def execKeysetup128 (addr len : Nat) (s : State) : Host.Outcome State Fault Refusal := keySetup .aes128 addr len s

/-- KEYSETUP.192 (45_facade.md R245). -/
def execKeysetup192 (addr len : Nat) (s : State) : Host.Outcome State Fault Refusal := keySetup .aes192 addr len s

/-- KEYSETUP.256 (45_facade.md R246). -/
def execKeysetup256 (addr len : Nat) (s : State) : Host.Outcome State Fault Refusal := keySetup .aes256 addr len s

/-- ENCB (45_facade.md R248). -/
def execEncb (addr : Nat) (s : State) : Host.Outcome State Fault Refusal :=
  blockCommand addr 1 (runOneBlock .enc addr) s

/-- DECB (45_facade.md R249). -/
def execDecb (addr : Nat) (s : State) : Host.Outcome State Fault Refusal :=
  blockCommand addr 1 (runOneBlock .dec addr) s

/-- ENCBS (45_facade.md R250). -/
def execEncbs (addr n : Nat) (s : State) : Host.Outcome State Fault Refusal :=
  blockCommand addr n (runBlocks .enc addr n) s

/-- DECBS (45_facade.md R251). -/
def execDecbs (addr n : Nat) (s : State) : Host.Outcome State Fault Refusal :=
  blockCommand addr n (runBlocks .dec addr n) s

end Sys2Proof.Machine
end

