-- ==== Sys2Proof/Machine/Rom.lean ====
section
/-! DEFINITION. The two reads of the S-box ROM, as requests of their own (41_sbox.md R124). -/

namespace Sys2Proof.Machine

/-- A read of the ROM: its data output takes the byte read, nothing else changes (41_sbox.md R124). -/
def romStep (inverse : Bool) (value : Byte) (s : State) : Host.Outcome State Fault Refusal :=
  .next (({ s.accept with romOut := value }).recordOps [.romReads inverse 1])

/-- SBOX.FWD (41_sbox.md R124). -/
def execSboxFwd (x : Byte) (s : State) : Host.Outcome State Fault Refusal := romStep false (sboxFwd x) s

/-- SBOX.INV (41_sbox.md R124). -/
def execSboxInv (y : Byte) (s : State) : Host.Outcome State Fault Refusal := romStep true (sboxInv y) s

end Sys2Proof.Machine
end

