-- ==== Sys2Proof/Machine/Dispatch.lean ====
section
/-! DEFINITION. One arm per instruction, each one call of its meaning. -/

namespace Sys2Proof.Machine

def exec (i : Instr) (s : State) : Host.Outcome State Fault Refusal :=
  match i with
  | .keysetup128 addr len => Sys2Proof.Machine.execKeysetup128 addr len s
  | .keysetup192 addr len => Sys2Proof.Machine.execKeysetup192 addr len s
  | .keysetup256 addr len => Sys2Proof.Machine.execKeysetup256 addr len s
  | .encb addr => Sys2Proof.Machine.execEncb addr s
  | .decb addr => Sys2Proof.Machine.execDecb addr s
  | .encbs addr n => Sys2Proof.Machine.execEncbs addr n s
  | .decbs addr n => Sys2Proof.Machine.execDecbs addr n s
  | .pEnc1 => Sys2Proof.Machine.execPEnc1 s
  | .pDec1 => Sys2Proof.Machine.execPDec1 s
  | .pEnc8 => Sys2Proof.Machine.execPEnc8 s
  | .pDec8 => Sys2Proof.Machine.execPDec8 s
  | .aEnc1 => Sys2Proof.Machine.execAEnc1 s
  | .aDec1 => Sys2Proof.Machine.execADec1 s
  | .aEncN => Sys2Proof.Machine.execAEncN s
  | .aDecN => Sys2Proof.Machine.execADecN s
  | .rndArk => Sys2Proof.Machine.execRndArk s
  | .rndEnc => Sys2Proof.Machine.execRndEnc s
  | .rndEncLast => Sys2Proof.Machine.execRndEncLast s
  | .rndDec => Sys2Proof.Machine.execRndDec s
  | .rndDecLast => Sys2Proof.Machine.execRndDecLast s
  | .sboxFwd x => Sys2Proof.Machine.execSboxFwd x s
  | .sboxInv y => Sys2Proof.Machine.execSboxInv y s

end Sys2Proof.Machine
end

