-- ==== Sys2Proof/Machine/Step.lean ====
section
/-! DEFINITION. One step: the core takes the waiting word and runs it. -/

namespace Sys2Proof.Machine

/-- One step. With no word waiting the core waits, and nothing changes (60_exceptions.md R303;
70_reset_and_hazards.md R310); otherwise it decodes the word and runs the command as one atomic step
(00_scope.md R17; 45_facade.md R242). -/
def step (s : State) : Host.Outcome State Fault Refusal :=
  match s.port with
  | none => .next s
  | some request =>
    match decode request with
    | .ok i => exec i s
    | .error e => rejectWord e s

/-- The state with a word of the opcode table waiting at its port, in an instance in which it can be offered. -/
def State.withFetchWord (s : State) (nbits w : Nat) : State :=
  { s with
    port := some (requestOfTable nbits w)
    cfg := configFor s.cfg (requestOfTable nbits w) }

end Sys2Proof.Machine
end

