-- ==== Sys2Proof/Safety.lean ====
section
/-! DEFINITION. What the statements speak of: the context, the two ways a command can end, the public values,
the invariant, and runs of several instructions. -/

namespace Sys2Proof.Machine

/-- The host commands among the instructions (30_encoding.md R66). -/
def isCommand : Instr → Bool
  | .keysetup128 _ _ => true
  | .keysetup192 _ _ => true
  | .keysetup256 _ _ => true
  | .encb _ => true
  | .decb _ => true
  | .encbs _ _ => true
  | .decbs _ _ => true
  | .pEnc1 => false
  | .pDec1 => false
  | .pEnc8 => false
  | .pDec8 => false
  | .aEnc1 => false
  | .aDec1 => false
  | .aEncN => false
  | .aDecN => false
  | .rndArk => false
  | .rndEnc => false
  | .rndEncLast => false
  | .rndDec => false
  | .rndDecLast => false
  | .sboxFwd _ => false
  | .sboxInv _ => false

/-- A KEYSETUP with the variant it names, its buffer address and the key length offered. -/
def IsKeysetup (i : Instr) (v : Variant) (addr len : Nat) : Prop :=
  match v with
  | .aes128 => i = .keysetup128 addr len
  | .aes192 => i = .keysetup192 addr len
  | .aes256 => i = .keysetup256 addr len

/-- A block command with its buffer address and its number of blocks (45_facade.md R252). -/
def IsBlockCommand (i : Instr) (addr n : Nat) : Prop :=
  (n = 1 ∧ (i = .encb addr ∨ i = .decb addr)) ∨ i = .encbs addr n ∨ i = .decbs addr n

/-- The two states have the same context (10_state.md R20). -/
def SameContext (s t : State) : Prop := t.keyValid = s.keyValid ∧ t.variant = s.variant ∧ t.rk = s.rk

/-- The response is this code. -/
def Answers (t : State) (c : Code) : Prop := t.response = some c.word

/-- A command was answered with a code and did nothing else (60_exceptions.md R286): the context, memory and the
configuration are as before, no memory was accessed, no unit took a step, the port is empty. -/
def AnsweredOnly (c : Code) (s t : State) : Prop :=
  Answers t c ∧ SameContext s t ∧ t.mem = s.mem ∧ t.cfg = s.cfg ∧ t.port = none ∧ t.bus = [] ∧ t.unitOps = []

/-- What a KEYSETUP that responds `OK` leaves (45_facade.md R244): the schedule of the key bytes at `addr`, with
the registers above `Nr` zero, the variant, the context valid; memory is only read, once. -/
def KeyedBy (v : Variant) (addr : Nat) (s t : State) : Prop :=
  t.rk = keySchedule v (s.mem.readBytes addr v.keyBytes) ∧
    (∀ j, v.rounds < j → roundKey t.rk j = 0) ∧
    t.variant = v ∧ t.keyValid = true ∧
    t.mem = s.mem ∧ t.cfg = s.cfg ∧ t.port = none ∧ Answers t .ok ∧
    t.bus = [⟨.read, addr, v.keyBytes⟩]

/-- What a block command on `n` blocks that responds `OK` leaves (45_facade.md R252): every block replaced by its
image, every byte outside the buffer as before, the context and the configuration as before. -/
def BlocksDone (dir : Direction) (addr n : Nat) (s t : State) : Prop :=
  (∀ m < n, t.mem.readBlock (blockAddr addr m) =
      blockFunction dir s.rk s.variant.rounds (s.mem.readBlock (blockAddr addr m))) ∧
    (∀ a, a < addr ∨ blockAddr addr n ≤ a → t.mem.read a = s.mem.read a) ∧
    SameContext s t ∧ t.cfg = s.cfg ∧ t.port = none ∧ Answers t .ok

/-- The descriptors that 30_encoding.md R72 lists as illegal, by their bits. -/
def IllegalDescriptor (d : BitVec 128) : Prop :=
  let op := (d.extractLsb' 0 4).toNat
  let variant := (d.extractLsb' 4 2).toNat
  let rsv := (d.extractLsb' 6 26).toNat
  let len := (d.extractLsb' 32 32).toNat
  rsv ≠ 0 ∨ (op = 0 ∨ 6 ≤ op) ∨ (op = 1 ∧ variant = 3) ∨ (2 ≤ op ∧ op ≤ 5 ∧ variant ≠ 0) ∨
    ((op = 2 ∨ op = 3) ∧ len ≠ 0)

/-- The two states agree on the public values of 70_reset_and_hazards.md R320 that are not operands:
the configuration, `KEY_VALID` and the stored `VARIANT`. Keys, round keys and memory are free to differ. -/
def SamePublic (s t : State) : Prop := s.cfg = t.cfg ∧ s.keyValid = t.keyValid ∧ s.variant = t.variant

/-- The two states have the same context and the same memory, and their instances have the same `mem_admit`; the
engines, `PIPE` and `FILLER` are free to differ (00_scope.md R9). -/
def SameButEngine (s t : State) : Prop :=
  SameContext s t ∧ s.mem = t.mem ∧ s.cfg.refusedBuffers = t.cfg.refusedBuffers

/-- The internal steps of one block through the round unit: 11, 13 or 15 operations (44_accelerated_engine.md
R218, R219). -/
def oneBlockOps (dir : Direction) (nr : Nat) : List UnitOp :=
  match dir with
  | .enc => roundUnitOps .ark ++ (List.replicate (nr - 1) (roundUnitOps .enc)).flatten ++ roundUnitOps .encLast
  | .dec => roundUnitOps .ark ++ (List.replicate (nr - 1) (roundUnitOps .dec)).flatten ++ roundUnitOps .decLast

/-- The engine requests among the internal steps. -/
def requestsOf (ops : List UnitOp) : List (BitVec 5) :=
  ops.filterMap fun op => match op with
    | .request w => some w
    | .expand _ => none
    | .round _ => none
    | .romReads _ _ => none
    | .circuit _ => none

/-- The instructions one after the other, up to the first that gives no next state. -/
def runAll : List Instr → State → Host.Outcome State Fault Refusal
  | [], s => .next s
  | i :: rest, s =>
    match exec i s with
    | .next t => runAll rest t
    | .fault r => .fault r
    | .refused r => .refused r

/-- The invariant of the machine: memory has its canonical form; a valid context holds the schedule of some key of
the variant's size (10_state.md R22); a context that is not valid is as reset left it (R33); a response is one of
the five words (30_encoding.md R65). -/
def Inv (s : State) : Prop :=
  s.mem.wf = true ∧
    (s.keyValid = true →
      ∃ key : List Byte, key.length = s.variant.keyBytes ∧ s.rk = keySchedule s.variant key) ∧
    (s.keyValid = false → s.variant = .aes128 ∧ s.rk = Vector.replicate 15 0) ∧
    (∀ r, s.response = some r → ∃ c : Code, r = c.word)

end Sys2Proof.Machine
end

