-- ==== Sys2Proof/Certificates/Slice0/Obligations.lean ====
section
/-! DEFINITION. The statements for the provers. -/

open Sys2Proof Sys2Proof.Machine

/-! ### Encoding -/

/-- Every well-formed instruction decodes from its own word (30_encoding.md R61, R66 to R70). -/
def Obligations.DecodeOfEncode : Prop :=
  ∀ i : Instr, i.wellFormed = true → decode (encode i) = .ok i

/-- Every word that decodes is the word of the instruction it decodes to, which is well-formed: no bit of a legal
word is ignored (30_encoding.md R66, R67, R74). -/
def Obligations.EncodeOfDecode : Prop :=
  ∀ (r : Request) (i : Instr), decode r = .ok i → i.wellFormed = true ∧ encode i = r

/-- 30_encoding.md R72: a descriptor is illegal in the five cases and in no other; it is then answered with
`IllegalCommand` and nothing else is done, and no legal descriptor is so answered. -/
def Obligations.IllegalDescriptorsExactly : Prop :=
  ∀ (s : State) (d : BitVec 128), s.port = some (.cmd d) →
    ((∃ c, decode (.cmd d) = .error (.illegal c)) ↔ IllegalDescriptor d) ∧
    (IllegalDescriptor d → ∃ t, step s = .next t ∧ AnsweredOnly .illegalCommand s t) ∧
    (¬IllegalDescriptor d → ∃ t, step s = .next t ∧ ¬Answers t .illegalCommand)

/-- Words written out from the bit tables of 30_encoding.md decode to the instructions they stand for
(96_test_vectors_families.md V17). -/
def Obligations.SampleWordsDecode : Prop :=
  decode (.cmd 0x00000000000010000000001000000001) = .ok (.keysetup128 0x1000 16) ∧
  decode (.cmd 0x00000000000010000000001800000011) = .ok (.keysetup192 0x1000 24) ∧
  decode (.cmd 0x00000000000010000000002000000021) = .ok (.keysetup256 0x1000 32) ∧
  decode (.cmd 0x00000000000020000000000000000002) = .ok (.encb 0x2000) ∧
  decode (.cmd 0x0000000000000000ffffffff00000005) = .ok (.decbs 0 4294967295) ∧
  decode (.ereq 0b10100) = .ok .aEncN ∧
  decode (.rsel 0b011) = .ok .rndDec ∧
  decode (.srom 0x1ed) = .ok (.sboxInv 0xed)

/-- A step runs the instruction that the waiting word decodes to, and with no word waiting it changes nothing
(00_scope.md R17; 45_facade.md R242; 60_exceptions.md R303). The instruction's own meaning takes the word off the
port, so the step adds nothing around it. That a step without a word stutters is the model's choice (log 9). -/
def Obligations.StepRunsDecodedInstr : Prop :=
  (∀ (s : State) (r : Request) (i : Instr), s.port = some r → decode r = .ok i → step s = exec i s) ∧
  (∀ s : State, s.port = none → step s = .next s)

/-- Reserved words of the internal formats are refused (30_encoding.md R73; 93_implementation_defined.md U5). -/
def Obligations.ReservedInternalWordsRefused : Prop :=
  (∀ (s : State) (w : BitVec 5), s.port = some (.ereq w) →
    (step s = .refused .reservedEngineRequest ↔
      w ∉ [0b00010, 0b00011, 0b00100, 0b00101, 0b10010, 0b10011, 0b10100, 0b10101])) ∧
  (∀ (s : State) (w : BitVec 3), s.port = some (.rsel w) →
    (step s = .refused .reservedRoundSelect ↔ 5 ≤ w.toNat))

/-- The response words (30_encoding.md R65): `CODE` in bits 3:0, the other bits zero, and different codes have
different words. -/
def Obligations.ResponseWords : Prop :=
  (Code.ok.word = 0x00000000 ∧ Code.invalidKeyLength.word = 0x00000001 ∧ Code.illegalCommand.word = 0x00000002 ∧
    Code.noKey.word = 0x00000003 ∧ Code.bufferFault.word = 0x00000004) ∧
  (∀ c c' : Code, c.word = c'.word → c = c')

/-! ### Key setup -/

/-- KEYSETUP.128, KEYSETUP.192 and KEYSETUP.256 with the right key length and an admitted buffer complete, and
leave the schedule of the key in the context (45_facade.md R244 to R246), on either engine. That the one read of the
key is one entry of the record is the model's choice (log 13). -/
def Obligations.KeysetupKeysTheContext : Prop :=
  ∀ (s : State) (addr : Nat),
    (s.cfg.admitsKey addr 16 = true →
      ∃ t, exec (.keysetup128 addr 16) s = .next t ∧ KeyedBy .aes128 addr s t) ∧
    (s.cfg.admitsKey addr 24 = true →
      ∃ t, exec (.keysetup192 addr 24) s = .next t ∧ KeyedBy .aes192 addr s t) ∧
    (s.cfg.admitsKey addr 32 = true →
      ∃ t, exec (.keysetup256 addr 32) s = .next t ∧ KeyedBy .aes256 addr s t)

/-- 60_exceptions.md R282: a KEYSETUP is answered with `InvalidKeyLength` exactly when its length is not the
variant's key size, whatever its buffer, and then does nothing else; no other command is so answered. -/
def Obligations.InvalidKeyLengthExactly : Prop :=
  (∀ (i : Instr) (v : Variant) (addr len : Nat) (s : State), IsKeysetup i v addr len → len ≠ v.keyBytes →
    ∃ t, exec i s = .next t ∧ AnsweredOnly .invalidKeyLength s t) ∧
  (∀ (i : Instr) (s t : State), exec i s = .next t → Answers t .invalidKeyLength →
    ∃ v addr len, IsKeysetup i v addr len ∧ len ≠ v.keyBytes)

/-! ### Faults -/

/-- 60_exceptions.md R283: a block command is answered with `NoKey` exactly when the context is not keyed, even
for no blocks and whatever its buffer, and then does nothing else; no other command is so answered. The context is
not keyed exactly when no KEYSETUP has responded `OK` since reset: reset clears it, and a step leaves it keyed
exactly when it was or the step is such a KEYSETUP. -/
def Obligations.NoKeyExactly : Prop :=
  (∀ (i : Instr) (addr n : Nat) (s : State), IsBlockCommand i addr n → s.keyValid = false →
    ∃ t, exec i s = .next t ∧ AnsweredOnly .noKey s t) ∧
  (∀ (i : Instr) (s t : State), exec i s = .next t → Answers t .noKey →
    s.keyValid = false ∧ ∃ addr n, IsBlockCommand i addr n) ∧
  (State.reset.keyValid = false ∧ ∀ s t : State, s.resetEvent = .next t → t.keyValid = false) ∧
  (∀ s t : State, step s = .next t →
    (t.keyValid = true ↔ s.keyValid = true ∨
      (Answers t .ok ∧ ∃ (r : Request) (i : Instr) (v : Variant) (addr len : Nat),
        s.port = some r ∧ decode r = .ok i ∧ IsKeysetup i v addr len)))

/-- 60_exceptions.md R284 with the order of R285: a command whose earlier check passes is answered with
`BufferFault` exactly when its buffer is not admitted, and then does nothing else; no other command is so
answered. A buffer is not admitted exactly when it has bytes and runs past `2^64` or is refused by `mem_admit`. -/
def Obligations.BufferFaultExactly : Prop :=
  (∀ (i : Instr) (v : Variant) (addr : Nat) (s : State), IsKeysetup i v addr v.keyBytes →
    s.cfg.admitsKey addr v.keyBytes = false → ∃ t, exec i s = .next t ∧ AnsweredOnly .bufferFault s t) ∧
  (∀ (i : Instr) (addr n : Nat) (s : State), IsBlockCommand i addr n → s.keyValid = true →
    s.cfg.admitsBlocks addr (16 * n) = false → ∃ t, exec i s = .next t ∧ AnsweredOnly .bufferFault s t) ∧
  (∀ (i : Instr) (s t : State), exec i s = .next t → Answers t .bufferFault →
    (∃ v addr, IsKeysetup i v addr v.keyBytes ∧ s.cfg.admitsKey addr v.keyBytes = false) ∨
    (∃ addr n, IsBlockCommand i addr n ∧ s.keyValid = true ∧ s.cfg.admitsBlocks addr (16 * n) = false)) ∧
  (∀ (c : Config) (addr n : Nat),
    (c.admitsKey addr n = false ↔ n ≠ 0 ∧ (2 ^ 64 < addr + n ∨ c.memAdmit addr n .read = false)) ∧
    (c.admitsBlocks addr n = false ↔
      n ≠ 0 ∧ (2 ^ 64 < addr + n ∨ c.memAdmit addr n .read = false ∨ c.memAdmit addr n .write = false)) ∧
    (c.refusedBuffers = [] → ∀ kind, c.memAdmit addr n kind = true))

/-- 20_memory.md R46: with no platform restriction a buffer is admitted exactly when it is empty or ends at or
before `2^64`; there is no alignment condition (R45). In general both also ask `mem_admit`, for reading, and for
block buffers for writing. -/
def Obligations.AdmissionRule : Prop :=
  ∀ (c : Config) (addr n : Nat),
    (c.admitsKey addr n = true ↔ n = 0 ∨ (addr + n ≤ 2 ^ 64 ∧ c.memAdmit addr n .read = true)) ∧
    (c.admitsBlocks addr n = true ↔
      n = 0 ∨ (addr + n ≤ 2 ^ 64 ∧ c.memAdmit addr n .read = true ∧ c.memAdmit addr n .write = true)) ∧
    (c.refusedBuffers = [] → ∀ kind, c.memAdmit addr n kind = true)

/-- The model's choice (log 3): holding `mem_admit` as a list of rules loses nothing; every predicate on the
buffers that a descriptor can name is one. -/
def Obligations.EveryAdmitPredicateHeld : Prop :=
  ∀ (c : Config) (admitted : Nat → Nat → AccessKind → Bool), ∃ rules : List AdmitRule,
    ∀ addr < 2 ^ 64, ∀ n < 2 ^ 36, ∀ kind,
      Config.memAdmit { c with refusedBuffers := rules } addr n kind = admitted addr n kind

/-- 60_exceptions.md R286: a fault changes nothing. Whatever descriptor is offered in whatever state, if the
answer is not `OK` then it is one of the other codes, the context and memory are as they were, no memory was
accessed and no unit took a step. -/
def Obligations.FaultChangesNothing : Prop :=
  ∀ (s t : State) (d : BitVec 128), s.port = some (.cmd d) → step s = .next t → ¬Answers t .ok →
    (∃ c : Code, c ≠ .ok ∧ Answers t c) ∧ SameContext s t ∧ t.mem = s.mem ∧ t.bus = [] ∧ t.unitOps = []

/-- Every descriptor is answered, in every state, with one of the five codes, and the port is free for the next
(60_exceptions.md R280, R289; 70_reset_and_hazards.md R314). -/
def Obligations.EveryDescriptorIsAnswered : Prop :=
  ∀ (s : State) (d : BitVec 128), s.port = some (.cmd d) →
    ∃ (t : State) (c : Code), step s = .next t ∧ Answers t c ∧ t.port = none

/-- Only a KEYSETUP that responds `OK` writes the context, and nothing clears `KEY_VALID` (10_state.md R23, R24;
45_facade.md R241, R247). -/
def Obligations.OnlyKeysetupWritesContext : Prop :=
  ∀ s t : State, step s = .next t →
    (SameContext s t ∨
      (t.keyValid = true ∧ Answers t .ok ∧
        ∃ (r : Request) (i : Instr) (v : Variant) (addr : Nat),
          s.port = some r ∧ decode r = .ok i ∧ IsKeysetup i v addr v.keyBytes)) ∧
    (s.keyValid = true → t.keyValid = true)

/-! ### Block commands -/

/-- 45_facade.md R252: with a keyed context and an admitted buffer a block command completes, every block of its
buffer is replaced by its image under `Cipher` or `InvCipher`, nothing else changes; for any number of blocks, none
included, for both engines and every `PIPE`. -/
def Obligations.BlockCommandsComplete : Prop :=
  ∀ (s : State) (addr : Nat), s.mem.wf = true → s.keyValid = true →
    (s.cfg.admitsBlocks addr 16 = true →
      (∃ t, exec (.encb addr) s = .next t ∧ BlocksDone .enc addr 1 s t) ∧
      (∃ t, exec (.decb addr) s = .next t ∧ BlocksDone .dec addr 1 s t)) ∧
    (∀ n : Nat, s.cfg.admitsBlocks addr (16 * n) = true →
      (∃ t, exec (.encbs addr n) s = .next t ∧ BlocksDone .enc addr n s t) ∧
      (∃ t, exec (.decbs addr n) s = .next t ∧ BlocksDone .dec addr n s t))

/-- 45_facade.md R255: ENCBS on `n` blocks leaves memory as `n` commands ENCB, one for each block, in any order;
likewise DECBS and DECB. -/
def Obligations.BatchEqualsSingleCommands : Prop :=
  ∀ (s : State) (addr n : Nat) (order : List Nat), s.mem.wf = true → s.keyValid = true →
    s.cfg.admitsBlocks addr (16 * n) = true → (∀ m < n, s.cfg.admitsBlocks (addr + 16 * m) 16 = true) →
    order.Perm (List.range n) →
    (∃ t u, exec (.encbs addr n) s = .next t ∧
      runAll (order.map fun m => .encb (addr + 16 * m)) s = .next u ∧ t.mem = u.mem ∧ SameContext t u) ∧
    (∃ t u, exec (.decbs addr n) s = .next t ∧
      runAll (order.map fun m => .decb (addr + 16 * m)) s = .next u ∧ t.mem = u.mem ∧ SameContext t u)

/-- 45_facade.md R256: a slice split in two commands gives the same memory. -/
def Obligations.SplitSliceGivesSameMemory : Prop :=
  ∀ (s : State) (addr n1 n2 : Nat), s.mem.wf = true → s.keyValid = true →
    s.cfg.admitsBlocks addr (16 * (n1 + n2)) = true → s.cfg.admitsBlocks addr (16 * n1) = true →
    s.cfg.admitsBlocks (addr + 16 * n1) (16 * n2) = true →
    (∃ t u, exec (.encbs addr (n1 + n2)) s = .next t ∧
      runAll [.encbs addr n1, .encbs (addr + 16 * n1) n2] s = .next u ∧ t.mem = u.mem ∧ SameContext t u) ∧
    (∃ t u, exec (.decbs addr (n1 + n2)) s = .next t ∧
      runAll [.decbs addr n1, .decbs (addr + 16 * n1) n2] s = .next u ∧ t.mem = u.mem ∧ SameContext t u)

/-- 45_facade.md R257: encrypting and then decrypting restores memory, and so does decrypting and then
encrypting, for one block and for many. -/
def Obligations.RoundTripRestoresMemory : Prop :=
  ∀ (s : State) (addr n : Nat), s.mem.wf = true → s.keyValid = true →
    (s.cfg.admitsBlocks addr 16 = true →
      (∃ t, runAll [.encb addr, .decb addr] s = .next t ∧ t.mem = s.mem ∧ SameContext s t) ∧
      (∃ t, runAll [.decb addr, .encb addr] s = .next t ∧ t.mem = s.mem ∧ SameContext s t)) ∧
    (s.cfg.admitsBlocks addr (16 * n) = true →
      (∃ t, runAll [.encbs addr n, .decbs addr n] s = .next t ∧ t.mem = s.mem ∧ SameContext s t) ∧
      (∃ t, runAll [.decbs addr n, .encbs addr n] s = .next t ∧ t.mem = s.mem ∧ SameContext s t))

/-- 20_memory.md R41 and R48 with 45_facade.md R248, R249, R253 and R254: an ENCB or DECB that responds `OK` reads its
block once and then writes it once, and an ENCBS or DECBS that responds `OK` reads every block
of its buffer once and writes every block once, in increasing order, chunk by chunk (or group by group), all reads
of a chunk before its writes. The record, one entry a block, is the model's choice (log 13). -/
def Obligations.BlockAccessesInOrder : Prop :=
  (∀ (s t : State) (addr : Nat) (i : Instr), i = .encb addr ∨ i = .decb addr →
    exec i s = .next t → Answers t .ok → t.bus = [⟨.read, addr, 16⟩, ⟨.write, addr, 16⟩]) ∧
  ∀ (s t : State) (addr n : Nat) (i : Instr), i = .encbs addr n ∨ i = .decbs addr n →
    exec i s = .next t → Answers t .ok →
    t.bus = (groups (groupSize s.cfg) n).flatMap (fun g =>
      ((List.range g.2).map fun k => ⟨.read, addr + 16 * (g.1 + k), 16⟩) ++
        (List.range g.2).map fun k => ⟨.write, addr + 16 * (g.1 + k), 16⟩) ∧
    (t.bus.filter fun a => a.kind = .read) = (List.range n).map (fun m => ⟨.read, addr + 16 * m, 16⟩) ∧
    (t.bus.filter fun a => a.kind = .write) = (List.range n).map (fun m => ⟨.write, addr + 16 * m, 16⟩)

/-- 45_facade.md R248, R249, R253, R254: the number and kind of the engine requests of a block command that responds
`OK`: one request by ENCB and DECB; by ENCBS and DECBS
`ceil(N / 8)` requests to the Portable engine, `ceil(N / PIPE)` to the Accelerated one. The record of the requests is
the model's choice (log 13). -/
def Obligations.EngineRequestCount : Prop :=
  ∀ (s t : State) (addr n : Nat),
    (exec (.encb addr) s = .next t → Answers t .ok →
      requestsOf t.unitOps = match s.cfg.engine with
        | .portable => [0b00010]
        | .accel => [0b10010]) ∧
    (exec (.decb addr) s = .next t → Answers t .ok →
      requestsOf t.unitOps = match s.cfg.engine with
        | .portable => [0b00011]
        | .accel => [0b10011]) ∧
    (exec (.encbs addr n) s = .next t → Answers t .ok →
      requestsOf t.unitOps = match s.cfg.engine with
        | .portable => List.replicate ((n + 7) / 8) 0b00100
        | .accel => List.replicate ((n + s.cfg.pipeExtra) / (s.cfg.pipeExtra + 1)) 0b10100) ∧
    (exec (.decbs addr n) s = .next t → Answers t .ok →
      requestsOf t.unitOps = match s.cfg.engine with
        | .portable => List.replicate ((n + 7) / 8) 0b00101
        | .accel => List.replicate ((n + s.cfg.pipeExtra) / (s.cfg.pipeExtra + 1)) 0b10101)

/-! ### Whole-machine rules -/

/-- 00_scope.md R9: two instances that differ in engine, `PIPE` and `FILLER` give every command the same response,
the same next context and the same memory, so that they stay so over any sequence of commands. -/
def Obligations.EnginesBehaveIdentically : Prop :=
  ∀ (i : Instr) (s s' : State), isCommand i = true → s.mem.wf = true → SameButEngine s s' →
    ∃ t t', exec i s = .next t ∧ exec i s' = .next t' ∧
      t.response = t'.response ∧ SameButEngine t t' ∧ t.mem.wf = true

/-- 70_reset_and_hazards.md R320, points 1 to 3: the response, the memory accesses and the internal steps of a
command are functions of public values, and so are the public values after it; keys, round keys and data do not reach
them. The S-box is the circuit on the Portable engine, never the ROM, and the ROM on the Accelerated one (41_sbox.md
R130; 43_portable_engine.md R199; 40_key_schedule.md R101). The records of accesses and steps are the model's choice
(log 13). -/
def Obligations.SecretsDoNotReachTheTrace : Prop :=
  ∀ (i : Instr) (s s' : State), isCommand i = true → SamePublic s s' →
    ∃ t t', exec i s = .next t ∧ exec i s' = .next t' ∧
      t.response = t'.response ∧ t.bus = t'.bus ∧ t.unitOps = t'.unitOps ∧ SamePublic t t' ∧
      (s.cfg.engine = .portable → ∀ inverse n, UnitOp.romReads inverse n ∉ t.unitOps) ∧
      (s.cfg.engine = .accel → ∀ inverse, UnitOp.circuit inverse ∉ t.unitOps)

/-- The invariant is kept by every step, of commands and of internal requests alike (10_state.md R22, R24, R33;
30_encoding.md R65). -/
def Obligations.StepKeepsInvariant : Prop :=
  ∀ s t : State, Inv s → step s = .next t → Inv t

/-- The invariant holds at reset. -/
def Obligations.ResetMeetsInvariant : Prop := Inv State.reset

/-- The host's own actions keep the invariant: issuing a descriptor, writing a byte of memory, and the reset event
(30_encoding.md R60; 20_memory.md R54; 70_reset_and_hazards.md R310). -/
def Obligations.HostActionsKeepInvariant : Prop :=
  ∀ s t : State, Inv s →
    (∀ d, s.issue d = .next t → Inv t) ∧ (∀ addr v, s.hostWrite addr v = .next t → Inv t) ∧
      (s.resetEvent = .next t → Inv t)

/-- 20_memory.md R54, 70_reset_and_hazards.md R315 and R316: while a command waits for its response the host neither
reads nor writes a byte of a block buffer it names and does not write its key buffer; it may read the key buffer. That a
breach is a refusal, of the two ways R54 leaves, is the model's choice (log 22). -/
def Obligations.OwnedBufferIsKeptOff : Prop :=
  ∀ (s : State) (r : Request) (i : Instr) (a : Nat) (v : Byte), s.port = some r → decode r = .ok i → a < 2 ^ 64 →
    (∀ addr n, IsBlockCommand i addr n → addr ≤ a → a < addr + 16 * n →
      s.hostWrite a v = .refused .bufferOwned ∧ s.hostRead a = .refused .bufferOwned) ∧
    (∀ variant addr len, IsKeysetup i variant addr len → addr ≤ a → a < addr + len →
      s.hostWrite a v = .refused .bufferOwned ∧ s.hostRead a = .next (s.mem.read a))

/-- 20_memory.md R54 and R55: every byte that no waiting command's buffer holds is the host's. A write there sets that
byte and changes nothing else, and a read gives what was written last, by the host or by the core. -/
def Obligations.HostAccessesOwnMemory : Prop :=
  ∀ (s : State) (a : Nat) (v : Byte), s.mem.wf = true → a < 2 ^ 64 →
    (∀ r i, s.port = some r → decode r = .ok i →
      (∀ addr n, IsBlockCommand i addr n → a < addr ∨ addr + 16 * n ≤ a) ∧
      (∀ variant addr len, IsKeysetup i variant addr len → a < addr ∨ addr + len ≤ a)) →
    s.hostRead a = .next (s.mem.read a) ∧
    ∃ t, s.hostWrite a v = .next t ∧ t = { s with mem := t.mem } ∧
      ∀ x, t.mem.read x = if x = a then v else s.mem.read x

/-- 60_exceptions.md R299, R300 and 30_encoding.md R60: the port takes one descriptor at a time. An offer to an empty
port is taken and changes the port only; after the step that answers it the port takes the next. That an offer to an
occupied port is refused and leaves the waiting word to be answered is the model's choice (log 22), and that an offer
taken clears the old response (log 19). -/
def Obligations.PortTakesOneAtATime : Prop :=
  ∀ (s : State) (d d' : BitVec 128),
    (s.port = none →
      ∃ t u w, s.issue d = .next t ∧ t = { s with port := some (.cmd d), response := none } ∧
        t.issue d' = .refused .portOccupied ∧
        step t = .next u ∧ (∃ c, Answers u c) ∧ u.issue d' = .next w ∧ w.port = some (.cmd d')) ∧
    (∀ r, s.port = some r → s.issue d = .refused .portOccupied)

/-- 10_state.md R33 and 70_reset_and_hazards.md R310, R311: the reset event takes place when no command is in progress,
what it leaves, and what the state after reset holds. -/
def Obligations.ResetValues : Prop :=
  (∀ s : State, s.port = none →
    ∃ t, s.resetEvent = .next t ∧ t.keyValid = false ∧ t.variant = .aes128 ∧ (∀ j < 15, roundKey t.rk j = 0) ∧
      t.cfg = s.cfg ∧ t.mem = s.mem ∧ t.port = none ∧ t.response = none) ∧
  (State.reset.keyValid = false ∧ State.reset.variant = .aes128 ∧ (∀ j < 15, roundKey State.reset.rk j = 0) ∧
    State.reset.port = none ∧ State.reset.response = none)

/-- No step changes the configuration (10_state.md R26). -/
def Obligations.ConfigurationNeverChanges : Prop :=
  ∀ s t : State, step s = .next t → t.cfg = s.cfg

/-! ### The internal units -/

/-- 44_accelerated_engine.md R212 to R216: in an instance with the round unit each of its operations completes,
replaces `S` by the stated function of `S` and `K`, and changes nothing else but the port and the records (the model's
choice, logs 9 and 13). -/
def Obligations.RoundUnitOperations : Prop :=
  ∀ s : State, s.cfg.targetHasRoundUnit = true →
    exec .rndArk s = .next { s.accept with
      unitS := addRoundKey s.unitS s.unitK
      unitOps := [.round .ark] } ∧
    exec .rndEnc s = .next { s.accept with
      unitS := addRoundKey (mixColumns (shiftRows (subBytes s.unitS))) s.unitK
      unitOps := [.round .enc, .romReads false 16] } ∧
    exec .rndEncLast s = .next { s.accept with
      unitS := addRoundKey (shiftRows (subBytes s.unitS)) s.unitK
      unitOps := [.round .encLast, .romReads false 16] } ∧
    exec .rndDec s = .next { s.accept with
      unitS := invMixColumns (addRoundKey (invSubBytes (invShiftRows s.unitS)) s.unitK)
      unitOps := [.round .dec, .romReads true 16] } ∧
    exec .rndDecLast s = .next { s.accept with
      unitS := addRoundKey (invSubBytes (invShiftRows s.unitS)) s.unitK
      unitOps := [.round .decLast, .romReads true 16] }

/-- The model's choice (log 11), after 93_implementation_defined.md U5: a unit that the instance does not have, or
does not use, gives no result. -/
def Obligations.AbsentUnitsRefuse : Prop :=
  (∀ s : State, s.cfg.targetHasRoundUnit = false → ∀ i ∈ [Instr.rndArk, .rndEnc, .rndEncLast, .rndDec, .rndDecLast],
    exec i s = .refused .roundUnitAbsent) ∧
  (∀ s : State, s.cfg.engine = .accel → ∀ i ∈ [Instr.pEnc1, .pDec1, .pEnc8, .pDec8],
    exec i s = .refused .engineNotSelected) ∧
  (∀ s : State, s.cfg.engine = .portable → ∀ i ∈ [Instr.aEnc1, .aDec1, .aEncN, .aDecN],
    exec i s = .refused .engineNotSelected)

/-- 41_sbox.md R124: the two ROM reads complete in every state, give the table's byte, and change nothing else but
the port and the records. That every instance has the ROM, and the register that takes the byte, are the model's choice
(log 7). -/
def Obligations.RomReadsGiveTheTables : Prop :=
  ∀ (x : Byte) (s : State),
    exec (.sboxFwd x) s = .next { s.accept with romOut := sbox x, unitOps := [.romReads false 1] } ∧
    exec (.sboxInv x) s = .next { s.accept with romOut := invSbox x, unitOps := [.romReads true 1] }

/-- 43_portable_engine.md R198: for any 16-byte values as round keys and every variant, the operations of the Portable
engine compute the reference cipher in every lane, and of a single block whatever the filler. -/
def Obligations.PortableEngineComputesCipher : Prop :=
  ∀ (rk : RoundKeys) (v : Variant),
    (∀ (X : Oct Block) (k : Nat), k < 8 →
      (pEnc8 rk v.rounds X).val.get k = cipher rk v.rounds (X.get k) ∧
      (pDec8 rk v.rounds X).val.get k = invCipher rk v.rounds (X.get k)) ∧
    (∀ filler b : Block,
      (portableOne .enc rk v.rounds filler b).val = cipher rk v.rounds b ∧
      (portableOne .dec rk v.rounds filler b).val = invCipher rk v.rounds b)

/-- 44_accelerated_engine.md R223: for any 16-byte values as round keys and every variant, the operations of the
Accelerated engine compute the reference cipher. -/
def Obligations.AcceleratedEngineComputesCipher : Prop :=
  ∀ (rk : RoundKeys) (v : Variant) (b : Block),
    (accelOne .enc rk v.rounds b).val = cipher rk v.rounds b ∧
    (accelOne .dec rk v.rounds b).val = invCipher rk v.rounds b

/-- The requests of the Portable engine (43_portable_engine.md R194 to R198): P.ENC8, P.DEC8, P.ENC1 and P.DEC1
complete when the Portable engine is selected, for any 16-byte values in `RK` and every variant; every lane is the
reference cipher of its block, and so is a single block whatever the filler; one circuit evaluation a round; nothing else changes but the
port and the records. That the request runs on an unkeyed context too (log 18), that it leaves the other
units' ports as they were (log 5), the registers of the request (log 6) and the record of steps (log 13) are the model's
choice. -/
def Obligations.PortableRequests : Prop :=
  ∀ s : State, s.cfg.engine = .portable →
    exec .pEnc8 s = .next { s.accept with
      reqBatch := s.reqBatch.map (cipher s.rk s.variant.rounds)
      unitOps := List.replicate s.variant.rounds (.circuit false) } ∧
    exec .pDec8 s = .next { s.accept with
      reqBatch := s.reqBatch.map (invCipher s.rk s.variant.rounds)
      unitOps := List.replicate s.variant.rounds (.circuit true) } ∧
    exec .pEnc1 s = .next { s.accept with
      reqBlock := cipher s.rk s.variant.rounds s.reqBlock
      unitOps := List.replicate s.variant.rounds (.circuit false) } ∧
    exec .pDec1 s = .next { s.accept with
      reqBlock := invCipher s.rk s.variant.rounds s.reqBlock
      unitOps := List.replicate s.variant.rounds (.circuit true) }

/-- 44_accelerated_engine.md R218, R219, R223: A.ENC1 and A.DEC1 complete when the Accelerated engine is selected and
give the reference cipher of the block, left in `S` too, by one `RND.ARK`, `Nr - 1` full rounds and a last one;
nothing else changes but the port, the records, and `K`, of which nothing is said. That the request runs on an
unkeyed context too (log 18), the registers of the request and of the unit (logs 5 and 6) and the record of steps
(log 13) are the model's choice. -/
def Obligations.AcceleratedOneBlockRequests : Prop :=
  ∀ s : State, s.cfg.engine = .accel →
    (∃ k n, exec .aEnc1 s = .next { s.accept with
      reqBlock := cipher s.rk s.variant.rounds s.reqBlock
      unitS := cipher s.rk s.variant.rounds s.reqBlock
      unitK := k
      unitOps := oneBlockOps .enc s.variant.rounds
      freeCount := n }) ∧
    (∃ k n, exec .aDec1 s = .next { s.accept with
      reqBlock := invCipher s.rk s.variant.rounds s.reqBlock
      unitS := invCipher s.rk s.variant.rounds s.reqBlock
      unitK := k
      unitOps := oneBlockOps .dec s.variant.rounds
      freeCount := n })

/-- 44_accelerated_engine.md R220 to R223: A.ENCN and A.DECN complete when the Accelerated engine is selected, for any
number of blocks and every `PIPE`, and give the reference cipher of each block; with no block no step is taken;
nothing else changes but the port, the records, and `S` and `K`, of which nothing is said. That the request runs on an
unkeyed context too (log 18), the registers of the request and of the unit (logs 5 and 6) and the record of steps
(log 13) are the model's choice. -/
def Obligations.AcceleratedManyBlockRequests : Prop :=
  ∀ s : State, s.cfg.engine = .accel →
    (∃ S k n ops, exec .aEncN s = .next { s.accept with
        reqBlocks := s.reqBlocks.map (cipher s.rk s.variant.rounds)
        unitS := S
        unitK := k
        unitOps := ops
        freeCount := n } ∧ (s.reqBlocks = [] → ops = [])) ∧
    (∃ S k n ops, exec .aDecN s = .next { s.accept with
        reqBlocks := s.reqBlocks.map (invCipher s.rk s.variant.rounds)
        unitS := S
        unitK := k
        unitOps := ops
        freeCount := n } ∧ (s.reqBlocks = [] → ops = []))

/-! ### The field, the S-box, the cipher -/

/-- 41_sbox.md R114: the laws of multiplication in GF(2^8): a commutative, associative multiplication that distributes
over `xor`, with identity and absorbing element; the 255 non-zero bytes are a cyclic group under it, with
`a^255 = 0x01`; squaring is linear. -/
def Obligations.FieldLaws : Prop :=
  (∀ a b c : Byte,
    gmul a b = gmul b a ∧ gmul (gmul a b) c = gmul a (gmul b c) ∧
    gmul a (b ^^^ c) = gmul a b ^^^ gmul a c ∧
    gmul a 0x01 = a ∧ gmul a 0x00 = 0x00 ∧
    gmul (a ^^^ b) (a ^^^ b) = gmul a a ^^^ gmul b b) ∧
  (∀ a b : Byte, a ≠ 0x00 → b ≠ 0x00 → gmul a b ≠ 0x00) ∧
  (∀ a : Byte, a ≠ 0x00 → (List.replicate 255 a).foldl gmul 0x01 = 0x01) ∧
  (∃ g : Byte, ∀ a : Byte, a ≠ 0x00 → ∃ n < 255, (List.replicate n g).foldl gmul 0x01 = a)

/-- 41_sbox.md R115: `ginv` is the multiplicative inverse, the only one, `ginv(0) = 0`, and `ginv(a)` is
`a^254` for every byte. -/
def Obligations.FieldInverse : Prop :=
  ginv 0x00 = 0x00 ∧ (∀ a : Byte, a ≠ 0x00 → ∀ b : Byte, gmul a b = 0x01 ↔ b = ginv a) ∧
  (∀ a : Byte, ginv a = (List.replicate 254 a).foldl gmul 0x01)

/-- 41_sbox.md R118, R121: the tables are the inverse and affine maps they are said to be. -/
def Obligations.TablesFromTheField : Prop :=
  ∀ x : Byte, sbox x = aff (ginv x) ∧ invSbox x = ginv (invAff x)

/-- 41_sbox.md R122: both tables are bijections, inverse to each other, with no fixed point and no opposite fixed
point, and neither is affine (or linear) over `xor`. -/
def Obligations.TablesAreBijections : Prop :=
  (∀ x : Byte, invSbox (sbox x) = x ∧ sbox (invSbox x) = x ∧
    sbox x ≠ x ∧ sbox x ≠ ~~~x ∧ invSbox x ≠ x ∧ invSbox x ≠ ~~~x) ∧
  (∃ x y : Byte, sbox (x ^^^ y) ^^^ sbox 0 ≠ sbox x ^^^ sbox y) ∧
  (∃ x y : Byte, invSbox (x ^^^ y) ^^^ invSbox 0 ≠ invSbox x ^^^ invSbox y)

/-- 41_sbox.md R128: the circuits compute the tables, at every width and every bit position, and bit position `q` of
the output depends on bit position `q` of the input only. -/
def Obligations.CircuitsComputeTheTables : Prop :=
  ∀ (W : Nat) (X : Oct (BitVec W)) (q i : Nat), q < W → i < 8 →
    ((sboxCirc X).get i).getLsbD q = (sbox (byteOfBits fun j => (X.get j).getLsbD q)).getLsbD i ∧
    ((invSboxCirc X).get i).getLsbD q = (invSbox (byteOfBits fun j => (X.get j).getLsbD q)).getLsbD i

/-- 43_portable_engine.md R188: each operation on planes lifts its reference operation on blocks. -/
def Obligations.PlaneOperationsLift : Prop :=
  ∀ (X : Oct Block) (k : Block),
    bsUnpack (bsSubBytes (bsPack X)) = X.map subBytes ∧
    bsUnpack (bsInvSubBytes (bsPack X)) = X.map invSubBytes ∧
    bsUnpack (bsShiftRows (bsPack X)) = X.map shiftRows ∧
    bsUnpack (bsInvShiftRows (bsPack X)) = X.map invShiftRows ∧
    bsUnpack (bsMixColumns (bsPack X)) = X.map mixColumns ∧
    bsUnpack (bsInvMixColumns (bsPack X)) = X.map invMixColumns ∧
    bsUnpack (bsAddRoundKey (bsPack X) (bsKey k)) = X.map fun b => addRoundKey b k

/-- 43_portable_engine.md R173 with R171: which bit goes where, and that packing and unpacking undo each other. -/
def Obligations.PackAndUnpackInverse : Prop :=
  ∀ X : Oct Block,
    (∀ k < 8, ∀ p < 16, ∀ j < 8,
      ((bsPack X).get j).getLsbD (8 * p + k) = (byteAt (X.get k) p).getLsbD j ∧
      (byteAt ((bsUnpack X).get k) p).getLsbD j = (X.get j).getLsbD (8 * p + k)) ∧
    bsUnpack (bsPack X) = X ∧ bsPack (bsUnpack X) = X

/-- 43_portable_engine.md R190 for P.ENC8 and P.DEC8: a lane's result depends on that lane and the schedule only. -/
def Obligations.LanesAreIndependent : Prop :=
  ∀ (rk : RoundKeys) (v : Variant) (X Y : Oct Block) (k : Nat), k < 8 → X.get k = Y.get k →
    (pEnc8 rk v.rounds X).val.get k = (pEnc8 rk v.rounds Y).val.get k ∧
    (pDec8 rk v.rounds X).val.get k = (pDec8 rk v.rounds Y).val.get k

/-- 42_reference_cipher.md R142, R144, R146, R150: the inverse transformations undo the transformations. -/
def Obligations.TransformationsInvert : Prop :=
  ∀ b k : Block,
    invSubBytes (subBytes b) = b ∧ invShiftRows (shiftRows b) = b ∧ invMixColumns (mixColumns b) = b ∧
    mixColumns (invMixColumns b) = b ∧ addRoundKey (addRoundKey b k) k = b

/-- 42_reference_cipher.md R151: `InvMixColumns` is `MixColumns` after the circulant `[05 00 04 00]`. -/
def Obligations.InvMixColumnsDecomposition : Prop :=
  ∀ b : Block,
    invMixColumns b =
      mixColumns (blockOf fun i => byteAt b i ^^^ xtime (xtime (byteAt b i ^^^ columnByte b i (i % 4 + 2))))

/-- 42_reference_cipher.md R154: `Cipher` and `InvCipher` undo each other, for every variant and for any 16-byte
values as round keys. -/
def Obligations.CipherIsABijection : Prop :=
  ∀ (rk : RoundKeys) (v : Variant) (b : Block),
    invCipher rk v.rounds (cipher rk v.rounds b) = b ∧ cipher rk v.rounds (invCipher rk v.rounds b) = b

/-- The source's known answer (95_test_vectors.md V1), with the ciphertexts of the other two variants (V6), and the
blocks back by `InvCipher` (V7). Numbers are in the packing of 00_scope.md R14, last byte first. -/
def Obligations.KnownAnswers : Prop :=
  let key : Nat → List Byte := fun n => (List.range n).map fun i => BitVec.ofNat 8 i
  let plain : Block := 0xffeeddccbbaa99887766554433221100
  (cipher (keySchedule .aes128 (key 16)) 10 plain = 0x5ac5b47080b7cdd830047b6ad8e0c469 ∧
    cipher (keySchedule .aes192 (key 24)) 12 plain = 0x91710deca070af6ee0df4c86a47ca9dd ∧
    cipher (keySchedule .aes256 (key 32)) 14 plain = 0x8960494b9049fceabf456751cab7a28e) ∧
  (invCipher (keySchedule .aes128 (key 16)) 10 0x5ac5b47080b7cdd830047b6ad8e0c469 = plain ∧
    invCipher (keySchedule .aes192 (key 24)) 12 0x91710deca070af6ee0df4c86a47ca9dd = plain ∧
    invCipher (keySchedule .aes256 (key 32)) 14 0x8960494b9049fceabf456751cab7a28e = plain)

/-! ### The key schedule -/

/-- 40_key_schedule.md R94 and R96: the schedule has `4(Nr+1)` words, the first `Nk` are the key, and the others
follow by the recurrence. -/
def Obligations.ScheduleRecurrence : Prop :=
  ∀ (v : Variant) (key : List Byte),
    let w := (scheduleWords (fun x => ⟨subWord x, []⟩) v key).val
    let nk := v.keyWords
    w.length = 4 * (v.rounds + 1) ∧
    (∀ i < nk, w.getD i 0 =
      wordOf (key.getD (4 * i) 0) (key.getD (4 * i + 1) 0) (key.getD (4 * i + 2) 0) (key.getD (4 * i + 3) 0)) ∧
    (∀ i, nk ≤ i → i < 4 * (v.rounds + 1) →
      w.getD i 0 = w.getD (i - nk) 0 ^^^
        (if i % nk = 0 then subWord (rotWord (w.getD (i - 1) 0)) ^^^ rcon (i / nk)
        else if nk = 8 ∧ i % nk = 4 then subWord (w.getD (i - 1) 0)
        else w.getD (i - 1) 0))

/-- 40_key_schedule.md R97: `RK[j][4c + r] = w[4j + c][r]` up to `Nr`, and the registers above `Nr` are zero
(10_state.md R22). -/
def Obligations.RoundKeysFromWords : Prop :=
  ∀ (v : Variant) (key : List Byte) (j : Nat), j < 15 →
    (j ≤ v.rounds → ∀ c < 4, ∀ r < 4,
      byteAt (roundKey (keySchedule v key) j) (4 * c + r) =
        byteAt ((scheduleWords (fun x => ⟨subWord x, []⟩) v key).val.getD (4 * j + c) 0) r) ∧
    (v.rounds < j → roundKey (keySchedule v key) j = 0)

/-- 40_key_schedule.md R94 and 10_state.md R25: the first `KB` bytes of `RK[0] ‖ RK[1]` are the key. -/
def Obligations.FirstRoundKeysAreTheKey : Prop :=
  ∀ (v : Variant) (key : List Byte), key.length = v.keyBytes → ∀ i < v.keyBytes,
    byteAt (roundKey (keySchedule v key) (i / 16)) (i % 16) = key.getD i 0

/-- 40_key_schedule.md R101, R102: the schedule is the same whichever substitution hardware computes it. -/
def Obligations.ScheduleIndependentOfEngine : Prop :=
  ∀ (e : Engine) (v : Variant) (key : List Byte), (expandKey (engineSubWord e) v key).val = keySchedule v key
end

