-- ==== Sys2Proof/Laws/Bytes.lean ====
section
/-! SUPPORT. Bytes of a block and the block of bytes; groups of eight. -/

namespace Sys2Proof.Machine

/-- The low byte of an append. -/
theorem append_byte_low {w : Nat} (x : BitVec w) (y : Byte) : (x ++ y).extractLsb' 0 8 = y := by
  apply BitVec.eq_of_getLsbD_eq
  intro i hi
  simp only [BitVec.getLsbD_extractLsb', BitVec.getLsbD_append]
  simp [hi]

/-- The bytes above the low one of an append. -/
theorem append_byte_high {w : Nat} (x : BitVec w) (y : Byte) (s : Nat) :
    (x ++ y).extractLsb' (s + 8) 8 = x.extractLsb' s 8 := by
  apply BitVec.eq_of_getLsbD_eq
  intro i hi
  simp only [BitVec.getLsbD_extractLsb', BitVec.getLsbD_append]
  rw [if_neg (by omega), show s + 8 + i - 8 = s + i by omega]

/-- Bit `i` of a byte made of bits. -/
theorem getLsbD_byteOfBits (g : Nat → Bool) {i : Nat} (h : i < 8) : (byteOfBits g).getLsbD i = g i := by
  unfold byteOfBits
  interval_cases i <;> simp only [BitVec.getLsbD_append, BitVec.getLsbD_ofBool] <;> rfl

/-- Byte `p` of a block made of bytes. -/
@[simp] theorem byteAt_blockOf (f : Nat → Byte) {p : Nat} (h : p < 16) : byteAt (blockOf f) p = f p := by
  unfold byteAt blockOf
  interval_cases p
  · exact append_byte_low _ _
  all_goals
    simp only [Nat.reduceMul]
    repeat first
      | exact append_byte_low _ _
      | exact BitVec.extractLsb'_eq_self
      | rw [append_byte_high _ _ (_)]

/-- Bit `i` of byte `p`. -/
theorem getLsbD_byteAt {w : Nat} (v : BitVec w) (p i : Nat) :
    (byteAt v p).getLsbD i = (decide (i < 8) && v.getLsbD (8 * p + i)) := by
  simp [byteAt]

/-- Two blocks with the same bytes are the same. -/
theorem block_ext {b c : Block} (h : ∀ p < 16, byteAt b p = byteAt c p) : b = c := by
  apply BitVec.eq_of_getLsbD_eq
  intro i hi
  have hp := congrArg (fun v : Byte => v.getLsbD (i % 8)) (h (i / 8) (by omega))
  simp only [getLsbD_byteAt] at hp
  have hm : i % 8 < 8 := Nat.mod_lt _ (by omega)
  rw [show 8 * (i / 8) + i % 8 = i by omega] at hp
  simpa [hm] using hp

/-- A block is made of its bytes. -/
@[simp] theorem blockOf_byteAt (b : Block) : blockOf (byteAt b) = b := block_ext fun _ h => byteAt_blockOf _ h

theorem byteAt_xor {w : Nat} (a b : BitVec w) (p : Nat) : byteAt (a ^^^ b) p = byteAt a p ^^^ byteAt b p := by
  simp [byteAt, BitVec.extractLsb'_xor]

@[simp] theorem length_bytesOfBlock (b : Block) : (bytesOfBlock b).length = 16 := rfl

theorem getD_bytesOfBlock (b : Block) {p : Nat} (h : p < 16) : (bytesOfBlock b).getD p 0 = byteAt b p := by
  simp [bytesOfBlock, h]

@[simp] theorem blockOfBytes_bytesOfBlock (b : Block) : blockOfBytes (bytesOfBlock b) = b :=
  block_ext fun p h => by rw [blockOfBytes, byteAt_blockOf _ h, getD_bytesOfBlock b h]

end Sys2Proof.Machine

namespace Sys2Proof

@[simp] theorem Oct.get_ofFn {α : Type} (f : Nat → α) {i : Nat} (h : i < 8) : (Oct.ofFn f).get i = f i := by
  interval_cases i <;> rfl

@[simp] theorem Oct.get_map {α β : Type} (f : α → β) (o : Oct α) {i : Nat} (h : i < 8) :
    (o.map f).get i = f (o.get i) := by
  rw [Oct.map, Oct.get_ofFn _ h]

/-- Two groups of eight with the same elements are the same. -/
theorem Oct.ext_get {α : Type} {a b : Oct α} (h : ∀ i < 8, a.get i = b.get i) : a = b := by
  obtain ⟨a0, a1, a2, a3, a4, a5, a6, a7⟩ := a
  obtain ⟨b0, b1, b2, b3, b4, b5, b6, b7⟩ := b
  have h0 := h 0 (by omega)
  have h1 := h 1 (by omega)
  have h2 := h 2 (by omega)
  have h3 := h 3 (by omega)
  have h4 := h 4 (by omega)
  have h5 := h 5 (by omega)
  have h6 := h 6 (by omega)
  have h7 := h 7 (by omega)
  simp only [Oct.get] at h0 h1 h2 h3 h4 h5 h6 h7
  rw [h0, h1, h2, h3, h4, h5, h6, h7]

end Sys2Proof
end

