-- ==== Sys2Proof/Laws/State.lean ====
section
/-! SUPPORT. One lemma per field per update of the state, so that no proof unfolds a record update. -/

namespace Sys2Proof.Machine

@[simp] theorem State.raise_eq (s : State) (c : Code) : s.raise c = s.respond c := rfl

/-! ### `State.accept` -/

@[simp] theorem State.accept_cfg (s : State) : s.accept.cfg = s.cfg := rfl
@[simp] theorem State.accept_keyValid (s : State) : s.accept.keyValid = s.keyValid := rfl
@[simp] theorem State.accept_variant (s : State) : s.accept.variant = s.variant := rfl
@[simp] theorem State.accept_rk (s : State) : s.accept.rk = s.rk := rfl
@[simp] theorem State.accept_mem (s : State) : s.accept.mem = s.mem := rfl
@[simp] theorem State.accept_port (s : State) : s.accept.port = none := rfl
@[simp] theorem State.accept_response (s : State) : s.accept.response = none := rfl
@[simp] theorem State.accept_unitS (s : State) : s.accept.unitS = s.unitS := rfl
@[simp] theorem State.accept_unitK (s : State) : s.accept.unitK = s.unitK := rfl
@[simp] theorem State.accept_reqBlock (s : State) : s.accept.reqBlock = s.reqBlock := rfl
@[simp] theorem State.accept_reqBatch (s : State) : s.accept.reqBatch = s.reqBatch := rfl
@[simp] theorem State.accept_reqBlocks (s : State) : s.accept.reqBlocks = s.reqBlocks := rfl
@[simp] theorem State.accept_romOut (s : State) : s.accept.romOut = s.romOut := rfl
@[simp] theorem State.accept_bus (s : State) : s.accept.bus = [] := rfl
@[simp] theorem State.accept_unitOps (s : State) : s.accept.unitOps = [] := rfl
@[simp] theorem State.accept_freeCount (s : State) : s.accept.freeCount = s.freeCount := rfl

/-! ### `State.respond` -/

@[simp] theorem State.respond_cfg (s : State) (c : Code) : (s.respond c).cfg = s.cfg := rfl
@[simp] theorem State.respond_keyValid (s : State) (c : Code) : (s.respond c).keyValid = s.keyValid := rfl
@[simp] theorem State.respond_variant (s : State) (c : Code) : (s.respond c).variant = s.variant := rfl
@[simp] theorem State.respond_rk (s : State) (c : Code) : (s.respond c).rk = s.rk := rfl
@[simp] theorem State.respond_mem (s : State) (c : Code) : (s.respond c).mem = s.mem := rfl
@[simp] theorem State.respond_port (s : State) (c : Code) : (s.respond c).port = s.port := rfl
@[simp] theorem State.respond_response (s : State) (c : Code) : (s.respond c).response = some c.word := rfl
@[simp] theorem State.respond_unitS (s : State) (c : Code) : (s.respond c).unitS = Config.freeBlock s.freeCount 0 := rfl
@[simp] theorem State.respond_unitK (s : State) (c : Code) : (s.respond c).unitK = Config.freeBlock s.freeCount 1 := rfl
@[simp] theorem State.respond_reqBlock (s : State) (c : Code) : (s.respond c).reqBlock = Config.freeBlock s.freeCount 2 := rfl
@[simp] theorem State.respond_reqBatch (s : State) (c : Code) : (s.respond c).reqBatch = Oct.ofFn fun i => Config.freeBlock s.freeCount (3 + i) := rfl
@[simp] theorem State.respond_reqBlocks (s : State) (c : Code) : (s.respond c).reqBlocks = Config.freeBlocks s.freeCount := rfl
@[simp] theorem State.respond_romOut (s : State) (c : Code) : (s.respond c).romOut = Config.freeByte s.freeCount := rfl
@[simp] theorem State.respond_bus (s : State) (c : Code) : (s.respond c).bus = s.bus := rfl
@[simp] theorem State.respond_unitOps (s : State) (c : Code) : (s.respond c).unitOps = s.unitOps := rfl
@[simp] theorem State.respond_freeCount (s : State) (c : Code) : (s.respond c).freeCount = s.freeCount + 1 := rfl

/-! ### `State.recordRead` -/

@[simp] theorem State.recordRead_cfg (s : State) (addr n : Nat) : (s.recordRead addr n).cfg = s.cfg := rfl
@[simp] theorem State.recordRead_keyValid (s : State) (addr n : Nat) : (s.recordRead addr n).keyValid = s.keyValid := rfl
@[simp] theorem State.recordRead_variant (s : State) (addr n : Nat) : (s.recordRead addr n).variant = s.variant := rfl
@[simp] theorem State.recordRead_rk (s : State) (addr n : Nat) : (s.recordRead addr n).rk = s.rk := rfl
@[simp] theorem State.recordRead_mem (s : State) (addr n : Nat) : (s.recordRead addr n).mem = s.mem := rfl
@[simp] theorem State.recordRead_port (s : State) (addr n : Nat) : (s.recordRead addr n).port = s.port := rfl
@[simp] theorem State.recordRead_response (s : State) (addr n : Nat) : (s.recordRead addr n).response = s.response := rfl
@[simp] theorem State.recordRead_unitS (s : State) (addr n : Nat) : (s.recordRead addr n).unitS = s.unitS := rfl
@[simp] theorem State.recordRead_unitK (s : State) (addr n : Nat) : (s.recordRead addr n).unitK = s.unitK := rfl
@[simp] theorem State.recordRead_reqBlock (s : State) (addr n : Nat) : (s.recordRead addr n).reqBlock = s.reqBlock := rfl
@[simp] theorem State.recordRead_reqBatch (s : State) (addr n : Nat) : (s.recordRead addr n).reqBatch = s.reqBatch := rfl
@[simp] theorem State.recordRead_reqBlocks (s : State) (addr n : Nat) : (s.recordRead addr n).reqBlocks = s.reqBlocks := rfl
@[simp] theorem State.recordRead_romOut (s : State) (addr n : Nat) : (s.recordRead addr n).romOut = s.romOut := rfl
@[simp] theorem State.recordRead_bus (s : State) (addr n : Nat) : (s.recordRead addr n).bus = s.bus ++ [⟨.read, addr, n⟩] := rfl
@[simp] theorem State.recordRead_unitOps (s : State) (addr n : Nat) : (s.recordRead addr n).unitOps = s.unitOps := rfl
@[simp] theorem State.recordRead_freeCount (s : State) (addr n : Nat) : (s.recordRead addr n).freeCount = s.freeCount := rfl

/-! ### `State.recordReads` -/

@[simp] theorem State.recordReads_cfg (s : State) (addrs : List Nat) : (s.recordReads addrs).cfg = s.cfg := rfl
@[simp] theorem State.recordReads_keyValid (s : State) (addrs : List Nat) : (s.recordReads addrs).keyValid = s.keyValid := rfl
@[simp] theorem State.recordReads_variant (s : State) (addrs : List Nat) : (s.recordReads addrs).variant = s.variant := rfl
@[simp] theorem State.recordReads_rk (s : State) (addrs : List Nat) : (s.recordReads addrs).rk = s.rk := rfl
@[simp] theorem State.recordReads_mem (s : State) (addrs : List Nat) : (s.recordReads addrs).mem = s.mem := rfl
@[simp] theorem State.recordReads_port (s : State) (addrs : List Nat) : (s.recordReads addrs).port = s.port := rfl
@[simp] theorem State.recordReads_response (s : State) (addrs : List Nat) : (s.recordReads addrs).response = s.response := rfl
@[simp] theorem State.recordReads_unitS (s : State) (addrs : List Nat) : (s.recordReads addrs).unitS = s.unitS := rfl
@[simp] theorem State.recordReads_unitK (s : State) (addrs : List Nat) : (s.recordReads addrs).unitK = s.unitK := rfl
@[simp] theorem State.recordReads_reqBlock (s : State) (addrs : List Nat) : (s.recordReads addrs).reqBlock = s.reqBlock := rfl
@[simp] theorem State.recordReads_reqBatch (s : State) (addrs : List Nat) : (s.recordReads addrs).reqBatch = s.reqBatch := rfl
@[simp] theorem State.recordReads_reqBlocks (s : State) (addrs : List Nat) : (s.recordReads addrs).reqBlocks = s.reqBlocks := rfl
@[simp] theorem State.recordReads_romOut (s : State) (addrs : List Nat) : (s.recordReads addrs).romOut = s.romOut := rfl
@[simp] theorem State.recordReads_bus (s : State) (addrs : List Nat) : (s.recordReads addrs).bus = s.bus ++ addrs.map fun a => ⟨.read, a, Config.blockBytes⟩ := rfl
@[simp] theorem State.recordReads_unitOps (s : State) (addrs : List Nat) : (s.recordReads addrs).unitOps = s.unitOps := rfl
@[simp] theorem State.recordReads_freeCount (s : State) (addrs : List Nat) : (s.recordReads addrs).freeCount = s.freeCount := rfl

/-! ### `State.recordOps` -/

@[simp] theorem State.recordOps_cfg (s : State) (ops : List UnitOp) : (s.recordOps ops).cfg = s.cfg := rfl
@[simp] theorem State.recordOps_keyValid (s : State) (ops : List UnitOp) : (s.recordOps ops).keyValid = s.keyValid := rfl
@[simp] theorem State.recordOps_variant (s : State) (ops : List UnitOp) : (s.recordOps ops).variant = s.variant := rfl
@[simp] theorem State.recordOps_rk (s : State) (ops : List UnitOp) : (s.recordOps ops).rk = s.rk := rfl
@[simp] theorem State.recordOps_mem (s : State) (ops : List UnitOp) : (s.recordOps ops).mem = s.mem := rfl
@[simp] theorem State.recordOps_port (s : State) (ops : List UnitOp) : (s.recordOps ops).port = s.port := rfl
@[simp] theorem State.recordOps_response (s : State) (ops : List UnitOp) : (s.recordOps ops).response = s.response := rfl
@[simp] theorem State.recordOps_unitS (s : State) (ops : List UnitOp) : (s.recordOps ops).unitS = s.unitS := rfl
@[simp] theorem State.recordOps_unitK (s : State) (ops : List UnitOp) : (s.recordOps ops).unitK = s.unitK := rfl
@[simp] theorem State.recordOps_reqBlock (s : State) (ops : List UnitOp) : (s.recordOps ops).reqBlock = s.reqBlock := rfl
@[simp] theorem State.recordOps_reqBatch (s : State) (ops : List UnitOp) : (s.recordOps ops).reqBatch = s.reqBatch := rfl
@[simp] theorem State.recordOps_reqBlocks (s : State) (ops : List UnitOp) : (s.recordOps ops).reqBlocks = s.reqBlocks := rfl
@[simp] theorem State.recordOps_romOut (s : State) (ops : List UnitOp) : (s.recordOps ops).romOut = s.romOut := rfl
@[simp] theorem State.recordOps_bus (s : State) (ops : List UnitOp) : (s.recordOps ops).bus = s.bus := rfl
@[simp] theorem State.recordOps_unitOps (s : State) (ops : List UnitOp) : (s.recordOps ops).unitOps = s.unitOps ++ ops := rfl
@[simp] theorem State.recordOps_freeCount (s : State) (ops : List UnitOp) : (s.recordOps ops).freeCount = s.freeCount := rfl

/-! ### `State.storeBlock` -/

@[simp] theorem State.storeBlock_cfg (s : State) (addr : Nat) (b : Block) : (s.storeBlock addr b).cfg = s.cfg := by
  simp only [State.storeBlock]
@[simp] theorem State.storeBlock_keyValid (s : State) (addr : Nat) (b : Block) : (s.storeBlock addr b).keyValid = s.keyValid := by
  simp only [State.storeBlock]
@[simp] theorem State.storeBlock_variant (s : State) (addr : Nat) (b : Block) : (s.storeBlock addr b).variant = s.variant := by
  simp only [State.storeBlock]
@[simp] theorem State.storeBlock_rk (s : State) (addr : Nat) (b : Block) : (s.storeBlock addr b).rk = s.rk := by
  simp only [State.storeBlock]
@[simp] theorem State.storeBlock_mem (s : State) (addr : Nat) (b : Block) : (s.storeBlock addr b).mem = s.mem.writeBlock addr b := by
  simp only [State.storeBlock]
@[simp] theorem State.storeBlock_port (s : State) (addr : Nat) (b : Block) : (s.storeBlock addr b).port = s.port := by
  simp only [State.storeBlock]
@[simp] theorem State.storeBlock_response (s : State) (addr : Nat) (b : Block) : (s.storeBlock addr b).response = s.response := by
  simp only [State.storeBlock]
@[simp] theorem State.storeBlock_unitS (s : State) (addr : Nat) (b : Block) : (s.storeBlock addr b).unitS = s.unitS := by
  simp only [State.storeBlock]
@[simp] theorem State.storeBlock_unitK (s : State) (addr : Nat) (b : Block) : (s.storeBlock addr b).unitK = s.unitK := by
  simp only [State.storeBlock]
@[simp] theorem State.storeBlock_reqBlock (s : State) (addr : Nat) (b : Block) : (s.storeBlock addr b).reqBlock = s.reqBlock := by
  simp only [State.storeBlock]
@[simp] theorem State.storeBlock_reqBatch (s : State) (addr : Nat) (b : Block) : (s.storeBlock addr b).reqBatch = s.reqBatch := by
  simp only [State.storeBlock]
@[simp] theorem State.storeBlock_reqBlocks (s : State) (addr : Nat) (b : Block) : (s.storeBlock addr b).reqBlocks = s.reqBlocks := by
  simp only [State.storeBlock]
@[simp] theorem State.storeBlock_romOut (s : State) (addr : Nat) (b : Block) : (s.storeBlock addr b).romOut = s.romOut := by
  simp only [State.storeBlock]
@[simp] theorem State.storeBlock_bus (s : State) (addr : Nat) (b : Block) : (s.storeBlock addr b).bus = s.bus ++ [⟨.write, addr, Config.blockBytes⟩] := by
  simp only [State.storeBlock]
@[simp] theorem State.storeBlock_unitOps (s : State) (addr : Nat) (b : Block) : (s.storeBlock addr b).unitOps = s.unitOps := by
  simp only [State.storeBlock]
@[simp] theorem State.storeBlock_freeCount (s : State) (addr : Nat) (b : Block) : (s.storeBlock addr b).freeCount = s.freeCount := by
  simp only [State.storeBlock]

/-! ### `State.withDescriptor` -/

@[simp] theorem State.withDescriptor_cfg (s : State) (d : BitVec 128) : (s.withDescriptor d).cfg = s.cfg := rfl
@[simp] theorem State.withDescriptor_keyValid (s : State) (d : BitVec 128) : (s.withDescriptor d).keyValid = s.keyValid := rfl
@[simp] theorem State.withDescriptor_variant (s : State) (d : BitVec 128) : (s.withDescriptor d).variant = s.variant := rfl
@[simp] theorem State.withDescriptor_rk (s : State) (d : BitVec 128) : (s.withDescriptor d).rk = s.rk := rfl
@[simp] theorem State.withDescriptor_mem (s : State) (d : BitVec 128) : (s.withDescriptor d).mem = s.mem := rfl
@[simp] theorem State.withDescriptor_port (s : State) (d : BitVec 128) : (s.withDescriptor d).port = some (.cmd d) := rfl
@[simp] theorem State.withDescriptor_response (s : State) (d : BitVec 128) : (s.withDescriptor d).response = none := rfl
@[simp] theorem State.withDescriptor_unitS (s : State) (d : BitVec 128) : (s.withDescriptor d).unitS = s.unitS := rfl
@[simp] theorem State.withDescriptor_unitK (s : State) (d : BitVec 128) : (s.withDescriptor d).unitK = s.unitK := rfl
@[simp] theorem State.withDescriptor_reqBlock (s : State) (d : BitVec 128) : (s.withDescriptor d).reqBlock = s.reqBlock := rfl
@[simp] theorem State.withDescriptor_reqBatch (s : State) (d : BitVec 128) : (s.withDescriptor d).reqBatch = s.reqBatch := rfl
@[simp] theorem State.withDescriptor_reqBlocks (s : State) (d : BitVec 128) : (s.withDescriptor d).reqBlocks = s.reqBlocks := rfl
@[simp] theorem State.withDescriptor_romOut (s : State) (d : BitVec 128) : (s.withDescriptor d).romOut = s.romOut := rfl
@[simp] theorem State.withDescriptor_bus (s : State) (d : BitVec 128) : (s.withDescriptor d).bus = s.bus := rfl
@[simp] theorem State.withDescriptor_unitOps (s : State) (d : BitVec 128) : (s.withDescriptor d).unitOps = s.unitOps := rfl
@[simp] theorem State.withDescriptor_freeCount (s : State) (d : BitVec 128) : (s.withDescriptor d).freeCount = s.freeCount := rfl

/-! ### `State.withByte` -/

@[simp] theorem State.withByte_cfg (s : State) (addr : Nat) (v : Byte) : (s.withByte addr v).cfg = s.cfg := by
  simp only [State.withByte]
@[simp] theorem State.withByte_keyValid (s : State) (addr : Nat) (v : Byte) : (s.withByte addr v).keyValid = s.keyValid := by
  simp only [State.withByte]
@[simp] theorem State.withByte_variant (s : State) (addr : Nat) (v : Byte) : (s.withByte addr v).variant = s.variant := by
  simp only [State.withByte]
@[simp] theorem State.withByte_rk (s : State) (addr : Nat) (v : Byte) : (s.withByte addr v).rk = s.rk := by
  simp only [State.withByte]
@[simp] theorem State.withByte_mem (s : State) (addr : Nat) (v : Byte) : (s.withByte addr v).mem = s.mem.write addr v := by
  simp only [State.withByte]
@[simp] theorem State.withByte_port (s : State) (addr : Nat) (v : Byte) : (s.withByte addr v).port = s.port := by
  simp only [State.withByte]
@[simp] theorem State.withByte_response (s : State) (addr : Nat) (v : Byte) : (s.withByte addr v).response = s.response := by
  simp only [State.withByte]
@[simp] theorem State.withByte_unitS (s : State) (addr : Nat) (v : Byte) : (s.withByte addr v).unitS = s.unitS := by
  simp only [State.withByte]
@[simp] theorem State.withByte_unitK (s : State) (addr : Nat) (v : Byte) : (s.withByte addr v).unitK = s.unitK := by
  simp only [State.withByte]
@[simp] theorem State.withByte_reqBlock (s : State) (addr : Nat) (v : Byte) : (s.withByte addr v).reqBlock = s.reqBlock := by
  simp only [State.withByte]
@[simp] theorem State.withByte_reqBatch (s : State) (addr : Nat) (v : Byte) : (s.withByte addr v).reqBatch = s.reqBatch := by
  simp only [State.withByte]
@[simp] theorem State.withByte_reqBlocks (s : State) (addr : Nat) (v : Byte) : (s.withByte addr v).reqBlocks = s.reqBlocks := by
  simp only [State.withByte]
@[simp] theorem State.withByte_romOut (s : State) (addr : Nat) (v : Byte) : (s.withByte addr v).romOut = s.romOut := by
  simp only [State.withByte]
@[simp] theorem State.withByte_bus (s : State) (addr : Nat) (v : Byte) : (s.withByte addr v).bus = s.bus := by
  simp only [State.withByte]
@[simp] theorem State.withByte_unitOps (s : State) (addr : Nat) (v : Byte) : (s.withByte addr v).unitOps = s.unitOps := by
  simp only [State.withByte]
@[simp] theorem State.withByte_freeCount (s : State) (addr : Nat) (v : Byte) : (s.withByte addr v).freeCount = s.freeCount := by
  simp only [State.withByte]

/-! ### `State.afterReset` -/

@[simp] theorem State.afterReset_cfg (s : State) : s.afterReset.cfg = s.cfg := rfl
@[simp] theorem State.afterReset_keyValid (s : State) : s.afterReset.keyValid = false := rfl
@[simp] theorem State.afterReset_variant (s : State) : s.afterReset.variant = .aes128 := rfl
@[simp] theorem State.afterReset_rk (s : State) : s.afterReset.rk = Vector.replicate 15 0 := rfl
@[simp] theorem State.afterReset_mem (s : State) : s.afterReset.mem = s.mem := rfl
@[simp] theorem State.afterReset_port (s : State) : s.afterReset.port = none := rfl
@[simp] theorem State.afterReset_response (s : State) : s.afterReset.response = none := rfl
@[simp] theorem State.afterReset_unitS (s : State) : s.afterReset.unitS = Config.freeBlock s.freeCount 0 := rfl
@[simp] theorem State.afterReset_unitK (s : State) : s.afterReset.unitK = Config.freeBlock s.freeCount 1 := rfl
@[simp] theorem State.afterReset_reqBlock (s : State) : s.afterReset.reqBlock = Config.freeBlock s.freeCount 2 := rfl
@[simp] theorem State.afterReset_reqBatch (s : State) : s.afterReset.reqBatch = Oct.ofFn fun i => Config.freeBlock s.freeCount (3 + i) := rfl
@[simp] theorem State.afterReset_reqBlocks (s : State) : s.afterReset.reqBlocks = Config.freeBlocks s.freeCount := rfl
@[simp] theorem State.afterReset_romOut (s : State) : s.afterReset.romOut = Config.freeByte s.freeCount := rfl
@[simp] theorem State.afterReset_bus (s : State) : s.afterReset.bus = [] := rfl
@[simp] theorem State.afterReset_unitOps (s : State) : s.afterReset.unitOps = [] := rfl
@[simp] theorem State.afterReset_freeCount (s : State) : s.afterReset.freeCount = s.freeCount + 1 := rfl

end Sys2Proof.Machine
end

