-- ==== Sys2Proof/Laws/Memory.lean ====
section
/-! SUPPORT. The laws of memory: a read after a write, the canonical form, sequences of bytes. -/

namespace Sys2Proof.Machine

@[simp] theorem Memory.read_nil (a : Nat) : Memory.read [] a = Memory.unlisted := rfl

theorem Memory.read_cons_entry (b : Nat) (v : Byte) (rest : Memory) (a : Nat) :
    Memory.read ((b, v) :: rest) a = if a = b then v else Memory.read rest a := rfl

/-- The four facts that the canonical form above an address says of a non-empty memory. -/
theorem Memory.wfFrom_cons (low b : Nat) (v : Byte) (rest : Memory) :
    Memory.wfFrom low ((b, v) :: rest) = true ↔
      low ≤ b ∧ b < 2 ^ Config.addressBits ∧ v ≠ Memory.unlisted ∧ Memory.wfFrom (b + 1) rest = true := by
  simp [Memory.wfFrom, and_assoc]

theorem Memory.wfFrom_mono {low low' : Nat} {m : Memory} (h : low' ≤ low) (hw : Memory.wfFrom low m = true) :
    Memory.wfFrom low' m = true := by
  cases m with
  | nil => rfl
  | cons e rest =>
    obtain ⟨b, v⟩ := e
    rw [Memory.wfFrom_cons] at hw ⊢
    exact ⟨h.trans hw.1, hw.2⟩

/-- Below the first listed address everything reads as unlisted. -/
theorem Memory.read_of_lt {low a : Nat} {m : Memory} (hw : Memory.wfFrom low m = true) (h : a < low) :
    m.read a = Memory.unlisted := by
  induction m generalizing low with
  | nil => rfl
  | cons e rest ih =>
    obtain ⟨b, v⟩ := e
    rw [Memory.wfFrom_cons] at hw
    rw [Memory.read_cons_entry, if_neg (by omega)]
    exact ih hw.2.2.2 (by omega)

theorem Memory.read_cons {a : Nat} {v : Byte} {rest : Memory} (hw : Memory.wfFrom (a + 1) rest = true) (x : Nat) :
    (Memory.cons a v rest).read x = if x = a then v else rest.read x := by
  unfold Memory.cons
  split
  · next hv =>
    split
    · next hx => rw [hv, hx, Memory.read_of_lt hw (Nat.lt_succ_self a)]
    · rfl
  · rfl

theorem Memory.wfFrom_consEntry {low a : Nat} {v : Byte} {rest : Memory} (hl : low ≤ a)
    (ha : a < 2 ^ Config.addressBits) (hw : Memory.wfFrom (a + 1) rest = true) :
    Memory.wfFrom low (Memory.cons a v rest) = true := by
  unfold Memory.cons
  split
  · exact Memory.wfFrom_mono (by omega) hw
  · next hv => exact (Memory.wfFrom_cons ..).2 ⟨hl, ha, hv, hw⟩

theorem Memory.wfFrom_write {low a : Nat} {v : Byte} {m : Memory} (hl : low ≤ a)
    (ha : a < 2 ^ Config.addressBits) (hw : Memory.wfFrom low m = true) :
    Memory.wfFrom low (m.write a v) = true := by
  induction m generalizing low with
  | nil => exact Memory.wfFrom_consEntry hl ha rfl
  | cons e rest ih =>
    obtain ⟨b, u⟩ := e
    have hw' := (Memory.wfFrom_cons ..).1 hw
    unfold Memory.write
    split
    · next hab => exact Memory.wfFrom_consEntry hl ha ((Memory.wfFrom_cons ..).2 ⟨hab, hw'.2⟩)
    · split
      · next hab => exact Memory.wfFrom_consEntry hl ha (hab ▸ hw'.2.2.2)
      · exact (Memory.wfFrom_cons ..).2 ⟨hw'.1, hw'.2.1, hw'.2.2.1, ih (by omega) hw'.2.2.2⟩

/-- What every address reads as after a byte is written (20_memory.md R42, R43). -/
theorem Memory.read_writeFrom {low a : Nat} {v : Byte} {m : Memory} (hw : Memory.wfFrom low m = true) (x : Nat) :
    (m.write a v).read x = if x = a then v else m.read x := by
  induction m generalizing low with
  | nil => exact Memory.read_cons (rest := []) rfl x
  | cons e rest ih =>
    obtain ⟨b, u⟩ := e
    have hw' := (Memory.wfFrom_cons ..).1 hw
    unfold Memory.write
    split
    · next hab => exact Memory.read_cons ((Memory.wfFrom_cons ..).2 ⟨hab, hw'.2⟩) x
    · split
      · next hab =>
        subst hab
        rw [Memory.read_cons hw'.2.2.2, Memory.read_cons_entry]
        split <;> rfl
      · next hab =>
        rw [Memory.read_cons_entry, Memory.read_cons_entry, ih hw'.2.2.2]
        by_cases hx : x = b
        · subst hx
          rw [if_pos rfl, if_pos rfl, if_neg (Ne.symm hab)]
        · rw [if_neg hx, if_neg hx]

/-- A write keeps the canonical form. -/
theorem Memory.wf_write {m : Memory} {a : Nat} {v : Byte} (ha : a < 2 ^ Config.addressBits) (hw : m.wf = true) :
    (m.write a v).wf = true := Memory.wfFrom_write (Nat.zero_le a) ha hw

/-- A read after a write (20_memory.md R42, R43). -/
theorem Memory.read_write {m : Memory} (hw : m.wf = true) (a : Nat) (v : Byte) (x : Nat) :
    (m.write a v).read x = if x = a then v else m.read x := Memory.read_writeFrom hw x

/-- The memory after reset has the canonical form. -/
theorem Memory.wf_reset : State.reset.mem.wf = true := rfl

/-- A sequence of writes keeps the canonical form. -/
theorem Memory.wf_writeBytes {m : Memory} {addr : Nat} {vs : List Byte}
    (ha : addr + vs.length ≤ 2 ^ Config.addressBits) (hw : m.wf = true) : (m.writeBytes addr vs).wf = true := by
  induction vs generalizing m addr with
  | nil => exact hw
  | cons v vs ih =>
    rw [List.length_cons] at ha
    exact ih (by omega) (Memory.wf_write (by omega) hw)

/-- What every address reads as after a sequence of bytes is written (20_memory.md R43). -/
theorem Memory.read_writeBytes {m : Memory} {addr : Nat} {vs : List Byte} (hw : m.wf = true)
    (ha : addr + vs.length ≤ 2 ^ Config.addressBits) (x : Nat) :
    (m.writeBytes addr vs).read x =
      if addr ≤ x ∧ x < addr + vs.length then vs.getD (x - addr) 0 else m.read x := by
  induction vs generalizing m addr with
  | nil => rw [if_neg (by simp)]; rfl
  | cons v vs ih =>
    rw [List.length_cons] at ha ⊢
    rw [Memory.writeBytes, ih (Memory.wf_write (by omega) hw) (by omega), Memory.read_write hw]
    by_cases hx : x = addr
    · subst hx
      rw [if_neg (by omega), if_pos rfl, if_pos (by omega), Nat.sub_self]
      rfl
    · by_cases hin : addr + 1 ≤ x ∧ x < addr + 1 + vs.length
      · rw [if_pos hin, if_pos (by omega), show x - addr = (x - (addr + 1)) + 1 by omega]
        rfl
      · rw [if_neg hin, if_neg hx, if_neg (by omega)]

theorem Memory.getD_readBytes {m : Memory} {addr n i : Nat} (h : i < n) :
    (m.readBytes addr n).getD i 0 = m.read (addr + i) := by
  simp [Memory.readBytes, h]

@[simp] theorem Memory.length_readBytes (m : Memory) (addr n : Nat) : (m.readBytes addr n).length = n := by
  simp [Memory.readBytes]

/-- Two memories in canonical form that read the same everywhere are the same data. -/
theorem Memory.eq_of_read {low : Nat} {m m' : Memory} (hw : Memory.wfFrom low m = true)
    (hw' : Memory.wfFrom low m' = true) (h : ∀ a, m.read a = m'.read a) : m = m' := by
  induction m generalizing low m' with
  | nil =>
    cases m' with
    | nil => rfl
    | cons e rest =>
      obtain ⟨b, v⟩ := e
      have := h b
      rw [Memory.read_cons_entry, if_pos rfl] at this
      exact absurd this.symm ((Memory.wfFrom_cons ..).1 hw').2.2.1
  | cons e rest ih =>
    obtain ⟨b, v⟩ := e
    have hb := (Memory.wfFrom_cons ..).1 hw
    cases m' with
    | nil =>
      have := h b
      rw [Memory.read_cons_entry, if_pos rfl] at this
      exact absurd this hb.2.2.1
    | cons e' rest' =>
      obtain ⟨b', v'⟩ := e'
      have hb' := (Memory.wfFrom_cons ..).1 hw'
      have hbb : b = b' := by
        rcases Nat.lt_trichotomy b b' with hlt | heq | hgt
        · have := h b
          rw [Memory.read_cons_entry, if_pos rfl, Memory.read_cons_entry, if_neg (by omega),
            Memory.read_of_lt hb'.2.2.2 (by omega)] at this
          exact absurd this hb.2.2.1
        · exact heq
        · have := h b'
          rw [Memory.read_cons_entry, if_neg (by omega), Memory.read_cons_entry, if_pos rfl,
            Memory.read_of_lt hb.2.2.2 (by omega)] at this
          exact absurd this.symm hb'.2.2.1
      subst hbb
      have hv : v = v' := by
        have := h b
        rwa [Memory.read_cons_entry, if_pos rfl, Memory.read_cons_entry, if_pos rfl] at this
      subst hv
      rw [ih hb.2.2.2 hb'.2.2.2 fun a => ?_]
      have := h a
      rw [Memory.read_cons_entry, Memory.read_cons_entry] at this
      by_cases ha : a = b
      · subst ha
        rw [Memory.read_of_lt hb.2.2.2 (Nat.lt_succ_self _), Memory.read_of_lt hb'.2.2.2 (Nat.lt_succ_self _)]
      · rwa [if_neg ha, if_neg ha] at this

end Sys2Proof.Machine
end

