-- ==== Sys2Proof/Laws/Blocks.lean ====
section
/-! SUPPORT. The laws of blocks in memory, and what storing blocks does to the state. -/

namespace Sys2Proof.Machine

/-- A block write keeps the canonical form. -/
theorem Memory.wf_writeBlock {m : Memory} {addr : Nat} {b : Block}
    (ha : addr + Config.blockBytes ≤ 2 ^ Config.addressBits) (hw : m.wf = true) : (m.writeBlock addr b).wf = true :=
  Memory.wf_writeBytes (by simpa [Config.blockBytes] using ha) hw

/-- What every address reads as after a block is written (20_memory.md R43, R44). -/
theorem Memory.read_writeBlock {m : Memory} {addr : Nat} {b : Block} (hw : m.wf = true)
    (ha : addr + Config.blockBytes ≤ 2 ^ Config.addressBits) (x : Nat) :
    (m.writeBlock addr b).read x =
      if addr ≤ x ∧ x < addr + Config.blockBytes then byteAt b (x - addr) else m.read x := by
  rw [Memory.writeBlock, Memory.read_writeBytes hw (by simpa [Config.blockBytes] using ha), length_bytesOfBlock]
  by_cases h : addr ≤ x ∧ x < addr + 16
  · rw [if_pos h, if_pos (show addr ≤ x ∧ x < addr + Config.blockBytes from h), getD_bytesOfBlock b (by omega)]
  · rw [if_neg h, if_neg (show ¬(addr ≤ x ∧ x < addr + Config.blockBytes) from h)]

/-- Byte `p` of the block read at an address (20_memory.md R44). -/
theorem Memory.byteAt_readBlock (m : Memory) (addr : Nat) {p : Nat} (h : p < 16) :
    byteAt (m.readBlock addr) p = m.read (addr + p) := by
  rw [Memory.readBlock, blockOfBytes, byteAt_blockOf _ h]
  exact Memory.getD_readBytes h

/-- The block just written is read back. -/
theorem Memory.readBlock_writeBlock {m : Memory} {addr : Nat} {b : Block} (hw : m.wf = true)
    (ha : addr + Config.blockBytes ≤ 2 ^ Config.addressBits) : (m.writeBlock addr b).readBlock addr = b :=
  block_ext fun p h => by
    rw [Memory.byteAt_readBlock _ _ h, Memory.read_writeBlock hw ha, if_pos (by simp [Config.blockBytes, h]),
      Nat.add_sub_cancel_left]

/-- A block that does not touch the written one reads as before. -/
theorem Memory.readBlock_writeBlock_other {m : Memory} {addr addr' : Nat} {b : Block} (hw : m.wf = true)
    (ha : addr + Config.blockBytes ≤ 2 ^ Config.addressBits)
    (h : addr' + Config.blockBytes ≤ addr ∨ addr + Config.blockBytes ≤ addr') :
    (m.writeBlock addr b).readBlock addr' = m.readBlock addr' :=
  block_ext fun p hp => by
    rw [Memory.byteAt_readBlock _ _ hp, Memory.byteAt_readBlock _ _ hp, Memory.read_writeBlock hw ha, if_neg]
    simp only [Config.blockBytes] at h ⊢
    omega

/-- Memory after blocks are stored at a list of addresses. -/
def Memory.writeBlocks (m : Memory) (l : List (Nat × Block)) : Memory :=
  l.foldl (fun m ab => m.writeBlock ab.1 ab.2) m

/-- All that storing blocks does: memory, and the accesses on record. -/
theorem State.storeBlocks_eq (s : State) (l : List (Nat × Block)) :
    s.storeBlocks l =
      { s with
        mem := s.mem.writeBlocks l
        bus := s.bus ++ l.map fun ab => ⟨.write, ab.1, Config.blockBytes⟩ } := by
  induction l generalizing s with
  | nil => simp [State.storeBlocks, Memory.writeBlocks]
  | cons ab rest ih =>
    obtain ⟨a, b⟩ := ab
    rw [State.storeBlocks, ih, State.storeBlock]
    simp [Memory.writeBlocks]

/-- The addresses of consecutive blocks of a buffer, from block `first`. -/
def blockAddrs (addr first count : Nat) : List Nat := (List.range count).map fun k => blockAddr addr (first + k)

@[simp] theorem length_blockAddrs (addr first count : Nat) : (blockAddrs addr first count).length = count := by
  simp [blockAddrs]

theorem blockAddrs_succ (addr first count : Nat) :
    blockAddrs addr first (count + 1) = blockAddr addr first :: blockAddrs addr (first + 1) count := by
  simp [blockAddrs, List.range_succ_eq_map, Function.comp_def, Nat.add_right_comm, Nat.add_assoc]

/-- Storing consecutive blocks keeps the canonical form. -/
theorem Memory.wf_writeBlocks {m : Memory} {addr first : Nat} {ys : List Block}
    (ha : blockAddr addr (first + ys.length) ≤ 2 ^ Config.addressBits) (hw : m.wf = true) :
    (m.writeBlocks ((blockAddrs addr first ys.length).zip ys)).wf = true := by
  induction ys generalizing m first with
  | nil => exact hw
  | cons y ys ih =>
    simp only [List.length_cons, blockAddr, Config.blockBytes] at ha
    rw [List.length_cons, blockAddrs_succ, List.zip_cons_cons, Memory.writeBlocks, List.foldl_cons]
    refine ih ?_ (Memory.wf_writeBlock ?_ hw) <;> simp only [blockAddr, Config.blockBytes] <;> omega

/-- What every address reads as after consecutive blocks are stored (45_facade.md R252): byte `p` of block `m`
of the buffer is byte `p` of the block stored there, and no other byte changes. -/
theorem Memory.read_writeBlocks {m : Memory} {addr first : Nat} {ys : List Block} (hw : m.wf = true)
    (ha : blockAddr addr (first + ys.length) ≤ 2 ^ Config.addressBits) (x : Nat) :
    (m.writeBlocks ((blockAddrs addr first ys.length).zip ys)).read x =
      if blockAddr addr first ≤ x ∧ x < blockAddr addr (first + ys.length) then
        byteAt (ys.getD ((x - blockAddr addr first) / 16) 0) ((x - blockAddr addr first) % 16)
      else m.read x := by
  induction ys generalizing m first with
  | nil => rw [if_neg (by simp)]; rfl
  | cons y ys ih =>
    simp only [List.length_cons, blockAddr, Config.blockBytes] at ha
    have ha' : blockAddr addr first + Config.blockBytes ≤ 2 ^ Config.addressBits := by
      simp only [blockAddr, Config.blockBytes]; omega
    rw [List.length_cons, blockAddrs_succ, List.zip_cons_cons, Memory.writeBlocks, List.foldl_cons]
    rw [← Memory.writeBlocks, ih (Memory.wf_writeBlock ha' hw) (by simp only [blockAddr, Config.blockBytes]; omega),
      Memory.read_writeBlock hw ha']
    split_ifs with h1 h2 h3 h4 h5 <;> simp only [blockAddr, Config.blockBytes] at *
    · have hd : (x - (addr + 16 * first)) / 16 = (x - (addr + 16 * (first + 1))) / 16 + 1 := by omega
      have hm : (x - (addr + 16 * first)) % 16 = (x - (addr + 16 * (first + 1))) % 16 := by omega
      rw [hd, hm, List.getD_cons_succ]
    · omega
    · have hd : (x - (addr + 16 * first)) / 16 = 0 := by omega
      have hm : (x - (addr + 16 * first)) % 16 = x - (addr + 16 * first) := by omega
      rw [hd, hm, List.getD_cons_zero]
    · omega
    · omega

end Sys2Proof.Machine
end

