-- ==== Sys2Proof/Laws/Commands.lean ====
section
/-! SUPPORT. What each shared operation of the host commands can do, once. -/

namespace Sys2Proof.Machine

/-- A KEYSETUP with the wrong key length. -/
theorem keySetup_invalidLength {v : Variant} {addr len : Nat} {s : State} (h : len ≠ v.keyBytes) :
    keySetup v addr len s = .next (s.accept.respond .invalidKeyLength) := by
  simp [keySetup, h]

/-- A KEYSETUP whose key buffer is not admitted. -/
theorem keySetup_bufferFault {v : Variant} {addr : Nat} {s : State}
    (h : s.cfg.admitsKey addr v.keyBytes = false) :
    keySetup v addr v.keyBytes s = .next (s.accept.respond .bufferFault) := by
  simp [keySetup, h]

/-- The state a KEYSETUP that responds `OK` leaves. -/
def keyedState (v : Variant) (addr : Nat) (s : State) : State :=
  let r := expandKey (engineSubWord s.cfg.engine) v (s.mem.readBytes addr v.keyBytes)
  ({ (s.accept.recordRead addr v.keyBytes).recordOps r.ops with
    rk := r.val, variant := v, keyValid := true }).respond .ok

/-- A KEYSETUP that responds `OK`. -/
theorem keySetup_ok {v : Variant} {addr : Nat} {s : State} (h : s.cfg.admitsKey addr v.keyBytes = true) :
    keySetup v addr v.keyBytes s = .next (keyedState v addr s) := by
  simp [keySetup, h, keyedState]

/-- All that a KEYSETUP can do. -/
theorem keySetup_cases (v : Variant) (addr len : Nat) (s : State) :
    (len ≠ v.keyBytes ∧ keySetup v addr len s = .next (s.accept.respond .invalidKeyLength)) ∨
    (len = v.keyBytes ∧ s.cfg.admitsKey addr v.keyBytes = false ∧
      keySetup v addr len s = .next (s.accept.respond .bufferFault)) ∨
    (len = v.keyBytes ∧ s.cfg.admitsKey addr v.keyBytes = true ∧
      keySetup v addr len s = .next (keyedState v addr s)) := by
  by_cases hl : len = v.keyBytes
  · subst hl
    cases ha : s.cfg.admitsKey addr v.keyBytes with
    | false => exact .inr (.inl ⟨rfl, rfl, keySetup_bufferFault ha⟩)
    | true => exact .inr (.inr ⟨rfl, rfl, keySetup_ok ha⟩)
  · exact .inl ⟨hl, keySetup_invalidLength hl⟩

/-- A block command on an unkeyed context. -/
theorem blockCommand_noKey {addr n : Nat} {run : State → State} {s : State} (h : s.keyValid = false) :
    blockCommand addr n run s = .next (s.accept.respond .noKey) := by
  simp [blockCommand, h]

/-- A block command whose buffer is not admitted. -/
theorem blockCommand_bufferFault {addr n : Nat} {run : State → State} {s : State} (hk : s.keyValid = true)
    (h : s.cfg.admitsBlocks addr (blocksBytes n) = false) :
    blockCommand addr n run s = .next (s.accept.respond .bufferFault) := by
  simp [blockCommand, hk, h]

/-- A block command that responds `OK`. -/
theorem blockCommand_ok {addr n : Nat} {run : State → State} {s : State} (hk : s.keyValid = true)
    (h : s.cfg.admitsBlocks addr (blocksBytes n) = true) :
    blockCommand addr n run s = .next ((run s.accept).respond .ok) := by
  simp [blockCommand, hk, h]

/-- All that a block command can do. -/
theorem blockCommand_cases (addr n : Nat) (run : State → State) (s : State) :
    (s.keyValid = false ∧ blockCommand addr n run s = .next (s.accept.respond .noKey)) ∨
    (s.keyValid = true ∧ s.cfg.admitsBlocks addr (blocksBytes n) = false ∧
      blockCommand addr n run s = .next (s.accept.respond .bufferFault)) ∨
    (s.keyValid = true ∧ s.cfg.admitsBlocks addr (blocksBytes n) = true ∧
      blockCommand addr n run s = .next ((run s.accept).respond .ok)) := by
  cases hk : s.keyValid with
  | false => exact .inl ⟨rfl, blockCommand_noKey hk⟩
  | true =>
    cases ha : s.cfg.admitsBlocks addr (blocksBytes n) with
    | false => exact .inr (.inl ⟨rfl, rfl, blockCommand_bufferFault hk ha⟩)
    | true => exact .inr (.inr ⟨rfl, rfl, blockCommand_ok hk ha⟩)

/-- All that the single-block path does: memory and the records. -/
theorem runOneBlock_eq (dir : Direction) (addr : Nat) (s : State) :
    runOneBlock dir addr s =
      let r := engineOne s.cfg dir s.rk s.variant.rounds (s.mem.readBlock addr)
      { s with
        mem := s.mem.writeBlock addr r.val
        bus := s.bus ++ [⟨.read, addr, Config.blockBytes⟩, ⟨.write, addr, Config.blockBytes⟩]
        unitOps := s.unitOps ++ .request (oneRequest s.cfg.engine dir) :: r.ops } := by
  simp [runOneBlock, State.recordRead, State.recordOps, State.storeBlock]

/-- All that one chunk or group of the multi-block path does: memory and the records. -/
theorem runBlockGroup_eq (dir : Direction) (addr : Nat) (s : State) (g : Nat × Nat) :
    runBlockGroup dir addr s g =
      let addrs := blockAddrs addr g.1 g.2
      let r := engineMany s.cfg dir s.rk s.variant.rounds (addrs.map s.mem.readBlock)
      { s with
        mem := s.mem.writeBlocks (addrs.zip r.val)
        bus := s.bus ++ (addrs.map fun a => ⟨.read, a, Config.blockBytes⟩) ++
          (addrs.zip r.val).map fun ab => ⟨.write, ab.1, Config.blockBytes⟩
        unitOps := s.unitOps ++ .request (manyRequest s.cfg.engine dir) :: r.ops } := by
  simp [runBlockGroup, State.storeBlocks_eq, State.recordReads, State.recordOps, blockAddrs]

/-- The multi-block path changes memory and the records only. -/
theorem runBlocks_frame (dir : Direction) (addr n : Nat) (s : State) :
    ∃ mem bus unitOps, runBlocks dir addr n s = { s with mem, bus, unitOps } := by
  unfold runBlocks
  generalize groups (groupSize s.cfg) n = gs
  suffices h : ∀ t : State, (∃ mem bus unitOps, t = { s with mem, bus, unitOps }) →
      ∃ mem bus unitOps, gs.foldl (runBlockGroup dir addr) t = { s with mem, bus, unitOps } from
    h s ⟨s.mem, s.bus, s.unitOps, rfl⟩
  induction gs with
  | nil => exact fun t ht => ht
  | cons g gs ih =>
    rintro t ⟨m, b, u, rfl⟩
    refine ih _ ?_
    rw [runBlockGroup_eq]
    exact ⟨_, _, _, rfl⟩

end Sys2Proof.Machine
end

