-- ==== Sys2Proof/Laws/Host.lean ====
section
/-! SUPPORT. What each action of the host can do, once. -/

namespace Sys2Proof.Machine

/-- All that an offer of a descriptor can do when it is taken. -/
theorem State.issue_next {s t : State} {d : BitVec 128} (h : s.issue d = .next t) :
    s.port = none ∧ t = s.withDescriptor d := by
  unfold State.issue at h
  split at h
  · next hp => cases h; exact ⟨hp, rfl⟩
  · cases h

/-- An offer to an empty port is taken. -/
theorem State.issue_empty {s : State} {d : BitVec 128} (h : s.port = none) :
    s.issue d = .next (s.withDescriptor d) := by
  simp [State.issue, h]

/-- An offer to an occupied port is refused. -/
theorem State.issue_occupied {s : State} {d : BitVec 128} {r : Request} (h : s.port = some r) :
    s.issue d = .refused .portOccupied := by
  simp [State.issue, h]

/-- All that the reset event can do when it takes place. -/
theorem State.resetEvent_next {s t : State} (h : s.resetEvent = .next t) : s.port = none ∧ t = s.afterReset := by
  unfold State.resetEvent at h
  split at h
  · next hp => cases h; exact ⟨hp, rfl⟩
  · cases h

/-- With no word waiting the reset event takes place. -/
theorem State.resetEvent_idle {s : State} (h : s.port = none) : s.resetEvent = .next s.afterReset := by
  simp [State.resetEvent, h]

/-- With no word waiting the core owns no byte. -/
theorem State.owns_idle {s : State} (h : s.port = none) (kind : AccessKind) (addr : Nat) :
    s.owns kind addr = false := by
  simp [State.owns, State.ownedBuffer, h]

/-- All that an access of the host can do when it is allowed. -/
theorem State.hostAccess_next {α : Type} {s : State} {kind : AccessKind} {addr : Nat} {x y : α}
    (h : s.hostAccess kind addr x = .next y) : addr < 2 ^ Config.addressBits ∧ s.owns kind addr = false ∧ y = x := by
  unfold State.hostAccess at h
  split at h
  · cases h
  · next ha =>
    split at h
    · cases h
    · next ho => cases h; exact ⟨Nat.lt_of_not_le ha, by simpa using ho, rfl⟩

/-- An access of the host to a byte that exists and is its own. -/
theorem State.hostAccess_own {α : Type} {s : State} {kind : AccessKind} {addr : Nat} {x : α}
    (ha : addr < 2 ^ Config.addressBits) (ho : s.owns kind addr = false) : s.hostAccess kind addr x = .next x := by
  simp [State.hostAccess, Nat.not_le.2 ha, ho]

/-- An access of the host to a byte that belongs to the core. -/
theorem State.hostAccess_owned {α : Type} {s : State} {kind : AccessKind} {addr : Nat} {x : α}
    (ha : addr < 2 ^ Config.addressBits) (ho : s.owns kind addr = true) :
    s.hostAccess kind addr x = .refused .bufferOwned := by
  simp [State.hostAccess, Nat.not_le.2 ha, ho]

/-- A host write that is allowed keeps the canonical form. -/
theorem State.hostWrite_wf {s t : State} {addr : Nat} {v : Byte} (hw : s.mem.wf = true)
    (h : s.hostWrite addr v = .next t) : t.mem.wf = true := by
  obtain ⟨ha, _, rfl⟩ := State.hostAccess_next h
  exact Memory.wf_write ha hw

end Sys2Proof.Machine
end

