-- ==== Sys2Proof/Laws/PerInstr.lean ====
section
/-! SUPPORT. For each instruction: its word carries the fixed bits of its row of the opcode table
(30_encoding.md R66, R68 to R70). -/

namespace Sys2Proof

/-- The control word of a descriptor built from its fields (30_encoding.md R61). -/
theorem descCtrl_descriptor (addr len : Nat) (variant : BitVec 2) (op : BitVec 4) :
    descCtrl (descriptor addr len variant op) = (0 : BitVec 26) ++ variant ++ op := by
  refine BitVec.eq_of_getLsbD_eq fun i hi => ?_
  simp only [descCtrl, descriptor, BitVec.getLsbD_extractLsb', BitVec.getLsbD_append, hi, decide_true, Bool.true_and,
    Nat.zero_add]
  by_cases h4 : i < 4
  · simp [h4]
  · by_cases h6 : i - 4 < 2
    · simp [h4, h6]
    · have h : i - 4 - 2 < 26 := by omega
      simp [h4, h6, h]

/-- The length field of a descriptor built from its fields (30_encoding.md R61). -/
theorem lenField_descriptor (addr len : Nat) (variant : BitVec 2) (op : BitVec 4) :
    (descriptor addr len variant op).extractLsb' 32 32 = BitVec.ofNat 32 len := by
  refine BitVec.eq_of_getLsbD_eq fun i hi => ?_
  simp only [descriptor, BitVec.getLsbD_extractLsb', BitVec.getLsbD_append, hi, decide_true, Bool.true_and]
  have h4 : ¬(32 + i < 4) := by omega
  have h6 : ¬(32 + i - 4 < 2) := by omega
  have h32 : ¬(32 + i - 4 - 2 < 26) := by omega
  have he : 32 + i - 4 - 2 - 26 = i := by omega
  simp [h4, h6, h32, he, hi]

namespace Laws.FixedBits

/-- A descriptor with this `CTRL` and, where `noLength`, no `LEN` (30_encoding.md R66). -/
def IsDescriptor (ctrl : BitVec 32) (noLength : Bool) (r : Request) : Prop :=
  ∃ d, r = .cmd d ∧ descCtrl d = ctrl ∧ (noLength = true → d.extractLsb' 32 32 = 0)

/-- A read of the ROM with this `INV` bit, of this byte (30_encoding.md R70). -/
def IsRomRead (inverse : Bool) (x : Byte) (r : Request) : Prop :=
  ∃ a, r = .srom a ∧ a.getLsbD 8 = inverse ∧ a.extractLsb' 0 8 = x

/-- The word of an instruction is on the port of its format and carries the fixed bits of its row. -/
def Statement : Instr → Prop
  | i@(.keysetup128 _ _) => IsDescriptor 0x00000001 false (encode i)
  | i@(.keysetup192 _ _) => IsDescriptor 0x00000011 false (encode i)
  | i@(.keysetup256 _ _) => IsDescriptor 0x00000021 false (encode i)
  | i@(.encb _) => IsDescriptor 0x00000002 true (encode i)
  | i@(.decb _) => IsDescriptor 0x00000003 true (encode i)
  | i@(.encbs _ _) => IsDescriptor 0x00000004 false (encode i)
  | i@(.decbs _ _) => IsDescriptor 0x00000005 false (encode i)
  | i@.pEnc1 => encode i = .ereq 0x02
  | i@.pDec1 => encode i = .ereq 0x03
  | i@.pEnc8 => encode i = .ereq 0x04
  | i@.pDec8 => encode i = .ereq 0x05
  | i@.aEnc1 => encode i = .ereq 0x12
  | i@.aDec1 => encode i = .ereq 0x13
  | i@.aEncN => encode i = .ereq 0x14
  | i@.aDecN => encode i = .ereq 0x15
  | i@.rndArk => encode i = .rsel 0
  | i@.rndEnc => encode i = .rsel 1
  | i@.rndEncLast => encode i = .rsel 2
  | i@.rndDec => encode i = .rsel 3
  | i@.rndDecLast => encode i = .rsel 4
  | i@(.sboxFwd x) => IsRomRead false x (encode i)
  | i@(.sboxInv y) => IsRomRead true y (encode i)

/-- The descriptors of the seven commands. -/
theorem isDescriptor {addr len : Nat} {variant : BitVec 2} {op : BitVec 4} {ctrl : BitVec 32} {noLength : Bool}
    (hc : (0 : BitVec 26) ++ variant ++ op = ctrl) (hl : noLength = true → len = 0) :
    IsDescriptor ctrl noLength (.cmd (descriptor addr len variant op)) := by
  refine ⟨_, rfl, (descCtrl_descriptor ..).trans hc, fun h => ?_⟩
  rw [lenField_descriptor, hl h]; rfl

theorem keysetup128 (addr len : Nat) : Statement (.keysetup128 addr len) := isDescriptor rfl nofun
theorem keysetup192 (addr len : Nat) : Statement (.keysetup192 addr len) := isDescriptor rfl nofun
theorem keysetup256 (addr len : Nat) : Statement (.keysetup256 addr len) := isDescriptor rfl nofun
theorem encb (addr : Nat) : Statement (.encb addr) := isDescriptor rfl fun _ => rfl
theorem decb (addr : Nat) : Statement (.decb addr) := isDescriptor rfl fun _ => rfl
theorem encbs (addr n : Nat) : Statement (.encbs addr n) := isDescriptor rfl nofun
theorem decbs (addr n : Nat) : Statement (.decbs addr n) := isDescriptor rfl nofun
theorem pEnc1 : Statement .pEnc1 := rfl
theorem pDec1 : Statement .pDec1 := rfl
theorem pEnc8 : Statement .pEnc8 := rfl
theorem pDec8 : Statement .pDec8 := rfl
theorem aEnc1 : Statement .aEnc1 := rfl
theorem aDec1 : Statement .aDec1 := rfl
theorem aEncN : Statement .aEncN := rfl
theorem aDecN : Statement .aDecN := rfl
theorem rndArk : Statement .rndArk := rfl
theorem rndEnc : Statement .rndEnc := rfl
theorem rndEncLast : Statement .rndEncLast := rfl
theorem rndDec : Statement .rndDec := rfl
theorem rndDecLast : Statement .rndDecLast := rfl
theorem sboxFwd (x : Byte) : Statement (.sboxFwd x) := ⟨_, rfl, by revert x; decide, by revert x; decide⟩
theorem sboxInv (y : Byte) : Statement (.sboxInv y) := ⟨_, rfl, by revert y; decide, by revert y; decide⟩

end Laws.FixedBits

end Sys2Proof
end

