-- ==== Sys2Proof/Laws/Units.lean ====
section
/-! SUPPORT. What each shared operation of the internal units can do, once. -/

namespace Sys2Proof.Machine

/-- A round-unit operation in an instance with the unit: `S`, the record, and the port; nothing else. -/
theorem roundUnitStep_present {sel : RndSel} {s : State} (h : s.cfg.targetHasRoundUnit = true) :
    roundUnitStep sel s =
      .next (({ s.accept with unitS := roundUnit sel s.unitS s.unitK }).recordOps (roundUnitOps sel)) := by
  simp [roundUnitStep, h]

/-- A round-unit operation in an instance without the unit. -/
theorem roundUnitStep_absent {sel : RndSel} {s : State} (h : s.cfg.targetHasRoundUnit = false) :
    roundUnitStep sel s = .refused .roundUnitAbsent := by
  simp [roundUnitStep, h]

/-- All that a round-unit operation can do when it answers a next state. -/
theorem roundUnitStep_next {sel : RndSel} {s t : State} (h : roundUnitStep sel s = .next t) :
    s.cfg.targetHasRoundUnit = true ∧
      t = ({ s.accept with unitS := roundUnit sel s.unitS s.unitK }).recordOps (roundUnitOps sel) := by
  cases hc : s.cfg.targetHasRoundUnit with
  | false => rw [roundUnitStep_absent hc] at h; cases h
  | true => rw [roundUnitStep_present hc] at h; cases h; exact ⟨rfl, rfl⟩

/-- All that a ROM read can do. -/
theorem romStep_next {inverse : Bool} {value : Byte} {s t : State} (h : romStep inverse value s = .next t) :
    t = ({ s.accept with romOut := value }).recordOps [.romReads inverse 1] := by
  cases h; rfl

/-- All that a one-block request to the Accelerated engine can do when it answers a next state. -/
theorem accelOneStep_next {dir : Direction} {s t : State} (h : accelOneStep dir s = .next t) :
    s.cfg.engine = .accel ∧
      t = ({ s.accept with
        reqBlock := (accelOne dir s.rk s.variant.rounds s.reqBlock).val
        unitS := (accelOne dir s.rk s.variant.rounds s.reqBlock).val
        unitK := Config.freeBlock s.freeCount 1
        freeCount := s.freeCount + 1 }).recordOps (accelOne dir s.rk s.variant.rounds s.reqBlock).ops := by
  unfold accelOneStep at h
  split at h
  · cases h
  · next he => cases h; exact ⟨he, rfl⟩

/-- All that an n-block request to the Accelerated engine can do when it answers a next state. -/
theorem accelManyStep_next {dir : Direction} {s t : State} (h : accelManyStep dir s = .next t) :
    s.cfg.engine = .accel ∧
      t = ({ s.accept with
        reqBlocks := (accelMany dir s.rk s.variant.rounds s.cfg.pipe s.reqBlocks).val
        unitS := Config.freeBlock s.freeCount 0
        unitK := Config.freeBlock s.freeCount 1
        freeCount := s.freeCount + 1 }).recordOps
          (accelMany dir s.rk s.variant.rounds s.cfg.pipe s.reqBlocks).ops := by
  unfold accelManyStep at h
  split at h
  · cases h
  · next he => cases h; exact ⟨he, rfl⟩

/-- All that a one-block request to the Portable engine can do when it answers a next state. -/
theorem portableOneStep_next {dir : Direction} {s t : State} (h : portableOneStep dir s = .next t) :
    s.cfg.engine = .portable ∧
      t = ({ s.accept with
        reqBlock := (portableOne dir s.rk s.variant.rounds s.cfg.filler s.reqBlock).val }).recordOps
          (portableOne dir s.rk s.variant.rounds s.cfg.filler s.reqBlock).ops := by
  unfold portableOneStep at h
  split at h
  · cases h
  · next he => cases h; exact ⟨he, rfl⟩

/-- All that an eight-block request to the Portable engine can do when it answers a next state. -/
theorem portableBatchStep_next {dir : Direction} {s t : State} (h : portableBatchStep dir s = .next t) :
    s.cfg.engine = .portable ∧
      t = ({ s.accept with
        reqBatch := (portableBatch dir s.rk s.variant.rounds s.reqBatch).val }).recordOps
          (portableBatch dir s.rk s.variant.rounds s.reqBatch).ops := by
  unfold portableBatchStep at h
  split at h
  · cases h
  · next he => cases h; exact ⟨he, rfl⟩

/-- All that a rejected word can do when it answers a next state: it was a descriptor, and the answer is
`IllegalCommand`. -/
theorem rejectWord_next {e : Rejected} {s t : State} (h : rejectWord e s = .next t) :
    (∃ c, e = .illegal c) ∧ t = s.accept.respond .illegalCommand := by
  cases e with
  | illegal c => cases h; exact ⟨⟨c, rfl⟩, rfl⟩
  | reservedEreq => cases h
  | reservedRsel => cases h

/-- A step with no word waiting. -/
theorem step_idle {s : State} (h : s.port = none) : step s = .next s := by
  simp [step, h]

/-- All that a step can do when it answers a next state: wait, run the decoded instruction, or answer
`IllegalCommand`. -/
theorem step_next {s t : State} (h : step s = .next t) :
    (s.port = none ∧ t = s) ∨
    (∃ r i, s.port = some r ∧ decode r = .ok i ∧ exec i s = .next t) ∨
    (∃ r c, s.port = some r ∧ decode r = .error (.illegal c) ∧ t = s.accept.respond .illegalCommand) := by
  unfold step at h
  split at h
  · next hp => cases h; exact .inl ⟨hp, rfl⟩
  · next r hp =>
    split at h
    · next i hd => exact .inr (.inl ⟨r, i, hp, hd, h⟩)
    · next e hd =>
      obtain ⟨⟨c, rfl⟩, ht⟩ := rejectWord_next h
      exact .inr (.inr ⟨r, c, hp, hd, ht⟩)

end Sys2Proof.Machine
end

