-- ==== Sys2Proof/Tests/Slice0.lean ====
section
/-! SUPPORT. Small tests of the model, each expected value from spec/, and for each statement with hypotheses a
concrete case that meets them. -/

namespace Sys2Proof.Tests

open Sys2Proof.Machine

/-! ### Helpers -/

/-- A block from its 32 hexadecimal digits read as one number, byte 0 first (00_scope.md R11). -/
def blk (n : Nat) : Block := blockOf fun p => BitVec.ofNat 8 (n >>> (8 * (15 - p)))

/-- The key `00 01 02 ...` of 95_test_vectors.md V1, V3 to V5. -/
def key (n : Nat) : List Byte := (List.range n).map fun i => BitVec.ofNat 8 i

/-- Plaintext and AES-128 ciphertext of 95_test_vectors.md V1. -/
def plain : Block := blk 0x00112233445566778899aabbccddeeff
def crypt : Block := blk 0x69c4e0d86a7b0430d8cdb78070b4c55a

/-- The instance with the Portable engine and a filler that is not zero. -/
def portableConfig : Config := { Config.initial with forcePortable := true, filler := blk 0xa5 }

/-- An instance with `PIPE = 3` whose platform refuses buffers that touch the 16 bytes at 0x4000 for writing. -/
def guardedConfig : Config :=
  { Config.initial with pipeExtra := 2, refusedBuffers := [.touching .write 0x4000 16] }

/-- A context keyed with the key of V1, and a byte sequence in memory. -/
def keyed (c : Config) (addr : Nat) (bytes : List Byte) : State :=
  { State.reset with
    cfg := c
    keyValid := true
    rk := keySchedule .aes128 (key 16)
    mem := Memory.writeBytes [] addr bytes }

/-- The state after reset with a byte sequence in memory. -/
def unkeyed (c : Config) (addr : Nat) (bytes : List Byte) : State :=
  { State.reset with
    cfg := c
    mem := Memory.writeBytes [] addr bytes }

/-- The outcome is a next state, and it satisfies a check. -/
def after (o : Host.Outcome State Fault Refusal) (p : State → Bool) : Bool :=
  match o with
  | .next t => p t
  | .fault _ => false
  | .refused _ => false

/-! ### WellFormed: one ill-formed term for each check -/

theorem test_wf_keysetup128_addr : (Instr.keysetup128 (2 ^ 64) 16).wellFormed = false := by decide
theorem test_wf_keysetup128_len : (Instr.keysetup128 0 (2 ^ 32)).wellFormed = false := by decide
theorem test_wf_keysetup192_addr : (Instr.keysetup192 (2 ^ 64) 24).wellFormed = false := by decide
theorem test_wf_keysetup192_len : (Instr.keysetup192 0 (2 ^ 32)).wellFormed = false := by decide
theorem test_wf_keysetup256_addr : (Instr.keysetup256 (2 ^ 64) 32).wellFormed = false := by decide
theorem test_wf_keysetup256_len : (Instr.keysetup256 0 (2 ^ 32)).wellFormed = false := by decide
theorem test_wf_encb : (Instr.encb (2 ^ 64)).wellFormed = false := by decide
theorem test_wf_decb : (Instr.decb (2 ^ 64)).wellFormed = false := by decide
theorem test_wf_encbs_addr : (Instr.encbs (2 ^ 64) 0).wellFormed = false := by decide
theorem test_wf_encbs_len : (Instr.encbs 0 (2 ^ 32)).wellFormed = false := by decide
theorem test_wf_decbs_addr : (Instr.decbs (2 ^ 64) 0).wellFormed = false := by decide
theorem test_wf_decbs_len : (Instr.decbs 0 (2 ^ 32)).wellFormed = false := by decide

/-! ### Decoding, from words of 96_test_vectors_families.md V17 and 30_encoding.md R68 to R70 -/

theorem test_decode_keysetup128 :
    decode (.cmd 0x00000000000010000000000f00000001) = .ok (.keysetup128 0x1000 15) := by decide
theorem test_decode_keysetup192 :
    decode (.cmd 0x00000000000010000000001800000011) = .ok (.keysetup192 0x1000 24) := by decide
theorem test_decode_keysetup256 :
    decode (.cmd 0x00000000000010000000002000000021) = .ok (.keysetup256 0x1000 32) := by decide
theorem test_decode_encb : decode (.cmd 0x00000000000020000000000000000002) = .ok (.encb 0x2000) := by decide
theorem test_decode_decb : decode (.cmd 0x00000000000020000000000000000003) = .ok (.decb 0x2000) := by decide
theorem test_decode_encbs : decode (.cmd 0xffffffffffffffff0000000000000004) = .ok (.encbs (2 ^ 64 - 1) 0) := by decide
theorem test_decode_decbs : decode (.cmd 0x0000000000000000ffffffff00000005) = .ok (.decbs 0 4294967295) := by decide
theorem test_decode_ereq :
    decode (.ereq 0b00010) = .ok .pEnc1 ∧ decode (.ereq 0b00011) = .ok .pDec1 ∧
      decode (.ereq 0b00100) = .ok .pEnc8 ∧ decode (.ereq 0b00101) = .ok .pDec8 ∧
      decode (.ereq 0b10010) = .ok .aEnc1 ∧ decode (.ereq 0b10011) = .ok .aDec1 ∧
      decode (.ereq 0b10100) = .ok .aEncN ∧ decode (.ereq 0b10101) = .ok .aDecN := by decide
theorem test_decode_rsel :
    decode (.rsel 0) = .ok .rndArk ∧ decode (.rsel 1) = .ok .rndEnc ∧ decode (.rsel 2) = .ok .rndEncLast ∧
      decode (.rsel 3) = .ok .rndDec ∧ decode (.rsel 4) = .ok .rndDecLast := by decide
theorem test_decode_srom : decode (.srom 0x053) = .ok (.sboxFwd 0x53) ∧ decode (.srom 0x1ed) = .ok (.sboxInv 0xed) := by
  decide

/-- The eleven illegal descriptors of V17. -/
theorem test_decode_illegal :
    decode (.cmd 0x00000000000000000000000000000000) = .error (.illegal .reservedOp) ∧
      decode (.cmd 0x00000000000020000000000000000006) = .error (.illegal .reservedOp) ∧
      decode (.cmd 0x0000000000002000000000000000000f) = .error (.illegal .reservedOp) ∧
      decode (.cmd 0x00000000000010000000001000000031) = .error (.illegal .reservedVariant) ∧
      decode (.cmd 0x00000000000020000000000000000012) = .error (.illegal .blockVariant) ∧
      decode (.cmd 0x00000000000030000000000400000024) = .error (.illegal .blockVariant) ∧
      decode (.cmd 0x00000000000020000000000100000002) = .error (.illegal .unusedLength) ∧
      decode (.cmd 0x00000000000020000000001000000003) = .error (.illegal .unusedLength) ∧
      decode (.cmd 0x00000000000010000000001000000041) = .error (.illegal .reservedBits) ∧
      decode (.cmd 0x00000000000010000000001080000001) = .error (.illegal .reservedBits) ∧
      decode (.cmd 0x00000000000010000000001000000101) = .error (.illegal .reservedBits) := by decide

theorem test_encode_encbs : encode (.encbs 0x2003 3) = .cmd 0x00000000000020030000000300000004 := by decide

theorem test_tableWord :
    decodeTableWord 128 0x00000000000010000000001000000001 = some (.keysetup128 0x1000 16) ∧
      decodeTableWord 8 0x14 = some .aEncN ∧ decodeTableWord 8 0x00 = some .rndArk ∧
      decodeTableWord 3 0x03 = some .rndDec ∧ decodeTableWord 16 0x1ed = some (.sboxInv 0xed) := by decide

theorem test_fetchWord_cmd :
    step (State.reset.withFetchWord 128 0x00000000000020000000000000000002) =
      exec (.encb 0x2000) (State.reset.withFetchWord 128 0x00000000000020000000000000000002) := rfl

theorem test_fetchWord_ereq :
    step (State.reset.withFetchWord 8 0x05) = exec .pDec8 (State.reset.withFetchWord 8 0x05) := rfl

/-! ### One step of each instruction -/

/-- 95_test_vectors.md V3: the last round key, and zero above it. -/
theorem test_keysetup128 :
    after (exec (.keysetup128 0x1000 16) (unkeyed Config.initial 0x1000 (key 16))) (fun t =>
      roundKey t.rk 10 = blk 0x13111d7fe3944a17f307a78b4d2b30c5 ∧ roundKey t.rk 11 = 0 ∧ t.keyValid = true) = true := by
  decide +kernel

/-- V4. -/
theorem test_keysetup192 :
    after (exec (.keysetup192 0x1000 24) (unkeyed Config.initial 0x1000 (key 24))) (fun t =>
      roundKey t.rk 12 = blk 0xa4970a331a78dc09c418c271e3a41d5d ∧ t.variant = .aes192) = true := by
  decide +kernel

/-- V5. -/
theorem test_keysetup256 :
    after (exec (.keysetup256 0x1000 32) (unkeyed Config.initial 0x1000 (key 32))) (fun t =>
      roundKey t.rk 14 = blk 0x24fc79ccbf0979e9371ac23c6d68de36 ∧ t.variant = .aes256) = true := by
  decide +kernel

/-- 95_test_vectors.md V2, 96_test_vectors_families.md V18. -/
theorem test_keysetup128_faults :
    after (exec (.keysetup128 0x1000 15) State.reset) (fun t => t.response = some 1) = true ∧
      after (exec (.keysetup128 0xfffffffffffffff1 16) State.reset) (fun t => t.response = some 4) = true ∧
      after (exec (.keysetup128 0xfffffffffffffff1 15) State.reset) (fun t => t.response = some 1) = true := by decide

/-- V1, at an unaligned address as in V19. -/
theorem test_encb :
    after (exec (.encb 0x2003) (keyed Config.initial 0x2003 (bytesOfBlock plain)))
      (fun t => t.mem.readBlock 0x2003 = crypt ∧ t.response = some 0) = true := by
  decide +kernel

theorem test_decb :
    after (exec (.decb 0x2003) (keyed Config.initial 0x2003 (bytesOfBlock crypt)))
      (fun t => t.mem = Memory.writeBytes [] 0x2003 (bytesOfBlock plain)) = true := by
  decide +kernel

/-- V1 in the second of two blocks, `PIPE = 3`. -/
theorem test_encbs :
    after (exec (.encbs 0x2000 2) (keyed guardedConfig 0x2010 (bytesOfBlock plain)))
      (fun t => t.mem.readBlock 0x2010 = crypt) = true := by
  decide +kernel

theorem test_decbs :
    after (exec (.decbs 0x2000 2) (keyed guardedConfig 0x2010 (bytesOfBlock crypt)))
      (fun t => t.mem.readBlock 0x2010 = plain) = true := by
  decide +kernel

/-- V18: the key check first, then the buffer check. -/
theorem test_block_faults :
    after (exec (.decbs 0x1000 0) State.reset) (fun t => t.response = some 3) = true ∧
      after (exec (.encb 0xfffffffffffffff8) State.reset) (fun t => t.response = some 3) = true ∧
      after (exec (.encb 0xfffffffffffffff1) (keyed Config.initial 0 [])) (fun t => t.response = some 4) = true ∧
      after (exec (.encbs 0xffffffffffffffe0 3) (keyed Config.initial 0 [])) (fun t => t.response = some 4) = true ∧
      after (exec (.encbs 0xffffffffffffffff 0) (keyed Config.initial 0 [])) (fun t => t.response = some 0) = true := by
  decide +kernel

/-- 43_portable_engine.md R194, R196: one circuit evaluation in each of the ten rounds. -/
theorem test_pEnc1 :
    after (exec .pEnc1 { keyed portableConfig 0 [] with reqBlock := plain })
      (fun t => t.unitOps = List.replicate 10 (.circuit false)) = true := by
  decide +kernel

theorem test_pDec1 :
    after (exec .pDec1 { keyed portableConfig 0 [] with reqBlock := crypt })
      (fun t => t.unitOps = List.replicate 10 (.circuit true)) = true := by
  decide +kernel

/-- Lanes 0 and 7 of 96_test_vectors_families.md V15, before and after. -/
def lanes : Oct Block := ⟨blk 0x000102030405060708090a0b0c0d0e0f, 1, 2, 3, 4, 5, 6, blk 0x707172737475767778797a7b7c7d7e7f⟩
def lanesEnc : Oct Block := ⟨blk 0x0a940bb5416ef045f1c39458c653ea5a, 1, 2, 3, 4, 5, 6, blk 0x3d2d90dcef49d32822298b878f815581⟩

theorem test_pEnc8 :
    after (exec .pEnc8 { keyed portableConfig 0 [] with reqBatch := lanes })
      (fun t => t.reqBatch.c0 = lanesEnc.c0 ∧ t.reqBatch.c7 = lanesEnc.c7) = true := by
  decide +kernel

theorem test_pDec8 :
    after (exec .pDec8 { keyed portableConfig 0 [] with reqBatch := lanesEnc })
      (fun t => t.reqBatch.c0 = lanes.c0 ∧ t.reqBatch.c7 = lanes.c7) = true := by
  decide +kernel

theorem test_aEnc1 :
    after (exec .aEnc1 { keyed Config.initial 0 [] with reqBlock := plain })
      (fun t => t.reqBlock = crypt ∧ t.unitS = crypt ∧ t.unitOps.length = 21) = true := by
  decide +kernel

theorem test_aDec1 :
    after (exec .aDec1 { keyed Config.initial 0 [] with reqBlock := crypt }) (fun t => t.reqBlock = plain) = true := by
  decide +kernel

theorem test_aEncN :
    after (exec .aEncN { keyed Config.initial 0 [] with reqBlocks := [plain] })
      (fun t => t.reqBlocks = [crypt]) = true := by
  decide +kernel

theorem test_aDecN :
    after (exec .aDecN { keyed Config.initial 0 [] with reqBlocks := [crypt] })
      (fun t => t.reqBlocks = [plain]) = true := by
  decide +kernel

/-- The round-unit operations: 96_test_vectors_families.md V16. -/
def unit (S K : Nat) : State := { State.reset with unitS := blk S, unitK := blk K }

theorem test_rndArk :
    after (exec .rndArk (unit 0x00112233445566778899aabbccddeeff 0x000102030405060708090a0b0c0d0e0f))
      (fun t => t.unitS = blk 0x00102030405060708090a0b0c0d0e0f0) = true := by decide +kernel

theorem test_rndEnc :
    after (exec .rndEnc (unit 0x00102030405060708090a0b0c0d0e0f0 0xd6aa74fdd2af72fadaa678f1d6ab76fe))
      (fun t => t.unitS = blk 0x89d810e8855ace682d1843d8cb128fe4) = true := by decide +kernel

theorem test_rndEncLast :
    after (exec .rndEncLast (unit 0xbd6e7c3df2b5779e0b61216e8b10b689 0x13111d7fe3944a17f307a78b4d2b30c5))
      (fun t => t.unitS = blk 0x69c4e0d86a7b0430d8cdb78070b4c55a) = true := by decide +kernel

theorem test_rndDec :
    after (exec .rndDec (unit 0x7ad5fda789ef4e272bca100b3d9ff59f 0x549932d1f08557681093ed9cbe2c974e))
      (fun t => t.unitS = blk 0x54d990a16ba09ab596bbf40ea111702f) = true := by decide +kernel

theorem test_rndDecLast :
    after (exec .rndDecLast (unit 0x6353e08c0960e104cd70b751bacad0e7 0x000102030405060708090a0b0c0d0e0f))
      (fun t => t.unitS = blk 0x00112233445566778899aabbccddeeff) = true := by decide +kernel

/-- 41_sbox.md R124. -/
theorem test_sboxFwd : after (exec (.sboxFwd 0x53) State.reset) (fun t => t.romOut = 0xed) = true := by decide
theorem test_sboxInv : after (exec (.sboxInv 0xed) State.reset) (fun t => t.romOut = 0x53) = true := by decide

theorem witness_PortableEngineComputesCipher : 0 < 8 ∧ 7 < 8 := by decide

/-! ### Cases that meet the hypotheses of the statements, at the ends of their ranges -/

theorem witness_DecodeOfEncode :
    (Instr.keysetup256 (2 ^ 64 - 1) (2 ^ 32 - 1)).wellFormed = true ∧ (Instr.encb 0).wellFormed = true ∧
      Instr.aDecN.wellFormed = true ∧ (Instr.sboxInv 0xff).wellFormed = true := by decide

theorem witness_EncodeOfDecode :
    decode (.cmd 0xffffffffffffffffffffffff00000005) = .ok (.decbs (2 ^ 64 - 1) (2 ^ 32 - 1)) ∧
      decode (.ereq 0b00010) = .ok .pEnc1 ∧ decode (.rsel 4) = .ok .rndDecLast ∧
      decode (.srom 0x1ff) = .ok (.sboxInv 0xff) := by decide

/-- One descriptor for each cause, with the first and last reserved `OP`, and a legal one. -/
theorem witness_IllegalDescriptorsExactly :
    (State.reset.withDescriptor 0x00000000000010000000001080000001).port = some (.cmd 0x00000000000010000000001080000001) ∧
      IllegalDescriptor 0x00000000000010000000001080000001 ∧ IllegalDescriptor 0 ∧ IllegalDescriptor 6 ∧
      IllegalDescriptor 15 ∧ IllegalDescriptor 0x31 ∧ IllegalDescriptor 0x15 ∧ IllegalDescriptor 0x100000003 ∧
      ¬IllegalDescriptor 0xffffffffffffffffffffffff00000005 := by
  refine ⟨rfl, ?_, ?_, ?_, ?_, ?_, ?_, ?_, ?_⟩ <;> simp only [IllegalDescriptor] <;> decide

theorem witness_StepRunsDecodedInstr :
    ((State.reset.withDescriptor 0x00000000000020000000000000000002).port = some (.cmd 0x00000000000020000000000000000002) ∧
      decode (.cmd 0x00000000000020000000000000000002) = .ok (.encb 0x2000)) ∧ State.reset.port = none := by decide

theorem witness_ReservedInternalWordsRefused :
    ({ State.reset with port := some (.ereq 0b00110) } : State).port = some (.ereq 0b00110) ∧
      ({ State.reset with port := some (.rsel 5) } : State).port = some (.rsel 5) := by decide

theorem witness_KeysetupKeysTheContext :
    State.reset.cfg.admitsKey 0xfffffffffffffff0 16 = true ∧ State.reset.cfg.admitsKey 0xffffffffffffffe8 24 = true ∧
      State.reset.cfg.admitsKey 0xffffffffffffffe0 32 = true ∧ guardedConfig.admitsKey 0x4000 16 = true := by decide

theorem witness_InvalidKeyLengthExactly :
    (IsKeysetup (.keysetup192 0x1000 16) .aes192 0x1000 16 ∧ 16 ≠ Variant.aes192.keyBytes) ∧
      ∃ t, exec (.keysetup128 0xfffffffffffffff1 15) State.reset = .next t ∧ Answers t .invalidKeyLength :=
  ⟨⟨rfl, by decide⟩, _, rfl, rfl⟩

theorem witness_NoKeyExactly :
    (IsBlockCommand (.decbs 0x1000 0) 0x1000 0 ∧ State.reset.keyValid = false) ∧
      (∃ t, exec (.encb 0xfffffffffffffff8) State.reset = .next t ∧ Answers t .noKey) ∧
      (∃ t, step (State.reset.withDescriptor 0x00000000000010000000001000000001) = .next t ∧ t.keyValid = true) :=
  ⟨⟨.inr (.inr rfl), rfl⟩, ⟨_, rfl, rfl⟩, _, rfl, rfl⟩

theorem witness_BufferFaultExactly :
    (IsKeysetup (.keysetup256 0xffffffffffffffe1 32) .aes256 0xffffffffffffffe1 32 ∧
        State.reset.cfg.admitsKey 0xffffffffffffffe1 32 = false) ∧
      (IsBlockCommand (.encbs 0xffffffffffffffe0 3) 0xffffffffffffffe0 3 ∧
        (keyed Config.initial 0 []).cfg.admitsBlocks 0xffffffffffffffe0 (16 * 3) = false) ∧
      (IsBlockCommand (.encb 0x400f) 0x400f 1 ∧ (keyed guardedConfig 0 []).cfg.admitsBlocks 0x400f (16 * 1) = false) ∧
      (∃ t, exec (.encb 0xfffffffffffffff1) (keyed Config.initial 0 []) = .next t ∧ Answers t .bufferFault) :=
  ⟨⟨rfl, by decide⟩, ⟨.inr (.inl rfl), by decide⟩, ⟨.inl ⟨rfl, .inl rfl⟩, by decide⟩, _, rfl, rfl⟩

theorem witness_AdmissionRule : Config.initial.refusedBuffers = [] := rfl

theorem witness_EveryAdmitPredicateHeld : 2 ^ 64 - 1 < 2 ^ 64 ∧ 16 * (2 ^ 32 - 1) < 2 ^ 36 := by decide

theorem witness_FaultChangesNothing :
    ∃ t, step (State.reset.withDescriptor 0x00000000000020000000000000000002) = .next t ∧ ¬Answers t .ok :=
  ⟨_, rfl, by unfold Answers; decide⟩

theorem witness_EveryDescriptorIsAnswered : (State.reset.withDescriptor 0).port = some (.cmd 0) := rfl

theorem witness_OnlyKeysetupWritesContext :
    ∃ t, step ((keyed Config.initial 0 []).withDescriptor 0x00000000000010000000002000000021) = .next t ∧
      (keyed Config.initial 0 []).keyValid = true ∧ t.variant = .aes256 := ⟨_, rfl, rfl, rfl⟩

/-- A buffer that ends at `2^64`, and the empty buffer anywhere. -/
theorem witness_BlockCommandsComplete :
    (keyed portableConfig 0x2000 [1, 2]).mem.wf = true ∧ (keyed portableConfig 0x2000 [1, 2]).keyValid = true ∧
      portableConfig.admitsBlocks 0xfffffffffffffff0 16 = true ∧
      portableConfig.admitsBlocks 0xffffffffffffffe0 (16 * 2) = true ∧
      portableConfig.admitsBlocks 0xffffffffffffffff (16 * 0) = true := by decide +kernel

theorem witness_BatchEqualsSingleCommands :
    (keyed guardedConfig 0x2000 [1, 2]).mem.wf = true ∧ (keyed guardedConfig 0x2000 [1, 2]).keyValid = true ∧
      guardedConfig.admitsBlocks 0xffffffffffffffd0 (16 * 3) = true ∧
      (∀ m < 3, guardedConfig.admitsBlocks (0xffffffffffffffd0 + 16 * m) 16 = true) ∧
      [2, 0, 1].Perm (List.range 3) := by decide +kernel

theorem witness_SplitSliceGivesSameMemory :
    (keyed guardedConfig 0x2000 [1, 2]).mem.wf = true ∧ (keyed guardedConfig 0x2000 [1, 2]).keyValid = true ∧
      guardedConfig.admitsBlocks 0xffffffffffffffd0 (16 * (2 + 1)) = true ∧
      guardedConfig.admitsBlocks 0xffffffffffffffd0 (16 * 2) = true ∧
      guardedConfig.admitsBlocks (0xffffffffffffffd0 + 16 * 2) (16 * 1) = true := by decide +kernel

theorem witness_RoundTripRestoresMemory :
    (keyed Config.initial 0x2000 [1, 2]).mem.wf = true ∧ (keyed Config.initial 0x2000 [1, 2]).keyValid = true ∧
      Config.initial.admitsBlocks 0xfffffffffffffff0 16 = true ∧
      Config.initial.admitsBlocks 0 (16 * (2 ^ 32 - 1)) = true := by decide +kernel

theorem witness_BlockAccessesInOrder :
    (∃ t, exec (.decb 0xfffffffffffffff0) (keyed portableConfig 0x2000 [1]) = .next t ∧ Answers t .ok) ∧
      (∃ t, exec (.encbs 0x2000 2) (keyed guardedConfig 0x2000 [1]) = .next t ∧ Answers t .ok) ∧
      (∃ t, exec (.decbs 0x2000 0) (keyed portableConfig 0x2000 [1]) = .next t ∧ Answers t .ok) :=
  ⟨⟨_, rfl, rfl⟩, ⟨_, rfl, rfl⟩, _, rfl, rfl⟩

theorem witness_EngineRequestCount :
    (∃ t, exec (.encb 0x2000) (keyed portableConfig 0x2000 [1]) = .next t ∧ Answers t .ok) ∧
      (∃ t, exec (.decb 0x2000) (keyed guardedConfig 0x2000 [1]) = .next t ∧ Answers t .ok) ∧
      (∃ t, exec (.encbs 0x2000 4) (keyed guardedConfig 0x2000 [1]) = .next t ∧ Answers t .ok) ∧
      (∃ t, exec (.decbs 0x2000 9) (keyed portableConfig 0x2000 [1]) = .next t ∧ Answers t .ok) :=
  ⟨⟨_, rfl, rfl⟩, ⟨_, rfl, rfl⟩, ⟨_, rfl, rfl⟩, _, rfl, rfl⟩

theorem witness_EnginesBehaveIdentically :
    isCommand (.encbs 0x2000 9) = true ∧ (keyed Config.initial 0x2000 [1]).mem.wf = true ∧
      SameButEngine (keyed Config.initial 0x2000 [1]) (keyed portableConfig 0x2000 [1]) ∧
      Config.initial.engine ≠ portableConfig.engine :=
  ⟨rfl, by decide +kernel, ⟨⟨rfl, rfl, rfl⟩, rfl, rfl⟩, by decide⟩

theorem witness_SecretsDoNotReachTheTrace :
    isCommand (.decbs 0x2000 9) = true ∧
      SamePublic (keyed portableConfig 0x2000 [1])
        { keyed portableConfig 0x2000 [2] with rk := keySchedule .aes128 [9] } ∧
      portableConfig.engine = .portable ∧ guardedConfig.engine = .accel :=
  ⟨rfl, ⟨rfl, rfl, rfl⟩, rfl, rfl⟩

/-- A keyed state with a response meets the invariant, and it steps. -/
theorem witness_StepKeepsInvariant :
    Inv { keyed Config.initial 0x2000 [1] with response := some 0, port := some (.cmd 3) } ∧
      ∃ t, step { keyed Config.initial 0x2000 [1] with response := some 0, port := some (.cmd 3) } = .next t :=
  ⟨⟨by decide +kernel, fun _ => ⟨key 16, rfl, rfl⟩, nofun, fun _ h => ⟨.ok, (Option.some.inj h).symm⟩⟩, _, rfl⟩

theorem witness_HostActionsKeepInvariant :
    Inv State.reset ∧ (∃ t, State.reset.issue 0 = .next t) ∧ (∃ t, State.reset.hostWrite (2 ^ 64 - 1) 1 = .next t) ∧
      ∃ t, State.reset.resetEvent = .next t :=
  ⟨⟨rfl, nofun, fun _ => ⟨rfl, rfl⟩, nofun⟩, ⟨_, rfl⟩, ⟨_, rfl⟩, _, rfl⟩

/-- First and last byte of a block buffer that ends at `2^64`, and of a key buffer. -/
theorem witness_OwnedBufferIsKeptOff :
    decode (.cmd 0xffffffffffffffe00000000200000004) = .ok (.encbs 0xffffffffffffffe0 2) ∧
      IsBlockCommand (.encbs 0xffffffffffffffe0 2) 0xffffffffffffffe0 2 ∧
      (State.reset.withDescriptor 0xffffffffffffffe00000000200000004).hostRead (2 ^ 64 - 1) = .refused .bufferOwned ∧
      (State.reset.withDescriptor 0xffffffffffffffe00000000200000004).hostWrite 0xffffffffffffffe0 1 =
        .refused .bufferOwned ∧
      IsKeysetup (.keysetup192 0x1000 24) .aes192 0x1000 24 ∧
      (State.reset.withDescriptor 0x00000000000010000000001800000011).hostWrite 0x1017 1 = .refused .bufferOwned ∧
      (State.reset.withDescriptor 0x00000000000010000000001800000011).hostRead 0x1017 = .next 0 :=
  ⟨by decide, .inr (.inl rfl), rfl, rfl, rfl, rfl, rfl⟩

/-- The bytes just outside a buffer, and any byte when no word waits. -/
theorem witness_HostAccessesOwnMemory :
    State.reset.mem.wf = true ∧ State.reset.port = none ∧
      (∃ t, (State.reset.withDescriptor 0x00000000000010000000001800000011).hostWrite 0x1018 7 = .next t ∧
        t.mem.read 0x1018 = 7) ∧
      (∃ t, (State.reset.withDescriptor 0x00000000000020000000000000000002).hostWrite 0x1fff 7 = .next t) ∧
      State.reset.hostWrite (2 ^ 64) 7 = .refused .noSuchAddress :=
  ⟨rfl, rfl, ⟨_, rfl, by decide⟩, ⟨_, rfl⟩, rfl⟩

theorem witness_PortTakesOneAtATime :
    State.reset.port = none ∧ (State.reset.withDescriptor 0).port = some (.cmd 0) ∧
      (State.reset.withDescriptor 0).issue 3 = .refused .portOccupied := ⟨rfl, rfl, rfl⟩

theorem witness_ResetValues :
    State.reset.port = none ∧ (State.reset.withDescriptor 0).resetEvent = .refused .portOccupied := ⟨rfl, rfl⟩

theorem witness_ConfigurationNeverChanges :
    ∃ t, step { State.reset with port := some (.srom 0x53) } = .next t ∧ t.romOut = 0xed := ⟨_, rfl, rfl⟩

theorem witness_RoundUnitOperations : State.reset.cfg.targetHasRoundUnit = true := rfl

theorem witness_AbsentUnitsRefuse :
    ({ Config.initial with targetHasRoundUnit := false } : Config).targetHasRoundUnit = false ∧
      State.reset.cfg.engine = .accel ∧ portableConfig.engine = .portable := by decide

theorem witness_PortableRequests :
    (keyed portableConfig 0 []).cfg.engine = .portable ∧ (unkeyed portableConfig 0 []).cfg.engine = .portable := by
  decide +kernel

theorem witness_AcceleratedOneBlockRequests : (keyed Config.initial 0 []).cfg.engine = .accel := rfl

theorem witness_AcceleratedManyBlockRequests :
    ({ keyed guardedConfig 0 [] with reqBlocks := [plain, crypt, 0, plain] } : State).cfg.engine = .accel ∧
      State.reset.cfg.engine = .accel ∧ State.reset.reqBlocks = [] := ⟨rfl, rfl, rfl⟩

theorem witness_FieldLaws : (0x80 : Byte) ≠ 0x00 ∧ (0x02 : Byte) ≠ 0x00 := by decide

/-- Widths 1 and 128, the last bit position and the last plane. -/
theorem witness_CircuitsComputeTheTables : 0 < 1 ∧ 127 < 128 ∧ 0 < 8 ∧ 7 < 8 := by decide

theorem witness_FieldInverse : (0xff : Byte) ≠ 0x00 ∧ (0x01 : Byte) ≠ 0x00 := by decide

theorem witness_LanesAreIndependent :
    let X : Oct Block := ⟨plain, 1, 2, 3, 4, 5, 6, crypt⟩
    let Y : Oct Block := ⟨plain, 0, 0, 0, 0, 0, 0, crypt⟩
    X ≠ Y ∧ X.get 0 = Y.get 0 ∧ X.get 7 = Y.get 7 := by decide +kernel

theorem witness_FirstRoundKeysAreTheKey :
    (key 16).length = Variant.aes128.keyBytes ∧ (key 24).length = Variant.aes192.keyBytes ∧
      (key 32).length = Variant.aes256.keyBytes := by decide

theorem witness_RoundKeysFromWords : 0 ≤ Variant.aes128.rounds ∧ Variant.aes256.rounds < 15 ∧
    Variant.aes192.rounds < 13 := by decide

end Sys2Proof.Tests
end

/-! ## The tier 1 and tier 2 statements of 00_scope.md -/

namespace Sys2Proof.Machine

/-- A step with a word waiting that decodes to an instruction. -/
theorem step_decoded {s : State} {r : Request} {i : Instr} (hp : s.port = some r) (hd : decode r = .ok i) :
    step s = exec i s := by
  simp only [step, hp, hd]

/-- A one-block request to the Portable engine while the other is selected. -/
theorem portableOneStep_notSelected {dir : Direction} {s : State} (h : s.cfg.engine = .accel) :
    portableOneStep dir s = .refused .engineNotSelected := by
  simp only [portableOneStep, h]

/-- An eight-block request to the Portable engine while the other is selected. -/
theorem portableBatchStep_notSelected {dir : Direction} {s : State} (h : s.cfg.engine = .accel) :
    portableBatchStep dir s = .refused .engineNotSelected := by
  simp only [portableBatchStep, h]

/-- A one-block request to the Accelerated engine while the other is selected. -/
theorem accelOneStep_notSelected {dir : Direction} {s : State} (h : s.cfg.engine = .portable) :
    accelOneStep dir s = .refused .engineNotSelected := by
  simp only [accelOneStep, h]

/-- An n-block request to the Accelerated engine while the other is selected. -/
theorem accelManyStep_notSelected {dir : Direction} {s : State} (h : s.cfg.engine = .portable) :
    accelManyStep dir s = .refused .engineNotSelected := by
  simp only [accelManyStep, h]

/-- The rules that refuse, one buffer each, every buffer that `admitted` does not admit among those that start below
`addrs` and have fewer than `counts` bytes. -/
def refusingRules (addrs counts : Nat) (admitted : Nat → Nat → AccessKind → Bool) : List AdmitRule :=
  (List.range addrs).flatMap fun addr => (List.range counts).flatMap fun n =>
    ([.read, .write].filter fun kind => !admitted addr n kind).map fun kind => .shaped kind addr addr n n

theorem mem_refusingRules {addrs counts : Nat} {admitted : Nat → Nat → AccessKind → Bool} {rule : AdmitRule} :
    rule ∈ refusingRules addrs counts admitted ↔
      ∃ addr < addrs, ∃ n < counts, ∃ kind,
        admitted addr n kind = false ∧ .shaped kind addr addr n n = rule := by
  have hkind (kind : AccessKind) : kind ∈ [AccessKind.read, .write] := by cases kind <;> decide
  simp only [refusingRules, List.mem_flatMap, List.mem_range, List.mem_map, List.mem_filter, hkind, true_and,
    Bool.not_eq_true']

/-- A rule for one buffer refuses that buffer and no other. -/
theorem refuses_singleBuffer (kind kind' : AccessKind) (addr addr' n n' : Nat) :
    (AdmitRule.shaped kind addr addr n n).refuses addr' n' kind' = true ↔
      kind = kind' ∧ addr = addr' ∧ n = n' := by
  simp only [AdmitRule.refuses, Bool.and_eq_true, decide_eq_true_eq]
  constructor
  · rintro ⟨⟨⟨⟨rfl, h1⟩, h2⟩, h3⟩, h4⟩
    exact ⟨rfl, Nat.le_antisymm h1 h2, Nat.le_antisymm h3 h4⟩
  · rintro ⟨rfl, rfl, rfl⟩
    simp

/-- A buffer is refused by the rules exactly when the predicate refuses it. -/
theorem any_refusingRules {addrs counts addr n : Nat} (admitted : Nat → Nat → AccessKind → Bool)
    (ha : addr < addrs) (hn : n < counts) (kind : AccessKind) :
    ((refusingRules addrs counts admitted).any fun rule => rule.refuses addr n kind) = !admitted addr n kind := by
  rw [Bool.eq_iff_iff, List.any_eq_true, Bool.not_eq_true']
  constructor
  · rintro ⟨rule, hmem, href⟩
    obtain ⟨addr', -, n', -, kind', hadm, rfl⟩ := mem_refusingRules.1 hmem
    obtain ⟨rfl, rfl, rfl⟩ := (refuses_singleBuffer ..).1 href
    exact hadm
  · intro hadm
    exact ⟨_, mem_refusingRules.2 ⟨addr, ha, n, hn, kind, hadm, rfl⟩,
      (refuses_singleBuffer ..).2 ⟨rfl, rfl, rfl⟩⟩

/-- Settles O5: the two branches of `step` that answer with no rejected word. -/
theorem stepRunsDecodedInstr : Obligations.StepRunsDecodedInstr :=
  ⟨fun _ _ _ hp hd => step_decoded hp hd, fun _ h => step_idle h⟩

/-- Settles O34: each of the thirteen internal instructions is one of five shared operations, and each of those
operations refuses when its unit is absent or not in use. -/
theorem absentUnitsRefuse : Obligations.AbsentUnitsRefuse := by
  refine ⟨fun s h i hi => ?_, fun s h i hi => ?_, fun s h i hi => ?_⟩ <;>
    simp only [List.mem_cons, List.not_mem_nil, or_false] at hi
  · rcases hi with rfl | rfl | rfl | rfl | rfl <;> exact roundUnitStep_absent h
  · rcases hi with rfl | rfl | rfl | rfl
    · exact portableOneStep_notSelected h
    · exact portableOneStep_notSelected h
    · exact portableBatchStep_notSelected h
    · exact portableBatchStep_notSelected h
  · rcases hi with rfl | rfl | rfl | rfl
    · exact accelOneStep_notSelected h
    · exact accelOneStep_notSelected h
    · exact accelManyStep_notSelected h
    · exact accelManyStep_notSelected h

/-- Settles O13: the buffers that a descriptor can name are finitely many, so one rule for each refused one will
do. -/
theorem everyAdmitPredicateHeld : Obligations.EveryAdmitPredicateHeld := by
  intro c admitted
  refine ⟨refusingRules (2 ^ 64) (2 ^ 36) admitted, fun addr ha n hn kind => ?_⟩
  rw [Config.memAdmit, any_refusingRules admitted ha hn, Bool.not_not]

end Sys2Proof.Machine

/-! ## The engines compute the reference cipher, and differ in nothing else (00_scope.md R9) -/

namespace Sys2Proof

/-- As `Oct.get_map`, with no bound on the index: `Oct.get` reads the last element past the end. -/
theorem Oct.get_map_any {α β : Type} (f : α → β) (o : Oct α) (i : Nat) : (o.map f).get i = f (o.get i) := by
  match i with
  | 0 | 1 | 2 | 3 | 4 | 5 | 6 | _ + 7 => rfl

end Sys2Proof

namespace Sys2Proof.Machine

variable {W W' : Nat}

/-! ### The S-box circuits work on each bit position alone (41_sbox.md R128)

A circuit is made of `xor`, `and` and complement of planes, so it commutes with every map of planes that does. The
choice of one bit position is such a map, and takes planes of any width to planes of width 1. What a circuit does at
one position of one width is then known from a single run: at width 256, on all bytes side by side. -/

/-- A map of planes that commutes with the three operations of a circuit. -/
structure PlaneHom (f : BitVec W → BitVec W') : Prop where
  map_xor : ∀ a b, f (a ^^^ b) = f a ^^^ f b
  map_and : ∀ a b, f (a &&& b) = f a &&& f b
  map_not : ∀ a, f (~~~a) = ~~~f a

namespace PlaneHom

variable {f : BitVec W → BitVec W'}

theorem map_zero (h : PlaneHom f) : f 0 = 0 := by
  simpa using h.map_xor 0 0

theorem getD_map (h : PlaneHom f) (t : List (BitVec W)) (i : Nat) : (t.map f).getD i 0 = f (t.getD i 0) := by
  rw [← h.map_zero, List.getD_map]

theorem addCoeff_map (h : PlaneHom f) (t : List (BitVec W)) (k : Nat) (v : BitVec W) :
    addCoeff (t.map f) k (f v) = (addCoeff t k v).map f := by
  unfold addCoeff
  refine List.ext_getElem (by simp) fun i _ _ => ?_
  by_cases hk : k = i <;> simp [hk, h.map_xor]

theorem reduceDegree_map (h : PlaneHom f) (t : List (BitVec W)) (d : Nat) :
    reduceDegree (t.map f) d = (reduceDegree t d).map f := by
  simp only [reduceDegree, h.getD_map, h.addCoeff_map]

theorem reduceProduct_map (h : PlaneHom f) (t : List (BitVec W)) :
    reduceProduct (t.map f) = (reduceProduct t).map f := by
  have hfold := List.foldl_hom (l := [14, 13, 12, 11, 10, 9, 8]) (init := t) (List.map f)
    (g₁ := reduceDegree) (g₂ := reduceDegree) h.reduceDegree_map
  refine Oct.ext_get fun i hi => ?_
  simp only [reduceProduct, Oct.get_ofFn _ hi, Oct.get_map _ _ hi, hfold, h.getD_map]

theorem zeroCoeffs_map (h : PlaneHom f) : (zeroCoeffs : List (BitVec W)).map f = zeroCoeffs := by
  rw [zeroCoeffs, List.map_replicate, h.map_zero, zeroCoeffs]

theorem cMul_map (h : PlaneHom f) (A B : Oct (BitVec W)) : cMul (A.map f) (B.map f) = (cMul A B).map f := by
  unfold cMul
  rw [← h.reduceProduct_map, ← h.zeroCoeffs_map]
  refine congrArg reduceProduct (List.foldl_hom _ fun t ij => ?_)
  rw [Oct.get_map_any, Oct.get_map_any, ← h.map_and, h.addCoeff_map]

theorem cSq_map (h : PlaneHom f) (A : Oct (BitVec W)) : cSq (A.map f) = (cSq A).map f := by
  unfold cSq
  rw [← h.reduceProduct_map, ← h.zeroCoeffs_map]
  refine congrArg reduceProduct (List.foldl_hom _ fun t i => ?_)
  rw [Oct.get_map_any, List.map_set]

theorem cInv_map (h : PlaneHom f) (A : Oct (BitVec W)) : cInv (A.map f) = (cInv A).map f := by
  simp only [cInv, h.cMul_map, h.cSq_map]

theorem complementWhere_map (h : PlaneHom f) (c : Byte) (i : Nat) (v : BitVec W) :
    complementWhere c i (f v) = f (complementWhere c i v) := by
  unfold complementWhere
  split
  · rw [h.map_not]
  · rfl

theorem sboxCirc_map (h : PlaneHom f) (A : Oct (BitVec W)) : sboxCirc (A.map f) = (sboxCirc A).map f := by
  refine Oct.ext_get fun i hi => ?_
  simp only [sboxCirc, h.cInv_map, Oct.get_map_any, Oct.get_ofFn _ hi, ← h.map_xor, h.complementWhere_map]

theorem invSboxCirc_map (h : PlaneHom f) (A : Oct (BitVec W)) : invSboxCirc (A.map f) = (invSboxCirc A).map f := by
  rw [invSboxCirc, invSboxCirc, ← h.cInv_map]
  congr 1
  refine Oct.ext_get fun i hi => ?_
  simp only [Oct.get_map_any, Oct.get_ofFn _ hi, ← h.map_xor, h.complementWhere_map]

end PlaneHom

/-- Bit position `q` of a plane, as a plane of width 1. -/
def bitPlane (q : Nat) (v : BitVec W) : BitVec 1 := v.extractLsb' q 1

theorem getLsbD_bitPlane (q : Nat) (v : BitVec W) : (bitPlane q v).getLsbD 0 = v.getLsbD q := by
  simp [bitPlane]

theorem bitPlane_eq {V : Nat} {p q : Nat} {v : BitVec W} {u : BitVec V} (h : v.getLsbD q = u.getLsbD p) :
    bitPlane q v = bitPlane p u := by
  refine BitVec.eq_of_getLsbD_eq fun i hi => ?_
  obtain rfl : i = 0 := by omega
  rw [getLsbD_bitPlane, getLsbD_bitPlane, h]

theorem planeHom_bitPlane {q : Nat} (hq : q < W) : PlaneHom (bitPlane q : BitVec W → BitVec 1) where
  map_xor _ _ := BitVec.extractLsb'_xor
  map_and _ _ := BitVec.extractLsb'_and
  map_not v := by
    refine BitVec.eq_of_getLsbD_eq fun i hi => ?_
    obtain rfl : i = 0 := by omega
    simp [bitPlane, hq]

/-- The byte that eight planes hold at bit position `q` (41_sbox.md R128). -/
def planeByte (Q : Oct (BitVec W)) (q : Nat) : Byte := byteOfBits fun j => (Q.get j).getLsbD q

@[simp] theorem getLsbD_planeByte (Q : Oct (BitVec W)) (q : Nat) {j : Nat} (hj : j < 8) :
    (planeByte Q q).getLsbD j = (Q.get j).getLsbD q := getLsbD_byteOfBits _ hj

/-- All 256 bytes side by side: bit position `x` of plane `j` is bit `j` of the byte `x`. -/
def allBytes : Oct (BitVec 256) :=
  Oct.ofFn fun j => BitVec.ofNat 256 ((List.range 256).foldl (fun n x => n + (x / 2 ^ j % 2) * 2 ^ x) 0)

theorem planeByte_allBytes : ∀ x : Byte, planeByte allBytes x.toNat = x := by
  decide +kernel

/-- One run of the circuit at width 256 computes the whole table. -/
theorem planeByte_sboxCirc_allBytes : ∀ x : Byte, planeByte (sboxCirc allBytes) x.toNat = sbox x := by
  decide +kernel

theorem planeByte_invSboxCirc_allBytes : ∀ x : Byte, planeByte (invSboxCirc allBytes) x.toNat = invSbox x := by
  decide +kernel

theorem planeByte_map_bitPlane (Q : Oct (BitVec W)) (q : Nat) :
    planeByte (Q.map (bitPlane q)) 0 = planeByte Q q := by
  simp only [planeByte, Oct.get_map_any, getLsbD_bitPlane]

/-- Planes that hold the byte `x` at position `q` look there as `allBytes` looks at position `x`. -/
theorem map_bitPlane_eq_allBytes (Q : Oct (BitVec W)) (q : Nat) :
    Q.map (bitPlane q) = allBytes.map (bitPlane (planeByte Q q).toNat) := by
  refine Oct.ext_get fun j hj => ?_
  rw [Oct.get_map_any, Oct.get_map_any]
  apply bitPlane_eq
  rw [← getLsbD_planeByte Q q hj, ← getLsbD_planeByte allBytes _ hj, planeByte_allBytes]

/-- A circuit that works on each bit position alone, and computes `g` of all bytes side by side, computes `g` at every
position of every width. -/
theorem planeByte_circuit {g : Byte → Byte} {circuit : ∀ {V : Nat}, Oct (BitVec V) → Oct (BitVec V)}
    (hmap : ∀ {V : Nat} {q : Nat}, q < V → ∀ Q : Oct (BitVec V),
      circuit (Q.map (bitPlane q)) = (circuit Q).map (bitPlane q))
    (hall : ∀ x : Byte, planeByte (circuit allBytes) x.toNat = g x) (Q : Oct (BitVec W)) {q : Nat} (hq : q < W) :
    planeByte (circuit Q) q = g (planeByte Q q) := by
  rw [← planeByte_map_bitPlane, ← hmap hq, map_bitPlane_eq_allBytes, hmap (planeByte Q q).isLt,
    planeByte_map_bitPlane, hall]

/-- The forward circuit computes the table at every bit position (41_sbox.md R128). -/
theorem planeByte_sboxCirc (Q : Oct (BitVec W)) {q : Nat} (hq : q < W) :
    planeByte (sboxCirc Q) q = sbox (planeByte Q q) :=
  planeByte_circuit (fun hq => (planeHom_bitPlane hq).sboxCirc_map) planeByte_sboxCirc_allBytes Q hq

/-- The inverse circuit computes the inverse table at every bit position (41_sbox.md R128, R129). -/
theorem planeByte_invSboxCirc (Q : Oct (BitVec W)) {q : Nat} (hq : q < W) :
    planeByte (invSboxCirc Q) q = invSbox (planeByte Q q) :=
  planeByte_circuit (fun hq => (planeHom_bitPlane hq).invSboxCirc_map)
    planeByte_invSboxCirc_allBytes Q hq

end Sys2Proof.Machine

namespace Sys2Proof

@[simp] theorem Oct.ofFn_get {α : Type} (o : Oct α) : Oct.ofFn o.get = o := rfl

end Sys2Proof

namespace Sys2Proof.Machine

/-! ### What the planes hold -/

/-- Two bytes with the same bits are the same. -/
theorem byte_ext {a b : Byte} (h : ∀ j < 8, a.getLsbD j = b.getLsbD j) : a = b :=
  BitVec.eq_of_getLsbD_eq fun j hj => h j hj

/-- Bit `8p + k` of a block is bit `k` of its byte `p` (00_scope.md R14). -/
theorem getLsbD_eq_byteAt (b : Block) (p : Nat) {k : Nat} (hk : k < 8) :
    b.getLsbD (8 * p + k) = (byteAt b p).getLsbD k := by
  rw [getLsbD_byteAt, decide_eq_true hk, Bool.true_and]

theorem planeByte_bsPack (X : Oct Block) {p k : Nat} (hp : p < 16) (hk : k < 8) :
    planeByte (bsPack X) (8 * p + k) = byteAt (X.get k) p :=
  byte_ext fun j hj => by
    rw [getLsbD_planeByte _ _ hj, bsPack, Oct.get_ofFn _ hj, getLsbD_eq_byteAt _ _ hk, byteAt_blockOf _ hp,
      getLsbD_byteOfBits _ hk, getLsbD_eq_byteAt _ _ hj]

theorem byteAt_bsUnpack (Q : Oct Block) {p k : Nat} (hp : p < 16) (hk : k < 8) :
    byteAt ((bsUnpack Q).get k) p = planeByte Q (8 * p + k) := by
  rw [bsUnpack, Oct.get_ofFn _ hk, byteAt_blockOf _ hp, planeByte]

/-- Unpacking undoes packing (43_portable_engine.md R173). -/
@[simp] theorem bsUnpack_bsPack (X : Oct Block) : bsUnpack (bsPack X) = X :=
  Oct.ext_get fun k hk => block_ext fun p hp => by rw [byteAt_bsUnpack _ hp hk, planeByte_bsPack _ hp hk]

/-- What an operation does to the byte of each lane and position, it does to every lane. -/
theorem get_bsUnpack_of_planeByte {Q : Oct Block} {k : Nat} {b : Block} (hk : k < 8)
    (h : ∀ p < 16, planeByte Q (8 * p + k) = byteAt b p) : (bsUnpack Q).get k = b :=
  block_ext fun p hp => by rw [byteAt_bsUnpack _ hp hk, h p hp]

theorem planeByte_ofFn_xor {W : Nat} (f g : Nat → BitVec W) (q : Nat) :
    planeByte (Oct.ofFn fun j => f j ^^^ g j) q = planeByte (Oct.ofFn f) q ^^^ planeByte (Oct.ofFn g) q :=
  byte_ext fun j hj => by
    simp only [getLsbD_planeByte _ _ hj, Oct.get_ofFn _ hj, BitVec.getLsbD_xor]

theorem planeByte_ofFn_permBytes (f : Nat → Block) {table : Nat → Nat} {p k : Nat} (hp : p < 16) (hk : k < 8) :
    planeByte (Oct.ofFn fun j => permBytes (f j) table) (8 * p + k) = planeByte (Oct.ofFn f) (8 * table p + k) :=
  byte_ext fun j hj => by
    simp only [getLsbD_planeByte _ _ hj, Oct.get_ofFn _ hj, permBytes, getLsbD_eq_byteAt _ _ hk,
      byteAt_blockOf _ hp]

/-! ### Multiplication by `x`, and by the constants of the column transformations -/

/-- The bits of a product by `x`: shifted up, and `0x1b` where bit 7 was set (41_sbox.md R112). -/
theorem getLsbD_xtime (a : Byte) {j : Nat} (hj : j < 8) :
    (xtime a).getLsbD j = ((decide (1 ≤ j) && a.getLsbD (j - 1)) ^^ (a.getLsbD 7 && (0x1b : Byte).getLsbD j)) := by
  unfold xtime
  have hj' : j - 1 < 8 := by omega
  cases a.getLsbD 7 <;> simp [hj, hj', Nat.one_le_iff_ne_zero]

theorem xtime_xor (a b : Byte) : xtime (a ^^^ b) = xtime a ^^^ xtime b :=
  byte_ext fun j hj => by
    simp only [getLsbD_xtime _ hj, BitVec.getLsbD_xor, Bool.and_xor_distrib_left, Bool.and_xor_distrib_right,
      Bool.xor_assoc, Bool.xor_left_comm]

/-- `BS.XTime` multiplies the byte at every position by `x` (43_portable_engine.md R183). -/
theorem planeByte_bsXTime (T : Oct Block) (q : Nat) : planeByte (bsXTime T) q = xtime (planeByte T q) :=
  byte_ext fun j hj => by
    rw [getLsbD_planeByte _ _ hj, getLsbD_xtime _ hj, getLsbD_planeByte _ _ (by omega),
      getLsbD_planeByte _ _ (by omega)]
    interval_cases j <;> simp [bsXTime, Oct.get]

theorem gmul_02 : ∀ x : Byte, gmul 0x02 x = xtime x := by decide
theorem gmul_03 : ∀ x : Byte, gmul 0x03 x = xtime x ^^^ x := by decide
theorem gmul_09 : ∀ x : Byte, gmul 0x09 x = xtime (xtime (xtime x)) ^^^ x := by decide
theorem gmul_0b : ∀ x : Byte, gmul 0x0b x = xtime (xtime (xtime x)) ^^^ xtime x ^^^ x := by decide
theorem gmul_0d : ∀ x : Byte, gmul 0x0d x = xtime (xtime (xtime x)) ^^^ xtime (xtime x) ^^^ x := by decide
theorem gmul_0e : ∀ x : Byte, gmul 0x0e x = xtime (xtime (xtime x)) ^^^ xtime (xtime x) ^^^ xtime x := by decide

/-! ### The operations on planes, lane by lane (43_portable_engine.md R188) -/

section Lanes

variable (Q : Oct Block) {k : Nat} (hk : k < 8)
include hk

theorem lane_bsAddRoundKey (key : Block) :
    (bsUnpack (bsAddRoundKey Q (bsKey key))).get k = addRoundKey ((bsUnpack Q).get k) key :=
  get_bsUnpack_of_planeByte hk fun p hp => by
    have hkey : planeByte (bsKey key) (8 * p + k) = byteAt key p := by
      rw [bsKey, planeByte_bsPack _ hp hk]
      interval_cases k <;> rfl
    rw [bsAddRoundKey, planeByte_ofFn_xor, Oct.ofFn_get, Oct.ofFn_get, hkey, addRoundKey, byteAt_xor,
      byteAt_bsUnpack _ hp hk]

theorem lane_bsSubBytes : (bsUnpack (bsSubBytes Q)).get k = subBytes ((bsUnpack Q).get k) :=
  get_bsUnpack_of_planeByte hk fun p hp => by
    rw [bsSubBytes, planeByte_sboxCirc _ (by omega), subBytes, byteAt_blockOf _ hp, byteAt_bsUnpack _ hp hk]

theorem lane_bsInvSubBytes : (bsUnpack (bsInvSubBytes Q)).get k = invSubBytes ((bsUnpack Q).get k) :=
  get_bsUnpack_of_planeByte hk fun p hp => by
    rw [bsInvSubBytes, planeByte_invSboxCirc _ (by omega), invSubBytes, byteAt_blockOf _ hp,
      byteAt_bsUnpack _ hp hk]

/-- A permutation of the bytes of every plane is that permutation of the bytes of every lane. -/
theorem lane_map_permBytes {table : Nat → Nat} (ht : ∀ p < 16, table p < 16) :
    (bsUnpack (Q.map fun plane => permBytes plane table)).get k = permBytes ((bsUnpack Q).get k) table :=
  get_bsUnpack_of_planeByte hk fun p hp => by
    rw [Oct.map, planeByte_ofFn_permBytes _ hp hk, Oct.ofFn_get, permBytes, byteAt_blockOf _ hp,
      byteAt_bsUnpack _ (ht p hp) hk]

theorem lane_bsShiftRows : (bsUnpack (bsShiftRows Q)).get k = shiftRows ((bsUnpack Q).get k) :=
  lane_map_permBytes Q hk (by decide)

theorem lane_bsInvShiftRows : (bsUnpack (bsInvShiftRows Q)).get k = invShiftRows ((bsUnpack Q).get k) :=
  lane_map_permBytes Q hk (by decide)

end Lanes

/-- Byte `p` after `RotRows(P, i)` is the byte `i` rows further down the same column (43_portable_engine.md R184). -/
theorem planeByte_ofFn_rotRows (Q : Oct Block) (i : Nat) {p k : Nat} (hp : p < 16) (hk : k < 8) :
    planeByte (Oct.ofFn fun j => rotRows (Q.get j) i) (8 * p + k) = columnByte ((bsUnpack Q).get k) p (p % 4 + i) := by
  have hrot := planeByte_ofFn_permBytes Q.get (table := fun p => (p % 4 + i) % 4 + 4 * (p / 4)) hp hk
  rw [columnByte, byteAt_bsUnpack _ (by omega) hk, Nat.add_comm (4 * (p / 4))]
  exact hrot

theorem columnByte_self (b : Block) (p : Nat) : columnByte b p (p % 4) = byteAt b p := by
  rw [columnByte, Nat.mod_mod, Nat.div_add_mod]

/-- One byte of `MixColumns`, with one multiplication by `x` (42_reference_cipher.md R145). -/
theorem byteAt_mixColumns (b : Block) {p : Nat} (hp : p < 16) :
    byteAt (mixColumns b) p =
      xtime (byteAt b p ^^^ columnByte b p (p % 4 + 1)) ^^^ columnByte b p (p % 4 + 1) ^^^
        columnByte b p (p % 4 + 2) ^^^ columnByte b p (p % 4 + 3) := by
  simp only [mixColumns, byteAt_blockOf _ hp, gmul_02, gmul_03, columnByte_self, xtime_xor]
  ac_rfl

theorem planeByte_bsMixColumns (Q : Oct Block) {p k : Nat} (hp : p < 16) (hk : k < 8) :
    planeByte (bsMixColumns Q) (8 * p + k) = byteAt (mixColumns ((bsUnpack Q).get k)) p := by
  simp only [bsMixColumns, planeByte_ofFn_xor, Oct.ofFn_get, planeByte_bsXTime, Oct.map,
    planeByte_ofFn_rotRows _ _ hp hk, byteAt_mixColumns _ hp, byteAt_bsUnpack _ hp hk]

theorem lane_bsMixColumns (Q : Oct Block) {k : Nat} (hk : k < 8) :
    (bsUnpack (bsMixColumns Q)).get k = mixColumns ((bsUnpack Q).get k) :=
  get_bsUnpack_of_planeByte hk fun _ hp => planeByte_bsMixColumns Q hp hk

/-- The first step of `InvMixColumns` in the form of 42_reference_cipher.md R151: the circulant `[05 00 04 00]`. -/
def circulant (b : Block) : Block :=
  blockOf fun p => byteAt b p ^^^ xtime (xtime (byteAt b p ^^^ columnByte b p (p % 4 + 2)))

/-- Byte `p` of the circulant at another row of the same column. -/
theorem columnByte_circulant (b : Block) {p : Nat} (hp : p < 16) (r : Nat) :
    columnByte (circulant b) p r =
      columnByte b p r ^^^ xtime (xtime (columnByte b p r ^^^ columnByte b p (r + 2))) := by
  have hlt : 4 * (p / 4) + r % 4 < 16 := by omega
  have hdiv : (4 * (p / 4) + r % 4) / 4 = p / 4 := by omega
  have hmod : ((4 * (p / 4) + r % 4) % 4 + 2) % 4 = (r + 2) % 4 := by omega
  simp only [columnByte, circulant, byteAt_blockOf _ hlt, hdiv, hmod]

/-- `InvMixColumns` is `MixColumns` after the circulant (42_reference_cipher.md R151). -/
theorem invMixColumns_eq_mixColumns_circulant (b : Block) : invMixColumns b = mixColumns (circulant b) :=
  block_ext fun p hp => by
    have h4 : columnByte b p (p % 4 + 4) = byteAt b p := by
      rw [columnByte, Nat.add_mod_right, ← columnByte, columnByte_self]
    have h5 : columnByte b p (p % 4 + 5) = columnByte b p (p % 4 + 1) := by
      rw [columnByte, show p % 4 + 5 = p % 4 + 1 + 4 by rfl, Nat.add_mod_right, ← columnByte]
    rw [byteAt_mixColumns _ hp, ← columnByte_self (circulant b)]
    simp only [columnByte_circulant _ hp, invMixColumns, byteAt_blockOf _ hp, columnByte_self, h4, h5, gmul_0e,
      gmul_0b, gmul_0d, gmul_09, xtime_xor, Nat.add_assoc, Nat.reduceAdd]
    -- the circulant's `x^2` multiples of rows 1 and 3 occur twice on the right, and cancel
    refine (xor_cancel_right _
      (xtime (xtime (columnByte b p (p % 4 + 1))) ^^^ xtime (xtime (columnByte b p (p % 4 + 3))))).symm.trans ?_
    ac_rfl

theorem lane_bsInvMixColumns (Q : Oct Block) {k : Nat} (hk : k < 8) :
    (bsUnpack (bsInvMixColumns Q)).get k = invMixColumns ((bsUnpack Q).get k) := by
  rw [bsInvMixColumns, lane_bsMixColumns _ hk, invMixColumns_eq_mixColumns_circulant]
  refine congrArg mixColumns (get_bsUnpack_of_planeByte hk fun p hp => ?_)
  simp only [planeByte_ofFn_xor, Oct.ofFn_get, planeByte_bsXTime, Oct.map, planeByte_ofFn_rotRows _ _ hp hk,
    circulant, byteAt_blockOf _ hp, byteAt_bsUnpack _ hp hk]

end Sys2Proof.Machine

namespace Sys2Proof

theorem Oct.toList_eq_map_get {α : Type} (o : Oct α) : o.toList = (List.range 8).map o.get := rfl

end Sys2Proof

namespace Sys2Proof.Machine

/-! ### The Portable engine computes the reference cipher (43_portable_engine.md R198) -/

/-- A full round of `Cipher` (42_reference_cipher.md R152). -/
def encRound (rk : RoundKeys) (s : Block) (r : Nat) : Block :=
  addRoundKey (mixColumns (shiftRows (subBytes s))) (roundKey rk r)

/-- A full round of `InvCipher` (42_reference_cipher.md R153). -/
def decRound (rk : RoundKeys) (s : Block) (r : Nat) : Block :=
  invMixColumns (addRoundKey (invSubBytes (invShiftRows s)) (roundKey rk r))

theorem lane_bsEncRound (rk : RoundKeys) (t : Traced (Oct Block)) (r : Nat) {k : Nat} (hk : k < 8) :
    (bsUnpack (bsEncRound rk t r).val).get k = encRound rk ((bsUnpack t.val).get k) r := by
  rw [encRound, bsEncRound, lane_bsAddRoundKey _ hk, lane_bsMixColumns _ hk, lane_bsShiftRows _ hk,
    lane_bsSubBytes _ hk]

theorem lane_bsDecRound (rk : RoundKeys) (t : Traced (Oct Block)) (r : Nat) {k : Nat} (hk : k < 8) :
    (bsUnpack (bsDecRound rk t r).val).get k = decRound rk ((bsUnpack t.val).get k) r := by
  rw [decRound, bsDecRound, lane_bsInvMixColumns _ hk, lane_bsAddRoundKey _ hk, lane_bsInvSubBytes _ hk,
    lane_bsInvShiftRows _ hk]

/-- A loop over the planes runs in every lane as a loop over the block. -/
theorem lane_foldl {g : Traced (Oct Block) → Nat → Traced (Oct Block)} {g' : Block → Nat → Block} {k : Nat}
    (h : ∀ t i, (bsUnpack (g t i).val).get k = g' ((bsUnpack t.val).get k) i) (is : List Nat)
    (t : Traced (Oct Block)) :
    (bsUnpack (is.foldl g t).val).get k = is.foldl g' ((bsUnpack t.val).get k) :=
  (List.foldl_hom (fun t : Traced (Oct Block) => (bsUnpack t.val).get k) fun t i => (h t i).symm).symm

theorem get_pEnc8 (rk : RoundKeys) (nr : Nat) (X : Oct Block) {k : Nat} (hk : k < 8) :
    (pEnc8 rk nr X).val.get k = cipher rk nr (X.get k) := by
  simp only [pEnc8, cipher, lane_bsAddRoundKey _ hk, lane_bsShiftRows _ hk, lane_bsSubBytes _ hk]
  rw [lane_foldl (g' := fun s i => encRound rk s (i + 1)) fun t i => lane_bsEncRound rk t (i + 1) hk]
  simp only [lane_bsAddRoundKey _ hk, bsUnpack_bsPack, encRound]

theorem get_pDec8 (rk : RoundKeys) (nr : Nat) (X : Oct Block) {k : Nat} (hk : k < 8) :
    (pDec8 rk nr X).val.get k = invCipher rk nr (X.get k) := by
  simp only [pDec8, invCipher, lane_bsAddRoundKey _ hk, lane_bsInvShiftRows _ hk, lane_bsInvSubBytes _ hk]
  rw [lane_foldl (g' := fun s i => decRound rk s (nr - 1 - i)) fun t i => lane_bsDecRound rk t (nr - 1 - i) hk]
  simp only [lane_bsAddRoundKey _ hk, bsUnpack_bsPack, decRound]

theorem get_portableBatch (dir : Direction) (rk : RoundKeys) (nr : Nat) (X : Oct Block) {k : Nat} (hk : k < 8) :
    (portableBatch dir rk nr X).val.get k = blockFunction dir rk nr (X.get k) := by
  cases dir with
  | enc => exact get_pEnc8 rk nr X hk
  | dec => exact get_pDec8 rk nr X hk

/-- A single block, whatever the filler (43_portable_engine.md R196, R197). -/
theorem portableOne_val (dir : Direction) (rk : RoundKeys) (nr : Nat) (filler b : Block) :
    (portableOne dir rk nr filler b).val = blockFunction dir rk nr b :=
  get_portableBatch dir rk nr (Oct.padded filler [b]) (k := 0) (by omega)

/-- A chunk of at most eight blocks, padded and cut back (45_facade.md R253). -/
theorem portableBatch_padded (dir : Direction) (rk : RoundKeys) (nr : Nat) (filler : Block) {xs : List Block}
    (h : xs.length ≤ 8) :
    (portableBatch dir rk nr (Oct.padded filler xs)).val.toList.take xs.length =
      xs.map (blockFunction dir rk nr) := by
  refine List.ext_getElem (by simp [Oct.toList_eq_map_get, h]) fun i _ hi => ?_
  have hi' : i < xs.length := by simpa using hi
  have h8 : i < 8 := by omega
  simp [Oct.toList_eq_map_get, get_portableBatch _ _ _ _ h8, Oct.padded, h8, hi']

/-! ### The Accelerated engine computes the reference cipher (44_accelerated_engine.md R223) -/

/-- The `INV` bit of a ROM address is above the byte (30_encoding.md R70). -/
theorem getLsbD_append_byte_top (inverse : BitVec 1) (x : Byte) : (inverse ++ x).getLsbD 8 = inverse.getLsbD 0 := by
  rw [BitVec.getLsbD_append]
  rfl

theorem sboxFwd_eq (x : Byte) : sboxFwd x = sbox x := by
  rw [sboxFwd, romRead, append_byte_low, getLsbD_append_byte_top, if_neg (by decide)]

theorem sboxInv_eq (x : Byte) : sboxInv x = invSbox x := by
  rw [sboxInv, romRead, append_byte_low, getLsbD_append_byte_top, if_pos (by decide)]

theorem romSubBytes_eq (b : Block) : romSubBytes b = subBytes b := by
  simp only [romSubBytes, subBytes, sboxFwd_eq]

theorem romInvSubBytes_eq (b : Block) : romInvSubBytes b = invSubBytes b := by
  simp only [romInvSubBytes, invSubBytes, sboxInv_eq]

/-- One operation of a round-unit program on the block in `S`. -/
def roundUnitOn (rk : RoundKeys) (S : Block) (op : RndSel × Nat) : Block := roundUnit op.1 S (roundKey rk op.2)

/-- The round-unit program of a direction is the block function (44_accelerated_engine.md R218, R219). -/
theorem foldl_unitProgram (dir : Direction) (rk : RoundKeys) (nr : Nat) (b : Block) :
    (unitProgram dir nr).foldl (roundUnitOn rk) b = blockFunction dir rk nr b := by
  cases dir <;>
    simp only [unitProgram, encProgram, decProgram, blockFunction, cipher, invCipher, List.cons_append,
      List.foldl_cons, List.foldl_append, List.foldl_map, List.foldl_nil, roundUnitOn, roundUnit, romSubBytes_eq,
      romInvSubBytes_eq]

theorem accelOne_val (dir : Direction) (rk : RoundKeys) (nr : Nat) (b : Block) :
    (accelOne dir rk nr b).val = blockFunction dir rk nr b := by
  rw [accelOne, ← foldl_unitProgram]
  exact (List.foldl_hom Traced.val fun _ _ => rfl).symm

/-- The blocks of a group are worked on side by side, each alone (44_accelerated_engine.md R222). -/
theorem runGroup_val (dir : Direction) (rk : RoundKeys) (nr : Nat) (xs : List Block) :
    (runGroup dir rk nr xs).val = xs.map (blockFunction dir rk nr) := by
  have hmap (ops : List (RndSel × Nat)) : ∀ ys : List Block,
      ops.foldl (fun ys op => ys.map fun S => roundUnitOn rk S op) ys =
        ys.map fun S => ops.foldl (roundUnitOn rk) S := by
    induction ops with
    | nil => simp
    | cons op ops ih => simp [ih]
  have hval : (runGroup dir rk nr xs).val =
      (unitProgram dir nr).foldl (fun ys op => ys.map fun S => roundUnitOn rk S op) xs :=
    (List.foldl_hom Traced.val fun _ _ => rfl).symm
  simp only [hval, hmap, foldl_unitProgram]

/-! ### Groups cover the blocks once, in order -/

theorem le_mul_groupCount {size : Nat} (h : 0 < size) (n : Nat) : n ≤ size * ((n + size - 1) / size) := by
  have hdiv := Nat.div_add_mod (n + size - 1) size
  have hlt := Nat.mod_lt (n + size - 1) h
  omega

/-- What the first `G` groups of `size` cover together. -/
theorem flatMap_take_drop {α : Type} (size : Nat) (xs : List α) (G : Nat) :
    ((List.range G).flatMap fun g => (xs.drop (size * g)).take (min size (xs.length - size * g))) =
      xs.take (size * G) := by
  induction G with
  | zero => simp
  | succ G ih =>
    have hmin : (xs.drop (size * G)).take (min size (xs.length - size * G)) = (xs.drop (size * G)).take size := by
      simp [List.take_eq_take_iff]
    rw [List.range_succ, List.flatMap_append, ih, List.flatMap_singleton, Nat.mul_succ, List.take_add, hmin]

theorem flatMap_groups {α : Type} {size : Nat} (h : 0 < size) (xs : List α) :
    (groups size xs.length).flatMap (fun g => (xs.drop g.1).take g.2) = xs := by
  rw [groups, List.flatMap_map, flatMap_take_drop, List.take_of_length_le (le_mul_groupCount h _)]

theorem accelMany_val (dir : Direction) (rk : RoundKeys) (nr : Nat) {pipe : Nat} (h : 0 < pipe) (xs : List Block) :
    (accelMany dir rk nr pipe xs).val = xs.map (blockFunction dir rk nr) := by
  have hval : (accelMany dir rk nr pipe xs).val = (groups pipe xs.length).foldl
      (fun ys g => ys ++ (runGroup dir rk nr ((xs.drop g.1).take g.2)).val) [] :=
    (List.foldl_hom Traced.val fun _ _ => rfl).symm
  simp only [hval, runGroup_val, ← List.flatMap_eq_foldl, ← List.map_flatMap, flatMap_groups h]

/-! ### The selected engine -/

theorem engineOne_val (c : Config) (dir : Direction) (rk : RoundKeys) (nr : Nat) (b : Block) :
    (engineOne c dir rk nr b).val = blockFunction dir rk nr b := by
  unfold engineOne
  split
  · exact portableOne_val dir rk nr c.filler b
  · exact accelOne_val dir rk nr b

theorem groupSize_pos (c : Config) : 0 < groupSize c := by
  unfold groupSize
  split
  · exact Nat.succ_pos 7
  · exact Nat.succ_pos c.pipeExtra

/-- One chunk or group through the selected engine: the block function of each block (45_facade.md R253, R254). -/
theorem engineMany_val (c : Config) (dir : Direction) (rk : RoundKeys) (nr : Nat) {xs : List Block}
    (h : xs.length ≤ groupSize c) : (engineMany c dir rk nr xs).val = xs.map (blockFunction dir rk nr) := by
  cases he : c.engine with
  | portable =>
    simp only [groupSize, he] at h
    simp only [engineMany, he]
    exact portableBatch_padded dir rk nr c.filler h
  | accel =>
    simp only [engineMany, he]
    exact accelMany_val dir rk nr (Nat.succ_pos c.pipeExtra) xs

/-! ### The key schedule does not depend on the engine (40_key_schedule.md R101, R102) -/

/-- The first word of a block stands in its bytes 0 to 3. -/
theorem byteAt_blockOfWords_first (w0 w1 w2 w3 : Word) {p : Nat} (hp : p < 4) :
    byteAt (blockOfWords w0 w1 w2 w3) p = byteAt w0 p :=
  byte_ext fun j hj => by
    simp only [getLsbD_byteAt, blockOfWords, BitVec.getLsbD_append, show 8 * p + j < 32 by omega, ite_true]

theorem subWordCircuit_val (w : Word) : (subWordCircuit w).val = subWord w := by
  have hlane (p : Nat) (hp : p < 4) :
      byteAt ((bsUnpack (bsSubBytes (bsPack ⟨blockOfWords w 0 0 0, 0, 0, 0, 0, 0, 0, 0⟩))).get 0) p =
        sbox (byteAt w p) := by
    rw [lane_bsSubBytes _ (by omega), bsUnpack_bsPack, subBytes, byteAt_blockOf _ (by omega)]
    exact congrArg sbox (byteAt_blockOfWords_first w 0 0 0 hp)
  simp only [Oct.get] at hlane
  simp only [subWordCircuit, subWord, hlane 0 (by omega), hlane 1 (by omega), hlane 2 (by omega),
    hlane 3 (by omega)]

theorem subWordRom_val (w : Word) : (subWordRom w).val = subWord w := by
  simp only [subWordRom, subWord, sboxFwd_eq]

theorem engineSubWord_val (e : Engine) (w : Word) : (engineSubWord e w).val = subWord w := by
  cases e with
  | portable => exact subWordCircuit_val w
  | accel => exact subWordRom_val w

/-- The words of a schedule depend on the values of the substitution only, not on how it is computed. -/
theorem scheduleWords_val_congr {sub sub' : Word → Traced Word} (h : ∀ w, (sub w).val = (sub' w).val) (v : Variant)
    (key : List Byte) : (scheduleWords sub v key).val = (scheduleWords sub' v key).val := by
  have htemp (nk i : Nat) (prev : Word) : (scheduleTemp sub nk i prev).val = (scheduleTemp sub' nk i prev).val := by
    unfold scheduleTemp
    split_ifs
    · simp only [h]
    · exact h prev
    · rfl
  refine List.foldl_rel (r := fun t t' : Traced (List Word) => t.val = t'.val) rfl fun k _ t t' ht => ?_
  simp only [scheduleStep, ht, htemp]

theorem expandKey_engineSubWord_val (e : Engine) (v : Variant) (key : List Byte) :
    (expandKey (engineSubWord e) v key).val = keySchedule v key :=
  congrArg (registersOfWords v.rounds) (scheduleWords_val_congr (engineSubWord_val e) v key)

end Sys2Proof.Machine

namespace Sys2Proof.Machine

/-! ### The blocks of a buffer replaced one after the other -/

/-- Every block of a buffer whose number is listed replaced by its image, in that order, as by single commands
(45_facade.md R252, R255). -/
def Memory.mapBlocks (f : Block → Block) (addr : Nat) (m : Memory) (ms : List Nat) : Memory :=
  ms.foldl (fun m k => m.writeBlock (blockAddr addr k) (f (m.readBlock (blockAddr addr k)))) m

theorem Memory.mapBlocks_cons (f : Block → Block) (addr : Nat) (m : Memory) (k : Nat) (ms : List Nat) :
    m.mapBlocks f addr (k :: ms) =
      (m.writeBlock (blockAddr addr k) (f (m.readBlock (blockAddr addr k)))).mapBlocks f addr ms := by
  rw [Memory.mapBlocks, List.foldl_cons, Memory.mapBlocks]

/-- The block with this number lies in the address space (20_memory.md R40). -/
def BlockFits (addr k : Nat) : Prop := blockAddr addr k + Config.blockBytes ≤ 2 ^ Config.addressBits

theorem Memory.wf_mapBlocks {f : Block → Block} {addr : Nat} {m : Memory} {ms : List Nat} (hw : m.wf = true)
    (hfit : ∀ k ∈ ms, BlockFits addr k) : (m.mapBlocks f addr ms).wf = true := by
  induction ms generalizing m with
  | nil => exact hw
  | cons k ms ih =>
    rw [List.forall_mem_cons] at hfit
    rw [Memory.mapBlocks_cons]
    exact ih (Memory.wf_writeBlock hfit.1 hw) hfit.2

theorem Memory.mapBlocks_flatMap {α : Type} (f : Block → Block) (addr : Nat) (m : Memory) (gs : List α)
    (ms : α → List Nat) : m.mapBlocks f addr (gs.flatMap ms) = gs.foldl (fun m g => m.mapBlocks f addr (ms g)) m :=
  List.foldl_flatMap

theorem Memory.mapBlocks_range_one (f : Block → Block) (addr : Nat) (m : Memory) :
    m.mapBlocks f addr (List.range 1) = m.writeBlock addr (f (m.readBlock addr)) := by
  simp [Memory.mapBlocks, blockAddr]

/-- Reading all blocks of a group before writing any gives the same memory as block after block, since the blocks do
not overlap (45_facade.md R253 to R255). -/
theorem Memory.writeBlocks_eq_mapBlocks (f : Block → Block) {addr first count : Nat} {m : Memory} (hw : m.wf = true)
    (hfit : ∀ k ∈ List.range' first count, BlockFits addr k) :
    m.writeBlocks ((blockAddrs addr first count).zip ((blockAddrs addr first count).map (f ∘ m.readBlock))) =
      m.mapBlocks f addr (List.range' first count) := by
  induction count generalizing m first with
  | zero => rfl
  | succ count ih =>
    rw [List.range'_succ, List.forall_mem_cons] at hfit
    obtain ⟨hfirst, hrest⟩ := hfit
    have hreads : (blockAddrs addr (first + 1) count).map (f ∘ m.readBlock) =
        (blockAddrs addr (first + 1) count).map
          (f ∘ (m.writeBlock (blockAddr addr first) (f (m.readBlock (blockAddr addr first)))).readBlock) := by
      refine List.map_congr_left fun a ha => congrArg f (Memory.readBlock_writeBlock_other hw hfirst (.inr ?_)).symm
      obtain ⟨k, -, rfl⟩ := List.mem_map.1 ha
      simp only [blockAddr, Config.blockBytes]
      omega
    rw [blockAddrs_succ, List.map_cons, List.zip_cons_cons, Memory.writeBlocks, List.foldl_cons,
      ← Memory.writeBlocks, hreads, Function.comp_apply, ih (Memory.wf_writeBlock hfirst hw) hrest, List.range'_succ,
      Memory.mapBlocks_cons]

/-- What the block path of a command does, on either engine: it replaces the `n` blocks of the buffer, and writes the
records; nothing else. -/
def MapsBlocks (dir : Direction) (addr n : Nat) (run : State → State) : Prop :=
  ∀ s : State, s.mem.wf = true → (∀ k < n, BlockFits addr k) →
    ∃ bus unitOps, run s =
      { s with
        mem := s.mem.mapBlocks (blockFunction dir s.rk s.variant.rounds) addr (List.range n)
        bus := bus
        unitOps := unitOps }

theorem runOneBlock_mapsBlocks (dir : Direction) (addr : Nat) : MapsBlocks dir addr 1 (runOneBlock dir addr) := by
  intro s _ _
  simp only [runOneBlock_eq, engineOne_val, Memory.mapBlocks_range_one]
  exact ⟨_, _, rfl⟩

/-- A group of a multi-block command lies within its blocks and is not larger than the engine takes. -/
theorem group_bounds {size n : Nat} {g : Nat × Nat} (h : g ∈ groups size n) : g.2 ≤ size ∧ g.2 ≤ n - g.1 := by
  obtain ⟨i, -, rfl⟩ := List.mem_map.1 h
  exact ⟨Nat.min_le_left .., Nat.min_le_right ..⟩

theorem range_drop_take {n first count : Nat} (h : count ≤ n - first) :
    ((List.range n).drop first).take count = List.range' first count := by
  rw [List.range_eq_range', List.drop_range', List.take_range'_of_length_ge h]
  simp

theorem runBlocks_mapsBlocks (dir : Direction) (addr n : Nat) : MapsBlocks dir addr n (runBlocks dir addr n) := by
  intro s hw hfit
  -- the state after some groups against the memory after their blocks
  have hrel := List.foldl_rel (l := groups (groupSize s.cfg) n) (f := runBlockGroup dir addr)
    (g := fun m g => m.mapBlocks (blockFunction dir s.rk s.variant.rounds) addr (((List.range n).drop g.1).take g.2))
    (r := fun t m => m.wf = true ∧ ∃ bus unitOps, t = { s with mem := m, bus, unitOps })
    (a := s) (b := s.mem) ⟨hw, _, _, rfl⟩ fun g hg t m ⟨hwm, bus, unitOps, ht⟩ => by
      obtain ⟨hsize, hn⟩ := group_bounds hg
      have hfits : ∀ k ∈ List.range' g.1 g.2, BlockFits addr k := fun k hk =>
        hfit k (by rw [List.mem_range'_1] at hk; omega)
      rw [range_drop_take hn]
      refine ⟨Memory.wf_mapBlocks hwm hfits, ?_⟩
      have hlen : ((blockAddrs addr g.1 g.2).map m.readBlock).length ≤ groupSize s.cfg := by simpa using hsize
      simp only [← Memory.writeBlocks_eq_mapBlocks _ hwm hfits, ht, runBlockGroup_eq, engineMany_val _ _ _ _ hlen,
        List.map_map]
      exact ⟨_, _, rfl⟩
  obtain ⟨-, bus, unitOps, hrun⟩ := hrel
  refine ⟨bus, unitOps, ?_⟩
  rw [runBlocks, hrun, ← Memory.mapBlocks_flatMap]
  have hcover := flatMap_groups (groupSize_pos s.cfg) (List.range n)
  rw [List.length_range] at hcover
  rw [hcover]

/-! ### Two cores that differ in engine, `PIPE` and `FILLER` (00_scope.md R9) -/

theorem SameButEngine.admitsKey {s s' : State} (h : SameButEngine s s') (addr n : Nat) :
    s'.cfg.admitsKey addr n = s.cfg.admitsKey addr n := by
  simp only [Config.admitsKey, Config.memAdmit, h.2.2]

theorem SameButEngine.admitsBlocks {s s' : State} (h : SameButEngine s s') (addr n : Nat) :
    s'.cfg.admitsBlocks addr n = s.cfg.admitsBlocks addr n := by
  simp only [Config.admitsBlocks, Config.memAdmit, h.2.2]

/-- Both cores complete with the same response, and again differ in the engine only, with memory in its canonical
form. -/
def SameAnswer (o o' : Host.Outcome State Fault Refusal) : Prop :=
  ∃ t t', o = .next t ∧ o' = .next t' ∧ t.response = t'.response ∧ SameButEngine t t' ∧ t.mem.wf = true

/-- What gives a response on states that differ in the engine only gives the same answer. -/
theorem sameAnswer_respond {u u' : State} (code : Code) (h : SameButEngine u u') (hw : u.mem.wf = true) :
    SameAnswer (.next (u.respond code)) (.next (u'.respond code)) :=
  ⟨_, _, rfl, rfl, rfl, h, hw⟩

theorem SameButEngine.accept {s s' : State} (h : SameButEngine s s') : SameButEngine s.accept s'.accept := h

section KeyedState

variable (v : Variant) (addr : Nat) (s : State)

theorem keyedState_keyValid : (keyedState v addr s).keyValid = true := by
  simp only [keyedState, State.respond_keyValid]

theorem keyedState_variant : (keyedState v addr s).variant = v := by
  simp only [keyedState, State.respond_variant]

/-- The schedule a KEYSETUP leaves does not depend on the engine (40_key_schedule.md R101). -/
theorem keyedState_rk : (keyedState v addr s).rk = keySchedule v (s.mem.readBytes addr v.keyBytes) := by
  simp only [keyedState, State.respond_rk, expandKey_engineSubWord_val]

theorem keyedState_mem : (keyedState v addr s).mem = s.mem := by
  simp only [keyedState, State.respond_mem, State.recordOps_mem, State.recordRead_mem, State.accept_mem]

theorem keyedState_cfg : (keyedState v addr s).cfg = s.cfg := by
  simp only [keyedState, State.respond_cfg, State.recordOps_cfg, State.recordRead_cfg, State.accept_cfg]

theorem keyedState_response : (keyedState v addr s).response = some Code.ok.word := by
  simp only [keyedState, State.respond_response]

end KeyedState

theorem keyedState_sameButEngine (v : Variant) (addr : Nat) {s s' : State} (h : SameButEngine s s') :
    SameButEngine (keyedState v addr s) (keyedState v addr s') := by
  obtain ⟨-, hmem, hadmit⟩ := h
  simp only [SameButEngine, SameContext, keyedState_keyValid, keyedState_variant, keyedState_rk, keyedState_mem,
    keyedState_cfg, hmem, hadmit, and_self]

theorem keySetup_sameAnswer (v : Variant) (addr len : Nat) {s s' : State} (hw : s.mem.wf = true)
    (h : SameButEngine s s') : SameAnswer (keySetup v addr len s) (keySetup v addr len s') := by
  rcases keySetup_cases v addr len s with ⟨hl, he⟩ | ⟨rfl, ha, he⟩ | ⟨rfl, ha, he⟩ <;> rw [he]
  · rw [keySetup_invalidLength hl]
    exact sameAnswer_respond _ h.accept hw
  · rw [keySetup_bufferFault (by rw [h.admitsKey, ha])]
    exact sameAnswer_respond _ h.accept hw
  · rw [keySetup_ok (by rw [h.admitsKey, ha])]
    exact ⟨_, _, rfl, rfl, by rw [keyedState_response, keyedState_response], keyedState_sameButEngine v addr h,
      by rw [keyedState_mem, hw]⟩

/-- The blocks of an admitted buffer lie in the address space (20_memory.md R46). -/
theorem blockFits_of_admitsBlocks {c : Config} {addr n : Nat} (h : c.admitsBlocks addr (blocksBytes n) = true) :
    ∀ k < n, BlockFits addr k := by
  intro k hk
  simp only [Config.admitsBlocks, Bool.or_eq_true, Bool.and_eq_true, decide_eq_true_eq] at h
  simp only [BlockFits, blocksBytes, blockAddr, Config.blockBytes] at h ⊢
  omega

theorem blockCommand_sameAnswer {dir : Direction} {addr n : Nat} {run : State → State}
    (hrun : MapsBlocks dir addr n run) {s s' : State} (hw : s.mem.wf = true) (h : SameButEngine s s') :
    SameAnswer (blockCommand addr n run s) (blockCommand addr n run s') := by
  have hkey : s'.keyValid = s.keyValid := h.1.1
  rcases blockCommand_cases addr n run s with ⟨hk, he⟩ | ⟨hk, ha, he⟩ | ⟨hk, ha, he⟩ <;> rw [he]
  · rw [blockCommand_noKey (hkey.trans hk)]
    exact sameAnswer_respond _ h.accept hw
  · rw [blockCommand_bufferFault (hkey.trans hk) (by rw [h.admitsBlocks, ha])]
    exact sameAnswer_respond _ h.accept hw
  · rw [blockCommand_ok (hkey.trans hk) (by rw [h.admitsBlocks, ha])]
    obtain ⟨⟨-, hvariant, hrk⟩, hmem, hadmit⟩ := h
    have hfit := blockFits_of_admitsBlocks ha
    obtain ⟨_, _, hs⟩ := hrun s.accept hw hfit
    obtain ⟨_, _, hs'⟩ := hrun s'.accept (by simpa [← hmem] using hw) hfit
    rw [hs, hs']
    refine sameAnswer_respond _ ⟨⟨hkey, hvariant, hrk⟩, ?_, hadmit⟩
      (Memory.wf_mapBlocks hw fun k hk => hfit k (List.mem_range.1 hk))
    simp only [State.accept_rk, State.accept_variant, State.accept_mem, hvariant, hrk, hmem]

/-- Settles O23: the engines compute the same block functions, the expander the same schedule, and no command's answer
depends on anything else of the engine. -/
theorem enginesBehaveIdentically : Obligations.EnginesBehaveIdentically := by
  intro i s s' hi hw h
  cases i with
  | keysetup128 addr len => exact keySetup_sameAnswer .aes128 addr len hw h
  | keysetup192 addr len => exact keySetup_sameAnswer .aes192 addr len hw h
  | keysetup256 addr len => exact keySetup_sameAnswer .aes256 addr len hw h
  | encb addr => exact blockCommand_sameAnswer (runOneBlock_mapsBlocks .enc addr) hw h
  | decb addr => exact blockCommand_sameAnswer (runOneBlock_mapsBlocks .dec addr) hw h
  | encbs addr n => exact blockCommand_sameAnswer (runBlocks_mapsBlocks .enc addr n) hw h
  | decbs addr n => exact blockCommand_sameAnswer (runBlocks_mapsBlocks .dec addr n) hw h
  | pEnc1 | pDec1 | pEnc8 | pDec8 | aEnc1 | aDec1 | aEncN | aDecN | rndArk | rndEnc | rndEncLast | rndDec | rndDecLast
  | sboxFwd _ | sboxInv _ => exact absurd hi Bool.false_ne_true

end Sys2Proof.Machine

/-! ## What every step keeps (10_state.md) -/

namespace Sys2Proof.Machine

/-! ### What a step can do to the context, memory, the configuration and the response -/

/-- All that a step can do, up to the working registers and the records. -/
inductive StepEffect (s t : State) : Prop
  /-- No word waits (60_exceptions.md R303). -/
  | idle (ht : t = s)
  /-- A command is answered and does nothing else (60_exceptions.md R286, R287). -/
  | answered (c : Code) (ht : t = s.accept.respond c)
  /-- A KEYSETUP responds `OK` (45_facade.md R244). -/
  | keyed (r : Request) (i : Instr) (v : Variant) (addr : Nat) (hp : s.port = some r) (hd : decode r = .ok i)
      (hi : IsKeysetup i v addr v.keyBytes) (ht : t = keyedState v addr s)
  /-- A block command responds `OK` (45_facade.md R252). -/
  | blocks (mem : Memory) (bus : List BusAccess) (unitOps : List UnitOp) (hmem : s.mem.wf = true → mem.wf = true)
      (ht : t = ({ s.accept with mem, bus, unitOps } : State).respond .ok)
  /-- A unit taken alone answers its request at its own port (30_encoding.md R68 to R70). -/
  | internal (hcontext : SameContext s t) (hmem : t.mem = s.mem) (hcfg : t.cfg = s.cfg) (hresp : t.response = none)

section

variable {s t : State} {r : Request} {i : Instr}

theorem keySetup_effect {v : Variant} {addr len : Nat} (hp : s.port = some r) (hd : decode r = .ok i)
    (hi : IsKeysetup i v addr len) (h : keySetup v addr len s = .next t) : StepEffect s t := by
  rcases keySetup_cases v addr len s with ⟨-, he⟩ | ⟨-, -, he⟩ | ⟨rfl, -, he⟩ <;> cases he.symm.trans h
  · exact .answered .invalidKeyLength rfl
  · exact .answered .bufferFault rfl
  · exact .keyed r i v addr hp hd hi rfl

theorem runOneBlock_frame (dir : Direction) (addr : Nat) (s : State) :
    ∃ mem bus unitOps, runOneBlock dir addr s = { s with mem, bus, unitOps } := by
  rw [runOneBlock_eq]
  exact ⟨_, _, _, rfl⟩

/-- `hframe` says what the block path leaves alone in every state; that it keeps the canonical form of memory follows
from the blocks it maps. -/
theorem blockCommand_effect {dir : Direction} {addr n : Nat} {run : State → State}
    (hframe : ∀ s, ∃ mem bus unitOps, run s = { s with mem, bus, unitOps }) (hmaps : MapsBlocks dir addr n run)
    (h : blockCommand addr n run s = .next t) : StepEffect s t := by
  rcases blockCommand_cases addr n run s with ⟨-, he⟩ | ⟨-, -, he⟩ | ⟨-, ha, he⟩ <;> cases he.symm.trans h
  · exact .answered .noKey rfl
  · exact .answered .bufferFault rfl
  · obtain ⟨mem, bus, unitOps, hrun⟩ := hframe s.accept
    refine .blocks mem bus unitOps (fun hw => ?_) (congrArg (State.respond · .ok) hrun)
    have hfit := blockFits_of_admitsBlocks ha
    obtain ⟨_, _, hmapped⟩ := hmaps s.accept hw hfit
    have hmem : mem = _ := congrArg State.mem (hrun.symm.trans hmapped)
    rw [hmem]
    exact Memory.wf_mapBlocks hw fun k hk => hfit k (List.mem_range.1 hk)

theorem portableOneStep_effect {dir : Direction} (h : portableOneStep dir s = .next t) : StepEffect s t := by
  obtain ⟨-, rfl⟩ := portableOneStep_next h
  exact .internal ⟨rfl, rfl, rfl⟩ rfl rfl rfl

theorem portableBatchStep_effect {dir : Direction} (h : portableBatchStep dir s = .next t) : StepEffect s t := by
  obtain ⟨-, rfl⟩ := portableBatchStep_next h
  exact .internal ⟨rfl, rfl, rfl⟩ rfl rfl rfl

theorem accelOneStep_effect {dir : Direction} (h : accelOneStep dir s = .next t) : StepEffect s t := by
  obtain ⟨-, rfl⟩ := accelOneStep_next h
  exact .internal ⟨rfl, rfl, rfl⟩ rfl rfl rfl

theorem accelManyStep_effect {dir : Direction} (h : accelManyStep dir s = .next t) : StepEffect s t := by
  obtain ⟨-, rfl⟩ := accelManyStep_next h
  exact .internal ⟨rfl, rfl, rfl⟩ rfl rfl rfl

theorem roundUnitStep_effect {sel : RndSel} (h : roundUnitStep sel s = .next t) : StepEffect s t := by
  obtain ⟨-, rfl⟩ := roundUnitStep_next h
  exact .internal ⟨rfl, rfl, rfl⟩ rfl rfl rfl

theorem romStep_effect {inverse : Bool} {value : Byte} (h : romStep inverse value s = .next t) : StepEffect s t := by
  obtain rfl := romStep_next h
  exact .internal ⟨rfl, rfl, rfl⟩ rfl rfl rfl

theorem exec_effect (hp : s.port = some r) (hd : decode r = .ok i) (h : exec i s = .next t) : StepEffect s t := by
  cases i with
  | keysetup128 addr len => exact keySetup_effect (v := .aes128) hp hd rfl h
  | keysetup192 addr len => exact keySetup_effect (v := .aes192) hp hd rfl h
  | keysetup256 addr len => exact keySetup_effect (v := .aes256) hp hd rfl h
  | encb addr => exact blockCommand_effect (runOneBlock_frame .enc addr) (runOneBlock_mapsBlocks .enc addr) h
  | decb addr => exact blockCommand_effect (runOneBlock_frame .dec addr) (runOneBlock_mapsBlocks .dec addr) h
  | encbs addr n => exact blockCommand_effect (runBlocks_frame .enc addr n) (runBlocks_mapsBlocks .enc addr n) h
  | decbs addr n => exact blockCommand_effect (runBlocks_frame .dec addr n) (runBlocks_mapsBlocks .dec addr n) h
  | pEnc1 | pDec1 => exact portableOneStep_effect h
  | pEnc8 | pDec8 => exact portableBatchStep_effect h
  | aEnc1 | aDec1 => exact accelOneStep_effect h
  | aEncN | aDecN => exact accelManyStep_effect h
  | rndArk | rndEnc | rndEncLast | rndDec | rndDecLast => exact roundUnitStep_effect h
  | sboxFwd x | sboxInv x => exact romStep_effect h

theorem step_effect (h : step s = .next t) : StepEffect s t := by
  rcases step_next h with ⟨-, ht⟩ | ⟨r, i, hp, hd, hexec⟩ | ⟨_, _, -, -, ht⟩
  · exact .idle ht
  · exact exec_effect hp hd hexec
  · exact .answered .illegalCommand ht

end

/-! ### The invariant -/

/-- With the context as it was, the invariant is a matter of memory and the response. -/
theorem Inv.of_sameContext {s t : State} (h : Inv s) (hcontext : SameContext s t) (hmem : t.mem.wf = true)
    (hresp : ∀ w, t.response = some w → ∃ c : Code, w = c.word) : Inv t := by
  obtain ⟨-, hkeyed, hunkeyed, -⟩ := h
  obtain ⟨hvalid, hvariant, hrk⟩ := hcontext
  rw [← hvalid, ← hvariant, ← hrk] at hkeyed hunkeyed
  exact ⟨hmem, hkeyed, hunkeyed, hresp⟩

/-- The response that an answer gives is one of the five words (30_encoding.md R65). -/
theorem word_of_answers {t : State} {c : Code} (h : Answers t c) (w : BitVec 32) (hw : t.response = some w) :
    ∃ c : Code, w = c.word :=
  ⟨c, Option.some.inj (hw.symm.trans h)⟩

/-- The state a KEYSETUP leaves holds the schedule of the key bytes it read, whatever the context was before. -/
theorem inv_keyedState (v : Variant) (addr : Nat) {s : State} (hw : s.mem.wf = true) : Inv (keyedState v addr s) := by
  refine ⟨by rw [keyedState_mem, hw], fun _ => ?_, fun hk => ?_, word_of_answers (keyedState_response v addr s)⟩
  · rw [keyedState_rk, keyedState_variant]
    exact ⟨_, Memory.length_readBytes .., rfl⟩
  · rw [keyedState_keyValid] at hk
    cases hk

/-- Settles O25: a KEYSETUP that responds `OK` makes the context anew, and every other effect leaves it. -/
theorem stepKeepsInvariant : Obligations.StepKeepsInvariant := by
  intro s t hinv h
  have hw : s.mem.wf = true := hinv.1
  cases step_effect h with
  | idle ht => rwa [ht]
  | answered c ht =>
    subst ht
    exact hinv.of_sameContext ⟨rfl, rfl, rfl⟩ hw (word_of_answers rfl)
  | keyed _ _ v addr _ _ _ ht =>
    rw [ht]
    exact inv_keyedState v addr hw
  | blocks mem bus unitOps hmem ht =>
    subst ht
    exact hinv.of_sameContext ⟨rfl, rfl, rfl⟩ (hmem hw) (word_of_answers rfl)
  | internal hcontext hmem _ hresp =>
    refine hinv.of_sameContext hcontext (by rw [hmem, hw]) fun w hsome => ?_
    rw [hresp] at hsome
    cases hsome

/-! ### The context and the configuration -/

/-- Of all the effects only that of a KEYSETUP which responds `OK` touches the context (10_state.md R23). -/
theorem StepEffect.sameContext_or_keyed {s t : State} (h : StepEffect s t) :
    SameContext s t ∨
      ∃ r i v addr, s.port = some r ∧ decode r = .ok i ∧ IsKeysetup i v addr v.keyBytes ∧ t = keyedState v addr s := by
  cases h with
  | idle ht => exact .inl (ht ▸ ⟨rfl, rfl, rfl⟩)
  | answered c ht => exact .inl (ht ▸ ⟨rfl, rfl, rfl⟩)
  | keyed r i v addr hp hd hi ht => exact .inr ⟨r, i, v, addr, hp, hd, hi, ht⟩
  | blocks mem bus unitOps _ ht => exact .inl (ht ▸ ⟨rfl, rfl, rfl⟩)
  | internal hcontext _ _ _ => exact .inl hcontext

/-- Settles O16: the one effect that writes the context leaves it valid. -/
theorem onlyKeysetupWritesContext : Obligations.OnlyKeysetupWritesContext := by
  intro s t h
  rcases (step_effect h).sameContext_or_keyed with hcontext | ⟨r, i, v, addr, hp, hd, hi, rfl⟩
  · exact ⟨.inl hcontext, hcontext.1.trans⟩
  · have hvalid := keyedState_keyValid v addr s
    exact ⟨.inr ⟨hvalid, keyedState_response v addr s, r, i, v, addr, hp, hd, hi⟩, fun _ => hvalid⟩

/-- Settles O32: no effect touches `cfg`. -/
theorem configurationNeverChanges : Obligations.ConfigurationNeverChanges := by
  intro s t h
  cases step_effect h with
  | idle ht => rw [ht]
  | answered c ht => rw [ht, State.respond_cfg, State.accept_cfg]
  | keyed _ _ v addr _ _ _ ht => rw [ht, keyedState_cfg]
  | blocks mem bus unitOps _ ht => rw [ht, State.respond_cfg, State.accept_cfg]
  | internal _ _ hcfg _ => exact hcfg

/-! ### Reset -/

/-- Settles O26: the context is not valid and no response is given, so only memory and the cleared context count. -/
theorem resetMeetsInvariant : Obligations.ResetMeetsInvariant :=
  ⟨Memory.wf_reset, nofun, fun _ => ⟨rfl, rfl⟩, nofun⟩

/-- Every round-key register of a cleared file reads as zero (10_state.md R33). -/
theorem roundKey_cleared (j : Nat) : roundKey (Vector.replicate 15 0) j = 0 := by
  simp only [roundKey, Vector.getElem_replicate, dite_eq_ite, ite_self]

/-- Settles O31: an idle port lets the reset event through, to the cleared context; `State.reset` has the same
context. -/
theorem resetValues : Obligations.ResetValues :=
  ⟨fun s hp => ⟨s.afterReset, State.resetEvent_idle hp, rfl, rfl, fun j _ => roundKey_cleared j, rfl, rfl, rfl, rfl⟩,
    rfl, rfl, fun j _ => roundKey_cleared j, rfl, rfl⟩

end Sys2Proof.Machine

/-! ## Memory: admission, the owned buffer, and the order of the accesses (20_memory.md) -/

namespace Sys2Proof.Machine

/-! ### Admission of a buffer (20_memory.md R46) -/

theorem admitsKey_iff (c : Config) (addr n : Nat) :
    c.admitsKey addr n = true ↔ n = 0 ∨ (addr + n ≤ 2 ^ 64 ∧ c.memAdmit addr n .read = true) := by
  simp only [Config.admitsKey, Bool.or_eq_true, Bool.and_eq_true, decide_eq_true_eq]
  rfl

theorem admitsBlocks_iff (c : Config) (addr n : Nat) :
    c.admitsBlocks addr n = true ↔
      n = 0 ∨ (addr + n ≤ 2 ^ 64 ∧ c.memAdmit addr n .read = true ∧ c.memAdmit addr n .write = true) := by
  simp only [Config.admitsBlocks, Bool.or_eq_true, Bool.and_eq_true, decide_eq_true_eq, and_assoc]
  rfl

/-- With no rule that refuses, `mem_admit` is its default "always true" (00_scope.md R7). -/
theorem memAdmit_unrestricted {c : Config} (h : c.refusedBuffers = []) (addr n : Nat) (kind : AccessKind) :
    c.memAdmit addr n kind = true := by
  rw [Config.memAdmit, h, List.any_nil, Bool.not_false]

/-- Settles O12: neither kind of buffer is asked for its alignment. -/
theorem admissionRule : Obligations.AdmissionRule :=
  fun c addr n => ⟨admitsKey_iff c addr n, admitsBlocks_iff c addr n, fun h => memAdmit_unrestricted h addr n⟩

/-! ### The buffer of a waiting command (20_memory.md R41, R54) -/

theorem namedBuffer_blockCommand {i : Instr} {addr n : Nat} (h : IsBlockCommand i addr n) :
    namedBuffer i = some ⟨addr, 16 * n, true⟩ := by
  rcases h with ⟨rfl, rfl | rfl⟩ | rfl | rfl <;> rfl

theorem namedBuffer_keysetup {i : Instr} {v : Variant} {addr len : Nat} (h : IsKeysetup i v addr len) :
    namedBuffer i = some ⟨addr, len, false⟩ := by
  cases v <;> cases h <;> rfl

/-- A buffer is named by block commands and KEYSETUPs only. -/
theorem namedBuffer_cases {i : Instr} {b : NamedBuffer} (h : namedBuffer i = some b) :
    (∃ addr n, IsBlockCommand i addr n ∧ b = ⟨addr, 16 * n, true⟩) ∨
      ∃ v addr len, IsKeysetup i v addr len ∧ b = ⟨addr, len, false⟩ := by
  cases i with
  | keysetup128 addr len => exact .inr ⟨.aes128, addr, len, rfl, (Option.some.inj h).symm⟩
  | keysetup192 addr len => exact .inr ⟨.aes192, addr, len, rfl, (Option.some.inj h).symm⟩
  | keysetup256 addr len => exact .inr ⟨.aes256, addr, len, rfl, (Option.some.inj h).symm⟩
  | encb addr => exact .inl ⟨addr, 1, .inl ⟨rfl, .inl rfl⟩, (Option.some.inj h).symm⟩
  | decb addr => exact .inl ⟨addr, 1, .inl ⟨rfl, .inr rfl⟩, (Option.some.inj h).symm⟩
  | encbs addr n => exact .inl ⟨addr, n, .inr (.inl rfl), (Option.some.inj h).symm⟩
  | decbs addr n => exact .inl ⟨addr, n, .inr (.inr rfl), (Option.some.inj h).symm⟩
  | pEnc1 | pDec1 | pEnc8 | pDec8 | aEnc1 | aDec1 | aEncN | aDecN | rndArk | rndEnc | rndEncLast | rndDec | rndDecLast
  | sboxFwd _ | sboxInv _ => cases h

theorem ownedBuffer_waiting {s : State} {r : Request} {i : Instr} (hp : s.port = some r) (hd : decode r = .ok i) :
    s.ownedBuffer = namedBuffer i := by
  simp only [State.ownedBuffer, hp, hd]

/-- The core owns a buffer only through a word that waits and names it. -/
theorem ownedBuffer_eq_some {s : State} {b : NamedBuffer} (h : s.ownedBuffer = some b) :
    ∃ r i, s.port = some r ∧ decode r = .ok i ∧ namedBuffer i = some b := by
  unfold State.ownedBuffer at h
  split at h
  · cases h
  · next r hp =>
    split at h
    · next i hd => exact ⟨r, i, hp, hd, h⟩
    · cases h

/-- The bytes the host must keep off are those of the owned buffer; of a key buffer only the writes. -/
theorem owns_iff (s : State) (kind : AccessKind) (a : Nat) :
    s.owns kind a = true ↔
      ∃ b, s.ownedBuffer = some b ∧ (kind = .write ∨ b.written = true) ∧ b.addr ≤ a ∧ a < b.addr + b.count := by
  unfold State.owns
  cases s.ownedBuffer with
  | none => simp
  | some b => simp [and_assoc]

/-- Settles O28: a block buffer is owned for both kinds of access, a key buffer for writes only. -/
theorem ownedBufferIsKeptOff : Obligations.OwnedBufferIsKeptOff := by
  intro s r i a v hp hd ha
  refine ⟨fun addr n hi hlow hhigh => ?_, fun variant addr len hi hlow hhigh => ?_⟩
  · have hbuf := (ownedBuffer_waiting hp hd).trans (namedBuffer_blockCommand hi)
    have howns (kind : AccessKind) : s.owns kind a = true := (owns_iff ..).2 ⟨_, hbuf, .inr rfl, hlow, hhigh⟩
    exact ⟨State.hostAccess_owned ha (howns .write), State.hostAccess_owned ha (howns .read)⟩
  · have hbuf := (ownedBuffer_waiting hp hd).trans (namedBuffer_keysetup hi)
    have hwrite : s.owns .write a = true := (owns_iff ..).2 ⟨_, hbuf, .inl rfl, hlow, hhigh⟩
    have hread : s.owns .read a = false := by simp [State.owns, hbuf]
    exact ⟨State.hostAccess_owned ha hwrite, State.hostAccess_own ha hread⟩

/-- A byte outside the buffer of every waiting command is the host's for both kinds of access. -/
theorem owns_outside {s : State} {a : Nat}
    (h : ∀ r i, s.port = some r → decode r = .ok i →
      (∀ addr n, IsBlockCommand i addr n → a < addr ∨ addr + 16 * n ≤ a) ∧
      (∀ variant addr len, IsKeysetup i variant addr len → a < addr ∨ addr + len ≤ a)) (kind : AccessKind) :
    s.owns kind a = false := by
  rw [Bool.eq_false_iff, ne_eq, owns_iff]
  rintro ⟨b, hbuf, -, hlow, hhigh⟩
  obtain ⟨r, i, hp, hd, hname⟩ := ownedBuffer_eq_some hbuf
  obtain ⟨hblock, hkey⟩ := h r i hp hd
  rcases namedBuffer_cases hname with ⟨addr, n, hi, rfl⟩ | ⟨v, addr, len, hi, rfl⟩
  · exact (hblock addr n hi).elim (Nat.not_lt.2 hlow) (Nat.not_le.2 hhigh)
  · exact (hkey v addr len hi).elim (Nat.not_lt.2 hlow) (Nat.not_le.2 hhigh)

/-- Settles O29: what the core does not own is free for the host, and memory in its canonical form reads as written. -/
theorem hostAccessesOwnMemory : Obligations.HostAccessesOwnMemory := by
  intro s a v hw ha hout
  exact ⟨State.hostAccess_own ha (owns_outside hout .read),
    s.withByte a v, State.hostAccess_own ha (owns_outside hout .write), rfl, Memory.read_write hw a v⟩

/-! ### The accesses of a block command, in order (20_memory.md R41, R48) -/

/-- The accesses of one kind to the blocks of a buffer with these numbers, one a block. -/
def blockAccesses (kind : AccessKind) (addr : Nat) (ms : List Nat) : List BusAccess :=
  ms.map fun m => ⟨kind, addr + 16 * m, 16⟩

/-- The accesses of one chunk or group: all reads, then all writes (45_facade.md R253, R254). -/
def groupAccesses (addr : Nat) (g : Nat × Nat) : List BusAccess :=
  blockAccesses .read addr (List.range' g.1 g.2) ++ blockAccesses .write addr (List.range' g.1 g.2)

/-- The accesses of a group by the position of each block in it. -/
theorem groupAccesses_eq (addr : Nat) (g : Nat × Nat) :
    groupAccesses addr g =
      ((List.range g.2).map fun k => ⟨.read, addr + 16 * (g.1 + k), 16⟩) ++
        (List.range g.2).map fun k => ⟨.write, addr + 16 * (g.1 + k), 16⟩ := by
  simp only [groupAccesses, blockAccesses, List.range'_eq_map_range, List.map_map, Function.comp_def]

/-- `blockAccesses` in the terms of the model's records. -/
theorem map_blockAddrs (kind : AccessKind) (addr first count : Nat) :
    (blockAddrs addr first count).map (fun a => ⟨kind, a, Config.blockBytes⟩) =
      blockAccesses kind addr (List.range' first count) := by
  rw [blockAddrs, blockAccesses, List.map_map, List.range'_eq_map_range, List.map_map]
  rfl

/-- What one chunk or group adds to the record. The engine gives a block for each it takes, if they are not too many. -/
theorem runBlockGroup_bus (dir : Direction) (addr : Nat) (s : State) {g : Nat × Nat} (h : g.2 ≤ groupSize s.cfg) :
    (runBlockGroup dir addr s g).bus = s.bus ++ groupAccesses addr g := by
  have hlen : ((blockAddrs addr g.1 g.2).map s.mem.readBlock).length ≤ groupSize s.cfg := by simpa using h
  have hwrites (ys : List Block) (hys : ys.length = g.2) :
      ((blockAddrs addr g.1 g.2).zip ys).map (fun ab => (⟨.write, ab.1, Config.blockBytes⟩ : BusAccess)) =
        blockAccesses .write addr (List.range' g.1 g.2) := by
    have hfst : ((blockAddrs addr g.1 g.2).zip ys).map Prod.fst = blockAddrs addr g.1 g.2 :=
      List.map_fst_zip (by rw [length_blockAddrs, hys])
    rw [← map_blockAddrs, ← congrArg (List.map _) hfst, List.map_map]
    rfl
  simp only [runBlockGroup_eq]
  rw [engineMany_val _ _ _ _ hlen, hwrites _ (by simp), map_blockAddrs, groupAccesses, List.append_assoc]

theorem runBlockGroup_cfg (dir : Direction) (addr : Nat) (s : State) (g : Nat × Nat) :
    (runBlockGroup dir addr s g).cfg = s.cfg := by
  rw [runBlockGroup_eq]

/-- What some chunks or groups, one after the other, add to the record. -/
theorem foldl_runBlockGroup_bus (dir : Direction) (addr : Nat) (gs : List (Nat × Nat)) (s : State)
    (h : ∀ g ∈ gs, g.2 ≤ groupSize s.cfg) :
    (gs.foldl (runBlockGroup dir addr) s).bus = s.bus ++ gs.flatMap (groupAccesses addr) := by
  induction gs generalizing s with
  | nil => simp
  | cons g gs ih =>
    rw [List.forall_mem_cons] at h
    rw [List.foldl_cons, ih _ (by rw [runBlockGroup_cfg]; exact h.2), runBlockGroup_bus dir addr s h.1,
      List.flatMap_cons, List.append_assoc]

theorem runBlocks_bus (dir : Direction) (addr n : Nat) (s : State) :
    (runBlocks dir addr n s).bus = s.bus ++ (groups (groupSize s.cfg) n).flatMap (groupAccesses addr) :=
  foldl_runBlockGroup_bus dir addr _ s fun _ hg => (group_bounds hg).1

theorem runOneBlock_bus (dir : Direction) (addr : Nat) (s : State) :
    (runOneBlock dir addr s).bus = s.bus ++ [⟨.read, addr, 16⟩, ⟨.write, addr, 16⟩] := by
  rw [runOneBlock_eq]
  rfl

/-- A block command that answers `OK` has passed its checks and run. -/
theorem blockCommand_answers_ok {addr n : Nat} {run : State → State} {s t : State}
    (h : blockCommand addr n run s = .next t) (hok : Answers t .ok) : t = (run s.accept).respond .ok := by
  rcases blockCommand_cases addr n run s with ⟨-, he⟩ | ⟨-, -, he⟩ | ⟨-, -, he⟩ <;> cases he.symm.trans h
  · exact absurd (Option.some.inj hok) (by decide)
  · exact absurd (Option.some.inj hok) (by decide)
  · rfl

/-- Of the accesses of a group those of one kind. -/
theorem filter_groupAccesses (kind : AccessKind) (addr : Nat) (g : Nat × Nat) :
    (groupAccesses addr g).filter (fun a => a.kind = kind) = blockAccesses kind addr (List.range' g.1 g.2) := by
  cases kind <;> simp [groupAccesses, blockAccesses, List.filter_map, Function.comp_def]

/-- The groups go through the numbers of the blocks once, in increasing order. -/
theorem flatMap_range'_groups {size : Nat} (h : 0 < size) (n : Nat) :
    (groups size n).flatMap (fun g => List.range' g.1 g.2) = List.range n := by
  have hcover := flatMap_groups h (List.range n)
  rw [List.length_range] at hcover
  rw [← hcover]
  exact List.flatMap_congr fun g hg => (range_drop_take (group_bounds hg).2).symm

/-- The accesses of one kind of all groups: every block once, in increasing order. -/
theorem filter_flatMap_groupAccesses (kind : AccessKind) (addr : Nat) {size : Nat} (h : 0 < size) (n : Nat) :
    ((groups size n).flatMap (groupAccesses addr)).filter (fun a => a.kind = kind) =
      blockAccesses kind addr (List.range n) := by
  rw [List.filter_flatMap]
  simp only [filter_groupAccesses]
  rw [← flatMap_range'_groups h n]
  simp only [blockAccesses, List.map_flatMap]

theorem oneBlock_bus_of_ok {dir : Direction} {addr : Nat} {s t : State}
    (h : blockCommand addr 1 (runOneBlock dir addr) s = .next t) (hok : Answers t .ok) :
    t.bus = [⟨.read, addr, 16⟩, ⟨.write, addr, 16⟩] := by
  rw [blockCommand_answers_ok h hok, State.respond_bus, runOneBlock_bus, State.accept_bus, List.nil_append]

theorem blocks_bus_of_ok {dir : Direction} {addr n : Nat} {s t : State}
    (h : blockCommand addr n (runBlocks dir addr n) s = .next t) (hok : Answers t .ok) :
    t.bus = (groups (groupSize s.cfg) n).flatMap (groupAccesses addr) := by
  rw [blockCommand_answers_ok h hok, State.respond_bus, runBlocks_bus, State.accept_bus, List.nil_append,
    State.accept_cfg]

/-- Settles O21: the paths of the facade append to an empty record, one group after the other, and the groups cover
the blocks once. -/
theorem blockAccessesInOrder : Obligations.BlockAccessesInOrder := by
  refine ⟨fun s t addr i hi h hok => ?_, fun s t addr n i hi h hok => ?_⟩
  · rcases hi with rfl | rfl <;> exact oneBlock_bus_of_ok h hok
  · have hbus : t.bus = (groups (groupSize s.cfg) n).flatMap (groupAccesses addr) := by
      rcases hi with rfl | rfl <;> exact blocks_bus_of_ok h hok
    have hpos := groupSize_pos s.cfg
    rw [hbus]
    exact ⟨List.flatMap_congr fun g _ => groupAccesses_eq addr g,
      filter_flatMap_groupAccesses .read addr hpos n, filter_flatMap_groupAccesses .write addr hpos n⟩

end Sys2Proof.Machine

/-! ## The words: decoder, encoder, illegal descriptors, and the port (30_encoding.md) -/

namespace Sys2Proof

/-! ### The fields of a descriptor (30_encoding.md R61) -/

/-- The fields of the control word are fields of the whole descriptor. -/
theorem extractLsb'_descCtrl (d : BitVec 128) {start len : Nat} (h : start + len ≤ 32) :
    (descCtrl d).extractLsb' start len = d.extractLsb' start len := by
  refine BitVec.eq_of_getLsbD_eq fun i hi => ?_
  simp only [descCtrl, BitVec.getLsbD_extractLsb', hi, decide_true, Bool.true_and, Nat.zero_add]
  rw [decide_eq_true (show start + i < 32 by omega), Bool.true_and]

theorem ctrlOp_descCtrl (d : BitVec 128) : ctrlOp (descCtrl d) = d.extractLsb' 0 4 :=
  extractLsb'_descCtrl d (by decide)

theorem ctrlVariant_descCtrl (d : BitVec 128) : ctrlVariant (descCtrl d) = d.extractLsb' 4 2 :=
  extractLsb'_descCtrl d (by decide)

theorem ctrlReserved_descCtrl (d : BitVec 128) : ctrlReserved (descCtrl d) = d.extractLsb' 6 26 :=
  extractLsb'_descCtrl d (by decide)

theorem addrFits_descAddr (d : BitVec 128) : addrFits (descAddr d) = true :=
  decide_eq_true (BitVec.isLt _)

theorem lenFits_descLen (d : BitVec 128) : lenFits (descLen d) = true :=
  decide_eq_true (BitVec.isLt _)

section

variable (addr len : Nat) (variant : BitVec 2) (op : BitVec 4)

@[simp] theorem ctrlOp_descriptor : ctrlOp (descCtrl (descriptor addr len variant op)) = op := by
  rw [descCtrl_descriptor]
  exact (BitVec.extractLsb'_append_eq_of_add_le (by decide)).trans BitVec.extractLsb'_eq_self

@[simp] theorem ctrlVariant_descriptor : ctrlVariant (descCtrl (descriptor addr len variant op)) = variant := by
  rw [descCtrl_descriptor]
  exact (BitVec.extractLsb'_append_eq_of_le (by decide)).trans <|
    (BitVec.extractLsb'_append_eq_of_add_le (by decide)).trans BitVec.extractLsb'_eq_self

@[simp] theorem ctrlReserved_descriptor : ctrlReserved (descCtrl (descriptor addr len variant op)) = 0 := by
  rw [descCtrl_descriptor]
  exact (BitVec.extractLsb'_append_eq_of_le (by decide)).trans <|
    (BitVec.extractLsb'_append_eq_of_le (by decide)).trans BitVec.extractLsb'_eq_self

theorem addrField_descriptor : (descriptor addr len variant op).extractLsb' 64 64 = BitVec.ofNat 64 addr :=
  (BitVec.extractLsb'_append_eq_of_le (by decide)).trans <|
    (BitVec.extractLsb'_append_eq_of_le (by decide)).trans <|
    (BitVec.extractLsb'_append_eq_of_le (by decide)).trans <|
    (BitVec.extractLsb'_append_eq_of_le (by decide)).trans BitVec.extractLsb'_eq_self

variable {addr len}

theorem descAddr_descriptor (h : addrFits addr = true) : descAddr (descriptor addr len variant op) = addr := by
  rw [descAddr, addrField_descriptor, BitVec.toNat_ofNat]
  exact Nat.mod_eq_of_lt (of_decide_eq_true h)

theorem descLen_descriptor (h : lenFits len = true) : descLen (descriptor addr len variant op) = len := by
  rw [descLen, lenField_descriptor, BitVec.toNat_ofNat]
  exact Nat.mod_eq_of_lt (of_decide_eq_true h)

end

/-- A descriptor with no reserved bit is the one built from its fields. -/
theorem descriptor_fields {d : BitVec 128} (h : ctrlReserved (descCtrl d) = 0) :
    descriptor (descAddr d) (descLen d) (ctrlVariant (descCtrl d)) (ctrlOp (descCtrl d)) = d := by
  rw [ctrlReserved_descCtrl] at h
  rw [ctrlOp_descCtrl, ctrlVariant_descCtrl, descriptor, descAddr, descLen, BitVec.ofNat_toNat, BitVec.ofNat_toNat,
    BitVec.setWidth_eq, BitVec.setWidth_eq, ← h]
  simp only [BitVec.extractLsb'_append_extractLsb'_eq_extractLsb']
  exact BitVec.extractLsb'_eq_self

end Sys2Proof

namespace Sys2Proof.Machine

/-! ### The decoder of the command port (30_encoding.md R66, R67, R72) -/

/-- A descriptor with no reserved bit, this `VARIANT` and this `OP` (30_encoding.md R61). -/
structure HasControl (d : BitVec 128) (variant : BitVec 2) (op : BitVec 4) : Prop where
  reserved : ctrlReserved (descCtrl d) = 0
  variant : ctrlVariant (descCtrl d) = variant
  op : ctrlOp (descCtrl d) = op

/-- All that the decoder can answer to a descriptor, by the fields of the descriptor: the five causes of R72, and the
rows of R66. -/
inductive CmdDecoding (d : BitVec 128) : Except Rejected Instr → Prop
  | reservedBits (hr : ctrlReserved (descCtrl d) ≠ 0) : CmdDecoding d (.error (.illegal .reservedBits))
  | reservedOp (hop : ctrlOp (descCtrl d) = 0 ∨ 6 ≤ ctrlOp (descCtrl d)) :
      CmdDecoding d (.error (.illegal .reservedOp))
  | reservedVariant (hop : ctrlOp (descCtrl d) = 1) (hvar : ctrlVariant (descCtrl d) = 3) :
      CmdDecoding d (.error (.illegal .reservedVariant))
  | blockVariant (hlow : 2 ≤ ctrlOp (descCtrl d)) (hhigh : ctrlOp (descCtrl d) ≤ 5)
      (hvar : ctrlVariant (descCtrl d) ≠ 0) : CmdDecoding d (.error (.illegal .blockVariant))
  | unusedLength (hop : ctrlOp (descCtrl d) = 2 ∨ ctrlOp (descCtrl d) = 3) (hlen : descLen d ≠ 0) :
      CmdDecoding d (.error (.illegal .unusedLength))
  | keysetup (v : Variant) (i : Instr) (hi : IsKeysetup i v (descAddr d) (descLen d)) (h : HasControl d v.code 1) :
      CmdDecoding d (.ok i)
  | encb (h : HasControl d 0 2) (hlen : descLen d = 0) : CmdDecoding d (.ok (.encb (descAddr d)))
  | decb (h : HasControl d 0 3) (hlen : descLen d = 0) : CmdDecoding d (.ok (.decb (descAddr d)))
  | encbs (h : HasControl d 0 4) : CmdDecoding d (.ok (.encbs (descAddr d) (descLen d)))
  | decbs (h : HasControl d 0 5) : CmdDecoding d (.ok (.decbs (descAddr d) (descLen d)))

/-- The one `VARIANT` code with no key size (30_encoding.md R64). -/
theorem variant_eq_three_of_ne : ∀ v : BitVec 2, v ≠ 0 → v ≠ 1 → v ≠ 2 → v = 3 := by decide

/-- The `OP` codes of no command (30_encoding.md R63). -/
theorem op_reserved_of_ne : ∀ op : BitVec 4, op ≠ 1 → op ≠ 2 → op ≠ 3 → op ≠ 4 → op ≠ 5 → op = 0 ∨ 6 ≤ op := by
  decide

/-- One case for each branch of the decoder. -/
theorem decodeCmd_cases (d : BitVec 128) : CmdDecoding d (decodeCmd d) := by
  simp only [decodeCmd]
  split_ifs with hr h1 hv0 hv1 hv2 h2 hv hl h3 hv hl h4 hv h5 hv
  · exact .reservedBits hr
  all_goals have hr := not_not.1 hr
  · exact .keysetup .aes128 _ rfl ⟨hr, hv0, h1⟩
  · exact .keysetup .aes192 _ rfl ⟨hr, hv1, h1⟩
  · exact .keysetup .aes256 _ rfl ⟨hr, hv2, h1⟩
  · exact .reservedVariant h1 (variant_eq_three_of_ne _ hv0 hv1 hv2)
  · exact .blockVariant (by rw [h2]; decide) (by rw [h2]; decide) hv
  · exact .unusedLength (.inl h2) hl
  · exact .encb ⟨hr, not_not.1 hv, h2⟩ (not_not.1 hl)
  · exact .blockVariant (by rw [h3]; decide) (by rw [h3]; decide) hv
  · exact .unusedLength (.inr h3) hl
  · exact .decb ⟨hr, not_not.1 hv, h3⟩ (not_not.1 hl)
  · exact .blockVariant (by rw [h4]; decide) (by rw [h4]; decide) hv
  · exact .encbs ⟨hr, not_not.1 hv, h4⟩
  · exact .blockVariant (by rw [h5]; decide) (by rw [h5]; decide) hv
  · exact .decbs ⟨hr, not_not.1 hv, h5⟩
  · exact .reservedOp (op_reserved_of_ne _ h1 h2 h3 h4 h5)

/-- R72 in terms of the fields that the decoder reads. -/
theorem illegalDescriptor_iff (d : BitVec 128) :
    IllegalDescriptor d ↔
      ctrlReserved (descCtrl d) ≠ 0 ∨ (ctrlOp (descCtrl d) = 0 ∨ 6 ≤ ctrlOp (descCtrl d)) ∨
        (ctrlOp (descCtrl d) = 1 ∧ ctrlVariant (descCtrl d) = 3) ∨
        (2 ≤ ctrlOp (descCtrl d) ∧ ctrlOp (descCtrl d) ≤ 5 ∧ ctrlVariant (descCtrl d) ≠ 0) ∨
        ((ctrlOp (descCtrl d) = 2 ∨ ctrlOp (descCtrl d) = 3) ∧ descLen d ≠ 0) := by
  simp only [IllegalDescriptor, ctrlOp_descCtrl, ctrlVariant_descCtrl, ctrlReserved_descCtrl, descLen, ne_eq,
    ← BitVec.toNat_inj, BitVec.le_def]
  rfl

/-- The error cases of the decoder are the illegal descriptors. -/
theorem CmdDecoding.illegal_of_error {d : BitVec 128} {e : Rejected} (h : CmdDecoding d (.error e)) :
    IllegalDescriptor d ∧ ∃ c, e = .illegal c := by
  rw [illegalDescriptor_iff]
  cases h with
  | reservedBits hr => exact ⟨.inl hr, _, rfl⟩
  | reservedOp hop => exact ⟨.inr (.inl hop), _, rfl⟩
  | reservedVariant hop hvar => exact ⟨.inr (.inr (.inl ⟨hop, hvar⟩)), _, rfl⟩
  | blockVariant hlow hhigh hvar => exact ⟨.inr (.inr (.inr (.inl ⟨hlow, hhigh, hvar⟩))), _, rfl⟩
  | unusedLength hop hlen => exact ⟨.inr (.inr (.inr (.inr ⟨hop, hlen⟩))), _, rfl⟩

/-- None of the five cases of R72 holds of a descriptor that decodes. -/
theorem CmdDecoding.not_illegal_of_ok {d : BitVec 128} {i : Instr} (h : CmdDecoding d (.ok i)) :
    ¬IllegalDescriptor d := by
  rw [illegalDescriptor_iff]
  cases h with
  | keysetup v _ _ h => cases v <;> simp [h.reserved, h.variant, h.op, Variant.code]
  | encb h hlen | decb h hlen => simp [h.reserved, h.variant, h.op, hlen]
  | encbs h | decbs h => simp [h.reserved, h.variant, h.op]

/-- A descriptor with these fields is the one built from them. -/
theorem HasControl.cmd_descriptor {d : BitVec 128} {variant : BitVec 2} {op : BitVec 4} (h : HasControl d variant op)
    {len : Nat} (hlen : descLen d = len) : Request.cmd (descriptor (descAddr d) len variant op) = .cmd d := by
  rw [← h.op, ← h.variant, ← hlen, descriptor_fields h.reserved]

theorem encode_keysetup {i : Instr} {v : Variant} {addr len : Nat} (hi : IsKeysetup i v addr len) :
    encode i = .cmd (descriptor addr len v.code 1) := by
  cases v <;> cases hi <;> rfl

theorem wellFormed_keysetup {i : Instr} {v : Variant} {addr len : Nat} (hi : IsKeysetup i v addr len) :
    i.wellFormed = (addrFits addr && lenFits len) := by
  cases v <;> cases hi <;> rfl

/-- What decodes from a descriptor is well-formed, and the descriptor is its word. -/
theorem CmdDecoding.encode_eq {d : BitVec 128} {i : Instr} (h : CmdDecoding d (.ok i)) :
    i.wellFormed = true ∧ encode i = .cmd d := by
  have hfits : (addrFits (descAddr d) && lenFits (descLen d)) = true := by
    rw [addrFits_descAddr, lenFits_descLen, Bool.and_self]
  cases h with
  | keysetup v _ hi h =>
    exact ⟨(wellFormed_keysetup hi).trans hfits, (encode_keysetup hi).trans (h.cmd_descriptor rfl)⟩
  | encb h hlen | decb h hlen => exact ⟨addrFits_descAddr d, h.cmd_descriptor hlen⟩
  | encbs h | decbs h => exact ⟨hfits, h.cmd_descriptor rfl⟩

theorem CmdDecoding.isCommand_of_ok {d : BitVec 128} {i : Instr} (h : CmdDecoding d (.ok i)) :
    isCommand i = true := by
  cases h with
  | keysetup v _ hi => cases v <;> cases hi <;> rfl
  | encb | decb | encbs | decbs => rfl

/-! ### Every instruction and its word -/

section

variable {i : Instr} {addr len : Nat}

theorem decodeCmd_keysetup {v : Variant} (hi : IsKeysetup i v addr len) (ha : addrFits addr = true)
    (hl : lenFits len = true) : decodeCmd (descriptor addr len v.code 1) = .ok i := by
  cases v <;> cases hi <;> simp [decodeCmd, Variant.code, descAddr_descriptor, descLen_descriptor, ha, hl]

theorem decodeCmd_encb (ha : addrFits addr = true) : decodeCmd (descriptor addr 0 0 2) = .ok (.encb addr) := by
  simp [decodeCmd, descAddr_descriptor, descLen_descriptor (len := 0) _ _ rfl, ha]

theorem decodeCmd_decb (ha : addrFits addr = true) : decodeCmd (descriptor addr 0 0 3) = .ok (.decb addr) := by
  simp [decodeCmd, descAddr_descriptor, descLen_descriptor (len := 0) _ _ rfl, ha]

theorem decodeCmd_encbs (ha : addrFits addr = true) (hl : lenFits len = true) :
    decodeCmd (descriptor addr len 0 4) = .ok (.encbs addr len) := by
  simp [decodeCmd, descAddr_descriptor, descLen_descriptor, ha, hl]

theorem decodeCmd_decbs (ha : addrFits addr = true) (hl : lenFits len = true) :
    decodeCmd (descriptor addr len 0 5) = .ok (.decbs addr len) := by
  simp [decodeCmd, descAddr_descriptor, descLen_descriptor, ha, hl]

theorem decode_romRead {inverse : Bool} {x : Byte} {r : Request} (h : Laws.FixedBits.IsRomRead inverse x r) :
    decode r = .ok (if inverse then .sboxInv x else .sboxFwd x) := by
  obtain ⟨a, rfl, hinv, hbyte⟩ := h
  simp only [decode, decodeSrom, hinv, hbyte]

/-- Of the engine requests only the eight words of R68 decode. -/
theorem encode_of_decodeEreq {w : BitVec 5} (h : decodeEreq w = .ok i) :
    i.wellFormed = true ∧ encode i = .ereq w := by
  unfold decodeEreq at h
  split_ifs at h <;> cases h <;> subst_vars <;> exact ⟨rfl, rfl⟩

/-- Of the operation selects only the five words of R69 decode. -/
theorem encode_of_decodeRsel {w : BitVec 3} (h : decodeRsel w = .ok i) :
    i.wellFormed = true ∧ encode i = .rsel w := by
  unfold decodeRsel decodeRndSel at h
  split_ifs at h <;> cases h <;> subst_vars <;> exact ⟨rfl, rfl⟩

/-- An address of the ROM is its `INV` bit above its byte (30_encoding.md R70). -/
theorem srom_address_fields (a : BitVec 9) : BitVec.ofBool (a.getLsbD 8) ++ (a.extractLsb' 0 8 : Byte) = a := by
  have htop : BitVec.ofBool (a.getLsbD 8) = a.extractLsb' 8 1 := by
    ext i hi
    simp [show i = 0 by omega]
  rw [htop]
  exact (BitVec.extractLsb'_append_extractLsb'_eq_extractLsb' rfl).trans BitVec.extractLsb'_eq_self

theorem encode_decodeSrom (a : BitVec 9) :
    (decodeSrom a).wellFormed = true ∧ encode (decodeSrom a) = .srom a := by
  have ha := srom_address_fields a
  unfold decodeSrom
  cases hinv : a.getLsbD 8 <;> rw [hinv] at ha <;> exact ⟨rfl, congrArg Request.srom ha⟩

end

/-- Settles O1: a descriptor gives back the fields it was built from, an address of the ROM its two, and the other words
are constants. -/
theorem decodeOfEncode : Obligations.DecodeOfEncode := by
  intro i hwf
  cases i with
  | keysetup128 addr len =>
    obtain ⟨ha, hl⟩ := Bool.and_eq_true_iff.1 hwf
    exact decodeCmd_keysetup (v := .aes128) rfl ha hl
  | keysetup192 addr len =>
    obtain ⟨ha, hl⟩ := Bool.and_eq_true_iff.1 hwf
    exact decodeCmd_keysetup (v := .aes192) rfl ha hl
  | keysetup256 addr len =>
    obtain ⟨ha, hl⟩ := Bool.and_eq_true_iff.1 hwf
    exact decodeCmd_keysetup (v := .aes256) rfl ha hl
  | encb addr => exact decodeCmd_encb hwf
  | decb addr => exact decodeCmd_decb hwf
  | encbs addr n =>
    obtain ⟨ha, hn⟩ := Bool.and_eq_true_iff.1 hwf
    exact decodeCmd_encbs ha hn
  | decbs addr n =>
    obtain ⟨ha, hn⟩ := Bool.and_eq_true_iff.1 hwf
    exact decodeCmd_decbs ha hn
  | sboxFwd x => exact decode_romRead (Laws.FixedBits.sboxFwd x)
  | sboxInv y => exact decode_romRead (Laws.FixedBits.sboxInv y)
  | pEnc1 | pDec1 | pEnc8 | pDec8 | aEnc1 | aDec1 | aEncN | aDecN | rndArk | rndEnc | rndEncLast | rndDec
  | rndDecLast => rfl

/-- Settles O2: every bit of a word that decodes belongs to a field, and the decoder has read it. -/
theorem encodeOfDecode : Obligations.EncodeOfDecode := by
  intro r i h
  cases r with
  | cmd d =>
    have hd := decodeCmd_cases d
    rw [show decodeCmd d = .ok i from h] at hd
    exact hd.encode_eq
  | ereq w => exact encode_of_decodeEreq h
  | rsel w => exact encode_of_decodeRsel h
  | srom a =>
    cases h
    exact encode_decodeSrom a

/-! ### The response words (30_encoding.md R65) -/

theorem Code.bits_injective {c c' : Code} (h : c.bits = c'.bits) : c = c' := by
  cases c <;> cases c' <;> revert h <;> decide

/-- The code of a response can be read from its word (30_encoding.md R65). -/
theorem Code.word_injective {c c' : Code} (h : c.word = c'.word) : c = c' :=
  Code.bits_injective ((BitVec.append_right_inj _).1 h)

/-- Settles O7: the words are the codes with zeros above, and the codes differ. -/
theorem responseWords : Obligations.ResponseWords :=
  ⟨⟨rfl, rfl, rfl, rfl, rfl⟩, fun _ _ => Code.word_injective⟩

/-! ### The answers to a descriptor (30_encoding.md R72) -/

/-- Whether a descriptor decodes is a matter of R72. -/
theorem decode_cmd_cases (d : BitVec 128) :
    (IllegalDescriptor d ∧ ∃ c, decode (.cmd d) = .error (.illegal c)) ∨
      (¬IllegalDescriptor d ∧ ∃ i, decode (.cmd d) = .ok i ∧ isCommand i = true) := by
  have hd := decodeCmd_cases d
  rw [decode]
  cases h : decodeCmd d with
  | error e =>
    rw [h] at hd
    obtain ⟨hill, c, rfl⟩ := hd.illegal_of_error
    exact .inl ⟨hill, c, rfl⟩
  | ok i =>
    rw [h] at hd
    exact .inr ⟨hd.not_illegal_of_ok, i, rfl, hd.isCommand_of_ok⟩

theorem answeredOnly_respond (s : State) (c : Code) : AnsweredOnly c s (s.accept.respond c) :=
  ⟨rfl, ⟨rfl, rfl, rfl⟩, rfl, rfl, rfl, rfl, rfl⟩

/-- A step with an illegal descriptor waiting. -/
theorem step_illegal {s : State} {r : Request} {c : IllegalCause} (hp : s.port = some r)
    (hd : decode r = .error (.illegal c)) : step s = .next (s.accept.respond .illegalCommand) := by
  simp only [step, hp, hd, rejectWord, State.raise_eq]

/-- A word was answered with a code other than `IllegalCommand`, and the port is free. -/
def AnswersLegal (t : State) : Prop := ∃ c, Answers t c ∧ c ≠ .illegalCommand ∧ t.port = none

/-- A KEYSETUP that is executed (60_exceptions.md R282, R284). -/
theorem keySetup_answersLegal (v : Variant) (addr len : Nat) (s : State) :
    ∃ t, keySetup v addr len s = .next t ∧ AnswersLegal t := by
  rcases keySetup_cases v addr len s with ⟨-, he⟩ | ⟨-, -, he⟩ | ⟨-, -, he⟩
  · exact ⟨_, he, .invalidKeyLength, rfl, nofun, rfl⟩
  · exact ⟨_, he, .bufferFault, rfl, nofun, rfl⟩
  · exact ⟨_, he, .ok, rfl, nofun, rfl⟩

/-- `hframe` says what the block path leaves alone, the port among it. -/
theorem blockCommand_answersLegal {addr n : Nat} {run : State → State}
    (hframe : ∀ s, ∃ mem bus unitOps, run s = { s with mem, bus, unitOps }) (s : State) :
    ∃ t, blockCommand addr n run s = .next t ∧ AnswersLegal t := by
  rcases blockCommand_cases addr n run s with ⟨-, he⟩ | ⟨-, -, he⟩ | ⟨-, -, he⟩
  · exact ⟨_, he, .noKey, rfl, nofun, rfl⟩
  · exact ⟨_, he, .bufferFault, rfl, nofun, rfl⟩
  · obtain ⟨mem, bus, unitOps, hrun⟩ := hframe s.accept
    exact ⟨_, he, .ok, rfl, nofun, by rw [State.respond_port, hrun]; rfl⟩

theorem exec_answersLegal {i : Instr} (hi : isCommand i = true) (s : State) :
    ∃ t, exec i s = .next t ∧ AnswersLegal t := by
  cases i with
  | keysetup128 addr len => exact keySetup_answersLegal .aes128 addr len s
  | keysetup192 addr len => exact keySetup_answersLegal .aes192 addr len s
  | keysetup256 addr len => exact keySetup_answersLegal .aes256 addr len s
  | encb addr => exact blockCommand_answersLegal (runOneBlock_frame .enc addr) s
  | decb addr => exact blockCommand_answersLegal (runOneBlock_frame .dec addr) s
  | encbs addr n => exact blockCommand_answersLegal (runBlocks_frame .enc addr n) s
  | decbs addr n => exact blockCommand_answersLegal (runBlocks_frame .dec addr n) s
  | pEnc1 | pDec1 | pEnc8 | pDec8 | aEnc1 | aDec1 | aEncN | aDecN | rndArk | rndEnc | rndEncLast | rndDec | rndDecLast
  | sboxFwd _ | sboxInv _ => cases hi

theorem AnswersLegal.not_illegalCommand {t : State} (h : AnswersLegal t) : ¬Answers t .illegalCommand := by
  obtain ⟨c, hc, hne, -⟩ := h
  exact fun hill => hne (Code.word_injective (Option.some.inj (hc.symm.trans hill)))

/-- Settles O3: the decoder rejects what R72 lists, and a command that is executed is answered with one of the other
codes. -/
theorem illegalDescriptorsExactly : Obligations.IllegalDescriptorsExactly := by
  intro s d hp
  rcases decode_cmd_cases d with ⟨hill, c, hd⟩ | ⟨hleg, i, hd, hi⟩
  · exact ⟨iff_of_true ⟨c, hd⟩ hill, fun _ => ⟨_, step_illegal hp hd, answeredOnly_respond s _⟩,
      fun hleg => absurd hill hleg⟩
  · obtain ⟨t, ht, hans⟩ := exec_answersLegal hi s
    refine ⟨iff_of_false ?_ hleg, fun h => absurd h hleg, fun _ => ⟨t, ?_, hans.not_illegalCommand⟩⟩
    · rintro ⟨c, hc⟩
      cases hd.symm.trans hc
    · rw [step_decoded hp hd, ht]

/-! ### The port (30_encoding.md R60) -/

/-- A step with a descriptor waiting answers it and frees the port. -/
theorem step_answers_descriptor {s : State} {d : BitVec 128} (hp : s.port = some (.cmd d)) :
    ∃ t c, step s = .next t ∧ Answers t c ∧ t.port = none := by
  rcases decode_cmd_cases d with ⟨-, c, hd⟩ | ⟨-, i, hd, hi⟩
  · exact ⟨_, .illegalCommand, step_illegal hp hd, rfl, rfl⟩
  · obtain ⟨t, ht, c, hc, -, hport⟩ := exec_answersLegal hi s
    exact ⟨t, c, (step_decoded hp hd).trans ht, hc, hport⟩

/-- Settles O30: an offer that is taken fills the port, and the step that answers it empties the port again. -/
theorem portTakesOneAtATime : Obligations.PortTakesOneAtATime := by
  intro s d d'
  refine ⟨fun hp => ?_, fun r hp => State.issue_occupied hp⟩
  obtain ⟨u, c, hu, hc, hport⟩ := step_answers_descriptor (State.withDescriptor_port s d)
  exact ⟨s.withDescriptor d, u, u.withDescriptor d', State.issue_empty hp, rfl,
    State.issue_occupied (State.withDescriptor_port s d), hu, ⟨c, hc⟩, State.issue_empty hport,
    State.withDescriptor_port u d'⟩

/-! ### The host's actions and the invariant -/

/-- Settles O27: an offer and a write leave the context and give no new response, the reset event clears both. -/
theorem hostActionsKeepInvariant : Obligations.HostActionsKeepInvariant := by
  intro s t hinv
  have ⟨hw, _, _, hresp⟩ := hinv
  refine ⟨fun d h => ?_, fun addr v h => ?_, fun h => ?_⟩
  · obtain ⟨-, rfl⟩ := State.issue_next h
    exact hinv.of_sameContext ⟨rfl, rfl, rfl⟩ hw nofun
  · have hwt := State.hostWrite_wf hw h
    obtain ⟨-, -, rfl⟩ := State.hostAccess_next h
    exact hinv.of_sameContext ⟨rfl, rfl, rfl⟩ hwt hresp
  · obtain ⟨-, rfl⟩ := State.resetEvent_next h
    exact ⟨hw, nofun, fun _ => ⟨rfl, rfl⟩, nofun⟩

/-! ### Refusals (30_encoding.md R73; 93_implementation_defined.md U5) -/

/-- The two reasons for which a unit refuses an instruction. -/
inductive UnitRefusal : Refusal → Prop
  | engineNotSelected : UnitRefusal .engineNotSelected
  | roundUnitAbsent : UnitRefusal .roundUnitAbsent

section

variable {s : State} {ρ : Refusal} {dir : Direction}

theorem portableOneStep_refused (h : portableOneStep dir s = .refused ρ) : UnitRefusal ρ := by
  unfold portableOneStep at h
  split at h <;> cases h
  exact .engineNotSelected

theorem portableBatchStep_refused (h : portableBatchStep dir s = .refused ρ) : UnitRefusal ρ := by
  unfold portableBatchStep at h
  split at h <;> cases h
  exact .engineNotSelected

theorem accelOneStep_refused (h : accelOneStep dir s = .refused ρ) : UnitRefusal ρ := by
  unfold accelOneStep at h
  split at h <;> cases h
  exact .engineNotSelected

theorem accelManyStep_refused (h : accelManyStep dir s = .refused ρ) : UnitRefusal ρ := by
  unfold accelManyStep at h
  split at h <;> cases h
  exact .engineNotSelected

theorem roundUnitStep_refused {sel : RndSel} (h : roundUnitStep sel s = .refused ρ) : UnitRefusal ρ := by
  unfold roundUnitStep at h
  split at h <;> cases h
  exact .roundUnitAbsent

/-- The core always answers a command (60_exceptions.md R289). -/
theorem exec_command_not_refused {i : Instr} (hi : isCommand i = true) : ¬exec i s = .refused ρ := by
  obtain ⟨t, ht, -⟩ := exec_answersLegal hi s
  rw [ht]
  nofun

/-- Every refusal of an instruction is that of a unit. -/
theorem exec_refused {i : Instr} (h : exec i s = .refused ρ) : UnitRefusal ρ := by
  cases i with
  | keysetup128 | keysetup192 | keysetup256 | encb | decb | encbs | decbs =>
    exact absurd h (exec_command_not_refused rfl)
  | pEnc1 | pDec1 => exact portableOneStep_refused h
  | pEnc8 | pDec8 => exact portableBatchStep_refused h
  | aEnc1 | aDec1 => exact accelOneStep_refused h
  | aEncN | aDecN => exact accelManyStep_refused h
  | rndArk | rndEnc | rndEncLast | rndDec | rndDecLast => exact roundUnitStep_refused h
  | sboxFwd | sboxInv => cases h

/-- A refusal that is none of a unit's comes from a reserved word of an internal format. -/
theorem step_refused_iff {r : Request} (hp : s.port = some r) (hρ : ¬UnitRefusal ρ) :
    step s = .refused ρ ↔
      (decode r = .error .reservedEreq ∧ ρ = .reservedEngineRequest) ∨
        (decode r = .error .reservedRsel ∧ ρ = .reservedRoundSelect) := by
  simp only [step, hp]
  cases hd : decode r with
  | ok i => simpa using fun h => hρ (exec_refused h)
  | error e => cases e <;> simp [rejectWord, eq_comm]

end

theorem decodeEreq_reserved_iff : ∀ w : BitVec 5, decodeEreq w = .error .reservedEreq ↔
    w ∉ [0b00010, 0b00011, 0b00100, 0b00101, 0b10010, 0b10011, 0b10100, 0b10101] := by decide

theorem decodeRsel_reserved_iff : ∀ w : BitVec 3, decodeRsel w = .error .reservedRsel ↔ 5 ≤ w.toNat := by decide

/-- Settles O6: no unit refuses for these two reasons, so only the decoder's rejection of the word does. -/
theorem reservedInternalWordsRefused : Obligations.ReservedInternalWordsRefused := by
  refine ⟨fun s w hp => ?_, fun s w hp => ?_⟩
  · rw [step_refused_iff (ρ := .reservedEngineRequest) hp nofun, ← decodeEreq_reserved_iff]
    simp [decode]
  · rw [step_refused_iff (ρ := .reservedRoundSelect) hp nofun, ← decodeRsel_reserved_iff]
    simp [decode]

end Sys2Proof.Machine

/-! ## The key schedule (40_key_schedule.md) -/

namespace Sys2Proof.Machine

/-! ### Bytes of words, and words of blocks (00_scope.md R13, R14) -/

/-- Byte `r` of the word of four bytes. -/
theorem byteAt_wordOf (f : Nat → Byte) {r : Nat} (hr : r < 4) : byteAt (wordOf (f 0) (f 1) (f 2) (f 3)) r = f r := by
  unfold byteAt wordOf
  interval_cases r
  · exact append_byte_low _ _
  · rw [append_byte_high _ _ 0, append_byte_low]
  · rw [append_byte_high _ _ 8, append_byte_high _ _ 0, append_byte_low]
  · rw [append_byte_high _ _ 16, append_byte_high _ _ 8, append_byte_high _ _ 0, BitVec.extractLsb'_eq_self]

/-- A byte of the low word of an append. -/
theorem byteAt_append_word_low {W : Nat} (x : BitVec W) (w : Word) {r : Nat} (hr : r < 4) :
    byteAt (x ++ w) r = byteAt w r :=
  byte_ext fun j hj => by
    simp only [getLsbD_byteAt, BitVec.getLsbD_append, show 8 * r + j < 32 by omega, ite_true]

/-- The bytes above the low word of an append. -/
theorem byteAt_append_word_high {W : Nat} (x : BitVec W) (w : Word) (p : Nat) :
    byteAt (x ++ w) (p + 4) = byteAt x p :=
  byte_ext fun j hj => by
    simp only [getLsbD_byteAt, BitVec.getLsbD_append, show ¬8 * (p + 4) + j < 32 by omega, ite_false,
      show 8 * (p + 4) + j - 32 = 8 * p + j by omega]

/-- Byte `4c + r` of the block of four words is byte `r` of word `c`. -/
theorem byteAt_blockOfWords (f : Nat → Word) {c r : Nat} (hc : c < 4) (hr : r < 4) :
    byteAt (blockOfWords (f 0) (f 1) (f 2) (f 3)) (4 * c + r) = byteAt (f c) r := by
  unfold blockOfWords
  interval_cases c
  · rw [show 4 * 0 + r = r by omega, byteAt_append_word_low _ _ hr]
  · rw [show 4 * 1 + r = r + 4 by omega, byteAt_append_word_high, byteAt_append_word_low _ _ hr]
  · rw [show 4 * 2 + r = r + 4 + 4 by omega, byteAt_append_word_high, byteAt_append_word_high,
      byteAt_append_word_low _ _ hr]
  · rw [show 4 * 3 + r = r + 4 + 4 + 4 by omega, byteAt_append_word_high, byteAt_append_word_high,
      byteAt_append_word_high]

/-! ### The words (40_key_schedule.md R94, R96) -/

theorem keyWords_pos (v : Variant) : 0 < v.keyWords := by cases v <;> decide

theorem keyWords_le (v : Variant) : v.keyWords ≤ 4 * (v.rounds + 1) := by cases v <;> decide

theorem keyBytes_eq (v : Variant) : v.keyBytes = 4 * v.keyWords := by cases v <;> rfl

/-- The first `m` words of a schedule, as 40_key_schedule.md R94 and R96 say them. -/
structure IsSchedule (sub : Word → Traced Word) (nk : Nat) (key : List Byte) (m : Nat) (w : List Word) : Prop where
  length : w.length = m
  start : ∀ i < nk, w.getD i 0 =
    wordOf (key.getD (4 * i) 0) (key.getD (4 * i + 1) 0) (key.getD (4 * i + 2) 0) (key.getD (4 * i + 3) 0)
  recurrence : ∀ i, nk ≤ i → i < m →
    w.getD i 0 = w.getD (i - nk) 0 ^^^ (scheduleTemp sub nk i (w.getD (i - 1) 0)).val

section

variable {sub : Word → Traced Word} {nk : Nat} {key : List Byte}

theorem isSchedule_keyScheduleStart : IsSchedule sub nk key nk (keyScheduleStart nk key) where
  length := by simp [keyScheduleStart]
  start i hi := by simp [keyScheduleStart, hi]
  recurrence i hle hlt := absurd hlt (Nat.not_lt.2 hle)

/-- A step appends the next word; the words before it, which are all that it and they depend on, stay. -/
theorem isSchedule_scheduleStep {m : Nat} {t : Traced (List Word)} (hpos : 0 < nk) (hm : nk ≤ m)
    (h : IsSchedule sub nk key m t.val) : IsSchedule sub nk key (m + 1) (scheduleStep sub nk t m).val := by
  obtain ⟨hlen, hstart, hrec⟩ := h
  have hold {i : Nat} (hi : i < m) : (scheduleStep sub nk t m).val.getD i 0 = t.val.getD i 0 :=
    List.getD_append _ _ _ _ (hlen ▸ hi)
  have hnew : (scheduleStep sub nk t m).val.getD m 0 =
      t.val.getD (m - nk) 0 ^^^ (scheduleTemp sub nk m (t.val.getD (m - 1) 0)).val := by
    simp [scheduleStep, ← hlen]
  refine ⟨by simp [scheduleStep, hlen], fun i hi => ?_, fun i hle hlt => ?_⟩
  · rw [hold (by omega), hstart i hi]
  · rw [hold (show i - nk < m by omega), hold (show i - 1 < m by omega)]
    rcases Nat.lt_succ_iff_lt_or_eq.1 hlt with hi | rfl
    · rw [hold hi, hrec i hle hi]
    · exact hnew

theorem isSchedule_foldl (hpos : 0 < nk) (n : Nat) :
    IsSchedule sub nk key (nk + n)
      ((List.range n).foldl (fun t k => scheduleStep sub nk t (nk + k)) ⟨keyScheduleStart nk key, []⟩).val := by
  induction n with
  | zero => exact isSchedule_keyScheduleStart
  | succ n ih =>
    rw [List.range_succ, List.foldl_append]
    exact isSchedule_scheduleStep hpos (Nat.le_add_right nk n) ih

end

/-- The words that the expander computes, by any substitution, are the `4(Nr+1)` words of the schedule. -/
theorem isSchedule_scheduleWords (sub : Word → Traced Word) (v : Variant) (key : List Byte) :
    IsSchedule sub v.keyWords key (4 * (v.rounds + 1)) (scheduleWords sub v key).val := by
  have h := isSchedule_foldl (sub := sub) (key := key) (keyWords_pos v) (4 * (v.rounds + 1) - v.keyWords)
  rwa [Nat.add_sub_cancel' (keyWords_le v)] at h

/-- `temp` by the table's substitution (40_key_schedule.md R96). -/
theorem scheduleTemp_subWord_val (nk i : Nat) (prev : Word) :
    (scheduleTemp (fun x => ⟨subWord x, []⟩) nk i prev).val =
      if i % nk = 0 then subWord (rotWord prev) ^^^ rcon (i / nk)
      else if nk = 8 ∧ i % nk = 4 then subWord prev
      else prev := by
  unfold scheduleTemp
  split_ifs <;> rfl

/-- Settles O53: every step of the expander keeps what the two rules say of the words so far. -/
theorem scheduleRecurrence : Obligations.ScheduleRecurrence := by
  intro v key
  obtain ⟨hlen, hstart, hrec⟩ := isSchedule_scheduleWords (fun x => ⟨subWord x, []⟩) v key
  exact ⟨hlen, hstart, fun i hle hlt => by rw [hrec i hle hlt, scheduleTemp_subWord_val]⟩

/-! ### The round keys (40_key_schedule.md R97) -/

/-- What a round-key register holds that a schedule has filled. -/
theorem roundKey_registersOfWords (nr : Nat) (w : List Word) {j : Nat} (hj : j < 15) :
    roundKey (registersOfWords nr w) j =
      if j ≤ nr then
        blockOfWords (w.getD (4 * j) 0) (w.getD (4 * j + 1) 0) (w.getD (4 * j + 2) 0) (w.getD (4 * j + 3) 0)
      else 0 := by
  simp [roundKey, registersOfWords, hj]

/-- Byte `4c + r` of a round key is byte `r` of its word `c`. -/
theorem byteAt_roundKey_registersOfWords {nr : Nat} (w : List Word) {j c r : Nat} (hj : j < 15) (hnr : j ≤ nr)
    (hc : c < 4) (hr : r < 4) :
    byteAt (roundKey (registersOfWords nr w) j) (4 * c + r) = byteAt (w.getD (4 * j + c) 0) r := by
  rw [roundKey_registersOfWords nr w hj, if_pos hnr]
  exact byteAt_blockOfWords (fun c => w.getD (4 * j + c) 0) hc hr

/-- Settles O54: the register file is filled from the words, four to a register, and with zeros above `Nr`. -/
theorem roundKeysFromWords : Obligations.RoundKeysFromWords := by
  refine fun v key j hj => ⟨fun hnr c hc r hr => ?_, fun hnr => ?_⟩
  · exact byteAt_roundKey_registersOfWords _ hj hnr hc hr
  · exact (roundKey_registersOfWords v.rounds _ hj).trans (if_neg (Nat.not_le.2 hnr))

/-- Byte `i` of the key is byte `i mod 4` of schedule word `i / 4` (40_key_schedule.md R94). -/
theorem byteAt_scheduleWords_key (sub : Word → Traced Word) {v : Variant} (key : List Byte) {i : Nat}
    (hi : i < v.keyBytes) : byteAt ((scheduleWords sub v key).val.getD (i / 4) 0) (i % 4) = key.getD i 0 := by
  have hword : i / 4 < v.keyWords := by rw [keyBytes_eq] at hi; omega
  rw [(isSchedule_scheduleWords sub v key).start _ hword]
  refine (byteAt_wordOf (fun r => key.getD (4 * (i / 4) + r) 0) (Nat.mod_lt i (by decide))).trans ?_
  exact congrArg (key.getD · 0) (Nat.div_add_mod i 4)

/-- Settles O55: byte `i` of the round keys in order is byte `i mod 4` of word `i / 4`, which is a word of the key. -/
theorem firstRoundKeysAreTheKey : Obligations.FirstRoundKeysAreTheKey := by
  intro v key _ i hi
  have hround : i / 16 < 2 := by cases v <;> simp only [Variant.keyBytes] at hi <;> omega
  have hnr : 1 ≤ v.rounds := by cases v <;> decide
  have hbyte := (roundKeysFromWords v key (i / 16) (by omega)).1 (by omega) (i % 16 / 4) (by omega) (i % 4) (by omega)
  rw [show 4 * (i % 16 / 4) + i % 4 = i % 16 by omega, show 4 * (i / 16) + i % 16 / 4 = i / 4 by omega] at hbyte
  exact hbyte.trans (byteAt_scheduleWords_key _ key hi)

/-! ### The substitution hardware (40_key_schedule.md R101, R102) -/

/-- Settles O56: both engines' substitutions have the values of the table's. -/
theorem scheduleIndependentOfEngine : Obligations.ScheduleIndependentOfEngine := expandKey_engineSubWord_val

end Sys2Proof.Machine

/-! ## The statements of 41_sbox.md -/

namespace Sys2Proof.Machine

/-! ### Multiplication in GF(2^8), from what commutes with `xor` and with `xtime` (41_sbox.md R113, R114)

A product is a sum of multiples of its first factor by powers of `x`, so every map of bytes that commutes with `xor` and
with multiplication by `x` goes through a product. The laws of the field are uses of this one fact. -/

/-- The sum of the multiples of `a` that the lowest `n` bits of `b` select (41_sbox.md R113). -/
def partialProduct (a b : Byte) : Nat → Byte
  | 0 => 0
  | n + 1 => partialProduct a b n ^^^ if b.getLsbD n then xtime^[n] a else 0

theorem gmul_eq_partialProduct (a b : Byte) : gmul a b = partialProduct a b 8 := by
  have hloop : ∀ n, (List.range n).foldl (fun (acc : Byte × Byte) i =>
      (if b.getLsbD i then acc.1 ^^^ acc.2 else acc.1, xtime acc.2)) (0, a) = (partialProduct a b n, xtime^[n] a) := by
    intro n
    induction n with
    | zero => rfl
    | succ n ih =>
      rw [List.range_succ, List.foldl_append, ih, Function.iterate_succ_apply']
      cases hb : b.getLsbD n <;> simp [partialProduct, hb]
  exact congrArg Prod.fst (hloop 8)

/-- A map of bytes that commutes with `xor` and with multiplication by `x`. -/
structure FieldLinear (f : Byte → Byte) : Prop where
  map_xor : ∀ a b, f (a ^^^ b) = f a ^^^ f b
  map_xtime : Function.Commute f xtime

namespace FieldLinear

variable {f : Byte → Byte}

theorem map_zero (h : FieldLinear f) : f 0 = 0 := by
  simpa using h.map_xor 0 0

theorem map_partialProduct (h : FieldLinear f) (a b : Byte) (n : Nat) :
    f (partialProduct a b n) = partialProduct (f a) b n := by
  induction n with
  | zero => exact h.map_zero
  | succ n ih =>
    have hpower : f (xtime^[n] a) = xtime^[n] (f a) := h.map_xtime.iterate_right n a
    simp only [partialProduct, h.map_xor, ih, apply_ite f, hpower, h.map_zero]

theorem map_gmul (h : FieldLinear f) (a b : Byte) : f (gmul a b) = gmul (f a) b := by
  rw [gmul_eq_partialProduct, gmul_eq_partialProduct, h.map_partialProduct]

end FieldLinear

theorem fieldLinear_xtime : FieldLinear xtime := ⟨xtime_xor, .refl xtime⟩

theorem iterate_xtime_xor (n : Nat) (a b : Byte) : xtime^[n] (a ^^^ b) = xtime^[n] a ^^^ xtime^[n] b :=
  Function.Semiconj₂.iterate xtime_xor n a b

theorem partialProduct_xor_left (a b c : Byte) (n : Nat) :
    partialProduct (a ^^^ b) c n = partialProduct a c n ^^^ partialProduct b c n := by
  induction n with
  | zero => simp [partialProduct]
  | succ n ih =>
    simp only [partialProduct, ih, iterate_xtime_xor]
    split_ifs
    · ac_rfl
    · simp

theorem gmul_xor_left (a b c : Byte) : gmul (a ^^^ b) c = gmul a c ^^^ gmul b c := by
  simp only [gmul_eq_partialProduct, partialProduct_xor_left]

theorem fieldLinear_gmul_right (c : Byte) : FieldLinear (gmul · c) :=
  ⟨fun a b => gmul_xor_left a b c, fun a => (fieldLinear_xtime.map_gmul a c).symm⟩

@[simp] theorem gmul_one (a : Byte) : gmul a 0x01 = a := by
  simp [gmul_eq_partialProduct, partialProduct]

/-- The bits of a byte are its coefficients. -/
@[simp] theorem one_gmul : ∀ a : Byte, gmul 0x01 a = a := by decide

theorem gmul_comm (a b : Byte) : gmul a b = gmul b a :=
  calc gmul a b = gmul (gmul 0x01 a) b := by rw [one_gmul]
    _ = gmul (gmul 0x01 b) a := (fieldLinear_gmul_right b).map_gmul 0x01 a
    _ = gmul b a := by rw [one_gmul]

theorem gmul_xor_right (a b c : Byte) : gmul a (b ^^^ c) = gmul a b ^^^ gmul a c := by
  rw [gmul_comm a, gmul_xor_left, gmul_comm b, gmul_comm c]

@[simp] theorem gmul_zero (a : Byte) : gmul a 0x00 = 0x00 := by
  simpa using gmul_xor_right a 0x00 0x00

theorem gmul_assoc (a b c : Byte) : gmul (gmul a b) c = gmul a (gmul b c) :=
  calc gmul (gmul a b) c = gmul (gmul b a) c := by rw [gmul_comm a b]
    _ = gmul (gmul b c) a := ((fieldLinear_gmul_right a).map_gmul b c).symm
    _ = gmul a (gmul b c) := gmul_comm _ _

theorem gmul_self_xor (a b : Byte) : gmul (a ^^^ b) (a ^^^ b) = gmul a a ^^^ gmul b b := by
  have hcross : gmul a b ^^^ (gmul a b ^^^ gmul b b) = gmul b b := by rw [← BitVec.xor_assoc]; simp
  rw [gmul_xor_left, gmul_xor_right, gmul_xor_right, gmul_comm b a, BitVec.xor_assoc, hcross]

/-! ### Powers and inverses (41_sbox.md R114, R115) -/

/-- `a^n`, as the statements write it. -/
def gpow (a : Byte) (n : Nat) : Byte := (List.replicate n a).foldl gmul 0x01

theorem gpow_succ (a : Byte) (n : Nat) : gpow a (n + 1) = gmul (gpow a n) a := by
  simp [gpow, List.replicate_succ']

theorem gmul_gpow (a : Byte) (m n : Nat) : gmul (gpow a m) (gpow a n) = gpow a (m + n) := by
  induction n with
  | zero => exact gmul_one _
  | succ n ih => rw [gpow_succ, ← gmul_assoc, ih, ← Nat.add_assoc, gpow_succ]

/-- A power is a run of multiplications from 1. -/
theorem gpow_eq_iterate (a : Byte) (n : Nat) : gpow a n = (gmul a)^[n] 0x01 := by
  induction n with
  | zero => rfl
  | succ n ih => rw [gpow_succ, gmul_comm, Function.iterate_succ_apply', ih]

/-- The chain of 41_sbox.md R115 ends at the exponent 254. -/
theorem ginv_eq_gpow (a : Byte) : ginv a = gpow a 254 := by
  have hone : a = gpow a 1 := (one_gmul a).symm
  have hchain : ginv (gpow a 1) = gpow a 254 := by simp only [ginv, gmul_gpow]
  rwa [← hone] at hchain

@[simp] theorem ginv_zero : ginv 0x00 = 0x00 := by decide

/-- One product by an inverse; those of the other bytes follow, since every byte other than 0 is a power of `0x03`. -/
theorem gpow_03_255 : gpow 0x03 255 = 0x01 := by
  rw [gpow_succ, ← ginv_eq_gpow]
  decide

theorem gpow_03_ne_zero {n : Nat} (hn : n < 255) : gpow 0x03 n ≠ 0x00 := by
  intro h
  have hprod := gmul_gpow 0x03 (255 - n) n
  rw [h, gmul_zero, Nat.sub_add_cancel hn.le, gpow_03_255] at hprod
  exact absurd hprod (by decide)

/-- The order of `0x03` divides 255 and none of its greatest proper divisors. -/
theorem minimalPeriod_gmul_03 : Function.minimalPeriod (gmul 0x03) 0x01 = 255 := by
  have hdvd {n : Nat} : Function.minimalPeriod (gmul 0x03) 0x01 ∣ n ↔ gpow 0x03 n = 0x01 := by
    rw [← Function.isPeriodicPt_iff_minimalPeriod_dvd, gpow_eq_iterate]; rfl
  have hdivisor : ∀ p ∈ Nat.divisors 255, p = 255 ∨ p ∣ 85 ∨ p ∣ 51 ∨ p ∣ 15 := by decide
  obtain h | h | h | h := hdivisor _ (Nat.mem_divisors.2 ⟨hdvd.2 gpow_03_255, by decide⟩)
  · exact h
  all_goals exact absurd (hdvd.1 h) (by decide +kernel)

/-- The 255 powers of `0x03` are different, so they are the 255 bytes other than 0. -/
theorem exists_gpow_03 {a : Byte} (ha : a ≠ 0x00) : ∃ n < 255, gpow 0x03 n = a := by
  have hinj : Set.InjOn (gpow 0x03) (Finset.range 255) := by
    intro m hm n hn h
    rw [gpow_eq_iterate, gpow_eq_iterate] at h
    rw [Finset.coe_range, ← minimalPeriod_gmul_03] at hm hn
    exact Function.iterate_injOn_Iio_minimalPeriod hm hn h
  have hcard : (Finset.univ.erase (0x00 : Byte)).card = 255 := by
    rw [Finset.card_erase_of_mem (Finset.mem_univ _), Finset.card_univ, ← FinEnum.card_eq_fintypeCard,
      FinEnum.card_bitVec]
    rfl
  have hsurj := Finset.surjOn_of_injOn_of_card_le (t := Finset.univ.erase (0x00 : Byte)) (gpow 0x03)
    (fun n hn => by simpa using gpow_03_ne_zero (by simpa using hn)) hinj (by rw [hcard, Finset.card_range])
  obtain ⟨n, hn, rfl⟩ := hsurj (by simpa using ha : a ∈ _)
  exact ⟨n, by simpa using hn, rfl⟩

theorem gpow_one_left (n : Nat) : gpow 0x01 n = 0x01 := by
  induction n with
  | zero => rfl
  | succ n ih => rw [gpow_succ, ih, gmul_one]

theorem gpow_mul (a : Byte) (m n : Nat) : gpow a (m * n) = gpow (gpow a m) n := by
  induction n with
  | zero => rfl
  | succ n ih => rw [Nat.mul_succ, ← gmul_gpow, ih, gpow_succ]

theorem gpow_255 {a : Byte} (ha : a ≠ 0x00) : gpow a 255 = 0x01 := by
  obtain ⟨n, _, rfl⟩ := exists_gpow_03 ha
  rw [← gpow_mul, Nat.mul_comm, gpow_mul, gpow_03_255, gpow_one_left]

theorem gmul_ginv {a : Byte} (ha : a ≠ 0x00) : gmul a (ginv a) = 0x01 := by
  rw [gmul_comm, ginv_eq_gpow, ← gpow_succ, gpow_255 ha]

/-- The inverse is the only one (41_sbox.md R115). -/
theorem gmul_eq_one_iff {a : Byte} (ha : a ≠ 0x00) (b : Byte) : gmul a b = 0x01 ↔ b = ginv a := by
  refine ⟨fun h => ?_, fun h => h ▸ gmul_ginv ha⟩
  calc b = gmul (gmul a (ginv a)) b := by rw [gmul_ginv ha, one_gmul]
    _ = gmul (ginv a) (gmul a b) := by rw [gmul_comm a, gmul_assoc]
    _ = ginv a := by rw [h, gmul_one]

theorem gmul_ne_zero {a b : Byte} (ha : a ≠ 0x00) (hb : b ≠ 0x00) : gmul a b ≠ 0x00 := by
  intro h
  have hb' : b = gmul (ginv a) (gmul a b) := by
    rw [← gmul_assoc, gmul_comm (ginv a), gmul_ginv ha, one_gmul]
  exact hb (by rw [hb', h, gmul_zero])

theorem ginv_ginv (a : Byte) : ginv (ginv a) = a := by
  rcases eq_or_ne a 0x00 with rfl | ha
  · rw [ginv_zero, ginv_zero]
  · have hinv : ginv a ≠ 0x00 := fun h => absurd (gmul_ginv ha) (by rw [h, gmul_zero]; decide)
    exact ((gmul_eq_one_iff hinv a).1 (by rw [gmul_comm, gmul_ginv ha])).symm

/-- Settles O41: the ring laws by `FieldLinear`, the group as the powers of its generator `0x03`. -/
theorem fieldLaws : Obligations.FieldLaws :=
  ⟨fun a b c => ⟨gmul_comm a b, gmul_assoc a b c, gmul_xor_right a b c, gmul_one a, gmul_zero a, gmul_self_xor a b⟩,
    fun _ _ => gmul_ne_zero, fun _ => gpow_255, 0x03, fun _ => exists_gpow_03⟩

/-- Settles O42: cancellation by the inverse, and the exponents along the chain. -/
theorem fieldInverse : Obligations.FieldInverse :=
  ⟨ginv_zero, fun _ => gmul_eq_one_iff, ginv_eq_gpow⟩

/-! ### The tables (41_sbox.md R118, R121, R122) -/

theorem invAff_aff : ∀ v : Byte, invAff (aff v) = v := by decide +kernel

theorem aff_invAff : ∀ y : Byte, aff (invAff y) = y :=
  Function.LeftInverse.rightInverse_of_card_le invAff_aff le_rfl

/-- The entries of the table of 41_sbox.md R118, one product each. -/
theorem gmul_invAff_sbox : ∀ x : Byte, x ≠ 0x00 → gmul x (invAff (sbox x)) = 0x01 := by decide +kernel

/-- The entries of the table of 41_sbox.md R121, looked up in the other table. -/
theorem sbox_invSbox : ∀ y : Byte, sbox (invSbox y) = y := by decide

theorem sbox_eq_aff_ginv (x : Byte) : sbox x = aff (ginv x) := by
  rcases eq_or_ne x 0x00 with rfl | hx
  · decide
  · rw [← (gmul_eq_one_iff hx _).1 (gmul_invAff_sbox x hx), aff_invAff]

theorem invSbox_eq_ginv_invAff (y : Byte) : invSbox y = ginv (invAff y) :=
  calc invSbox y = ginv (invAff (aff (ginv (invSbox y)))) := by rw [invAff_aff, ginv_ginv]
    _ = ginv (invAff y) := by rw [← sbox_eq_aff_ginv, sbox_invSbox]

theorem invSbox_sbox (x : Byte) : invSbox (sbox x) = x := by
  rw [invSbox_eq_ginv_invAff, sbox_eq_aff_ginv, invAff_aff, ginv_ginv]

theorem sbox_ne_self : ∀ x : Byte, sbox x ≠ x := by decide
theorem sbox_ne_not : ∀ x : Byte, sbox x ≠ ~~~x := by decide

/-- A fixed point of the inverse would be one of the S-box. -/
theorem invSbox_ne_self (y : Byte) : invSbox y ≠ y := fun h =>
  sbox_ne_self y (by rw [← h, sbox_invSbox, h])

/-- An opposite fixed point of the inverse would give one of the S-box. -/
theorem invSbox_ne_not (y : Byte) : invSbox y ≠ ~~~y := fun h =>
  sbox_ne_not (~~~y) (by rw [← h, sbox_invSbox, h, BitVec.not_not])

/-- Settles O43: each entry of the table is checked by one product, and the other table by looking up in this one. -/
theorem tablesFromTheField : Obligations.TablesFromTheField := fun x =>
  ⟨sbox_eq_aff_ginv x, invSbox_eq_ginv_invAff x⟩

/-- Settles O44: the maps that make the tables undo each other; the bytes 1 and 2 show that neither table is affine. -/
theorem tablesAreBijections : Obligations.TablesAreBijections :=
  ⟨fun x => ⟨invSbox_sbox x, sbox_invSbox x, sbox_ne_self x, sbox_ne_not x, invSbox_ne_self x, invSbox_ne_not x⟩,
    ⟨0x01, 0x02, by decide⟩, ⟨0x01, 0x02, by decide⟩⟩

/-! ### The circuits and the ROM (41_sbox.md R124, R128) -/

/-- Settles O45: bit `i` of the byte that the circuit's planes hold at position `q`. -/
theorem circuitsComputeTheTables : Obligations.CircuitsComputeTheTables := fun _ X q _ hq hi =>
  ⟨by rw [← getLsbD_planeByte (sboxCirc X) q hi, planeByte_sboxCirc X hq, planeByte],
    by rw [← getLsbD_planeByte (invSboxCirc X) q hi, planeByte_invSboxCirc X hq, planeByte]⟩

/-- A read of the ROM leaves its own record only, since an accepted command's records begin empty. -/
theorem romStep_eq (inverse : Bool) (value : Byte) (s : State) :
    romStep inverse value s = .next { s.accept with romOut := value, unitOps := [.romReads inverse 1] } := rfl

/-- Settles O35: both reads are `romStep` of a byte that the ROM holds for its address. -/
theorem romReadsGiveTheTables : Obligations.RomReadsGiveTheTables := fun x s =>
  ⟨(congrArg (romStep false · s) (sboxFwd_eq x)).trans (romStep_eq false _ s),
    (congrArg (romStep true · s) (sboxInv_eq x)).trans (romStep_eq true _ s)⟩

end Sys2Proof.Machine

/-! ## The statements of 42_reference_cipher.md -/

namespace Sys2Proof.Machine

/-! ### Bytes and round keys (42_reference_cipher.md R142, R144, R146) -/

@[simp] theorem invSubBytes_subBytes (b : Block) : invSubBytes (subBytes b) = b :=
  block_ext fun p hp => by rw [invSubBytes, subBytes, byteAt_blockOf _ hp, byteAt_blockOf _ hp, invSbox_sbox]

/-- A permutation of bytes is undone by one whose table is a left inverse on the positions of a block. -/
theorem permBytes_permBytes_cancel (b : Block) {table table' : Nat → Nat}
    (h : ∀ p < 16, table' p < 16 ∧ table (table' p) = p) : permBytes (permBytes b table) table' = b :=
  block_ext fun p hp => by
    obtain ⟨hlt, hinv⟩ := h p hp
    rw [permBytes, byteAt_blockOf _ hp, permBytes, byteAt_blockOf _ hlt, hinv]

@[simp] theorem invShiftRows_shiftRows (b : Block) : invShiftRows (shiftRows b) = b :=
  permBytes_permBytes_cancel b (by decide)

@[simp] theorem addRoundKey_addRoundKey (b k : Block) : addRoundKey (addRoundKey b k) k = b :=
  xor_cancel_right b k

/-! ### Columns (42_reference_cipher.md R145, R150, R151)

As a polynomial in the row rotation, whose fourth power is 1, `MixColumns` is `02 + 03y + y^2 + y^3` up to the direction
of `y`. In characteristic 2 its square is the circulant `05 + 04y^2` of R151, and the square of that is 1. So
`InvMixColumns`, which is `MixColumns` after the circulant, is the third power of a map whose fourth is the identity. -/

/-- The rows of a column are counted modulo 4. -/
theorem columnByte_add_four (b : Block) (p r : Nat) : columnByte b p (r + 4) = columnByte b p r := by
  rw [columnByte, Nat.add_mod_right, columnByte]

/-- Byte `p` of `MixColumns` at another row of the same column. -/
theorem columnByte_mixColumns (b : Block) {p : Nat} (hp : p < 16) (r : Nat) :
    columnByte (mixColumns b) p r =
      xtime (columnByte b p r ^^^ columnByte b p (r + 1)) ^^^ columnByte b p (r + 1) ^^^
        columnByte b p (r + 2) ^^^ columnByte b p (r + 3) := by
  have hlt : 4 * (p / 4) + r % 4 < 16 := by omega
  have hdiv : (4 * (p / 4) + r % 4) / 4 = p / 4 := by omega
  have hmod (i : Nat) : ((4 * (p / 4) + r % 4) % 4 + i) % 4 = (r + i) % 4 := by omega
  rw [columnByte, byteAt_mixColumns _ hlt]
  simp only [columnByte, hdiv, hmod]

/-- Two blocks with the same columns are the same. -/
theorem block_ext_columnByte {b c : Block} (h : ∀ p < 16, ∀ r, columnByte b p r = columnByte c p r) : b = c :=
  block_ext fun p hp => by rw [← columnByte_self b, ← columnByte_self c, h p hp]

theorem eq_of_eq_xor_xor {x y : Byte} (e : Byte) (h : x = y ^^^ e ^^^ e) : x = y :=
  h.trans (xor_cancel_right y e)

/-- What `MixColumns` makes of a row and the next, added up: the two rows remain, and the rows two apart times `x`. -/
theorem columnByte_mixColumns_xor_next (b : Block) {p : Nat} (hp : p < 16) (r : Nat) :
    columnByte (mixColumns b) p r ^^^ columnByte (mixColumns b) p (r + 1) =
      xtime (columnByte b p r ^^^ columnByte b p (r + 2)) ^^^ columnByte b p r ^^^ columnByte b p (r + 1) := by
  simp only [columnByte_mixColumns _ hp, Nat.add_assoc, Nat.reduceAdd, columnByte_add_four, xtime_xor]
  generalize columnByte b p r = a0, columnByte b p (r + 1) = a1, columnByte b p (r + 2) = a2,
    columnByte b p (r + 3) = a3
  refine eq_of_eq_xor_xor (xtime a1 ^^^ a2 ^^^ a3) ?_
  ac_rfl

/-- What `MixColumns` makes of the three rows after a row, added up. -/
theorem columnByte_mixColumns_xor_others (b : Block) {p : Nat} (hp : p < 16) (r : Nat) :
    columnByte (mixColumns b) p (r + 1) ^^^ columnByte (mixColumns b) p (r + 2) ^^^
        columnByte (mixColumns b) p (r + 3) =
      xtime (columnByte b p r ^^^ columnByte b p (r + 1)) ^^^ columnByte b p r := by
  simp only [columnByte_mixColumns _ hp, Nat.add_assoc, Nat.reduceAdd, columnByte_add_four, xtime_xor]
  generalize columnByte b p r = a0, columnByte b p (r + 1) = a1, columnByte b p (r + 2) = a2,
    columnByte b p (r + 3) = a3
  refine eq_of_eq_xor_xor (xtime a2 ^^^ xtime a3 ^^^ a0 ^^^ a1 ^^^ a2 ^^^ a3) ?_
  ac_rfl

theorem mixColumns_mixColumns (b : Block) : mixColumns (mixColumns b) = circulant b :=
  block_ext_columnByte fun p hp r => by
    rw [columnByte_circulant _ hp, columnByte_mixColumns _ hp, BitVec.xor_assoc, BitVec.xor_assoc,
      ← BitVec.xor_assoc (columnByte _ p (r + 1)), columnByte_mixColumns_xor_next _ hp,
      columnByte_mixColumns_xor_others _ hp]
    simp only [xtime_xor]
    refine eq_of_eq_xor_xor (xtime (columnByte b p r) ^^^ xtime (columnByte b p (r + 1))) ?_
    ac_rfl

/-- Rows two apart add up to the same in the circulant as in the block, so the multiples by `x^2` cancel. -/
theorem circulant_circulant (b : Block) : circulant (circulant b) = b :=
  block_ext_columnByte fun p hp r => by
    have hpair : columnByte (circulant b) p r ^^^ columnByte (circulant b) p (r + 2) =
        columnByte b p r ^^^ columnByte b p (r + 2) := by
      simp only [columnByte_circulant _ hp, Nat.add_assoc, Nat.reduceAdd, columnByte_add_four, xtime_xor]
      refine eq_of_eq_xor_xor (xtime (xtime (columnByte b p r)) ^^^ xtime (xtime (columnByte b p (r + 2)))) ?_
      ac_rfl
    rw [columnByte_circulant _ hp, hpair, columnByte_circulant _ hp, xor_cancel_right]

@[simp] theorem invMixColumns_mixColumns (b : Block) : invMixColumns (mixColumns b) = b :=
  calc invMixColumns (mixColumns b) = mixColumns (circulant (mixColumns b)) := invMixColumns_eq_mixColumns_circulant _
    _ = circulant (circulant b) := by simp only [← mixColumns_mixColumns]
    _ = b := circulant_circulant b

theorem mixColumns_invMixColumns (b : Block) : mixColumns (invMixColumns b) = b := by
  rw [invMixColumns_eq_mixColumns_circulant, mixColumns_mixColumns, circulant_circulant]

/-- Settles O49: bytes through the tables, positions through the permutations, columns through the fourth power of
`MixColumns`. -/
theorem transformationsInvert : Obligations.TransformationsInvert := fun b k =>
  ⟨invSubBytes_subBytes b, invShiftRows_shiftRows b, invMixColumns_mixColumns b, mixColumns_invMixColumns b,
    addRoundKey_addRoundKey b k⟩

/-- Settles O50: the equality that the Portable engine's `InvMixColumns` rests on. -/
theorem invMixColumnsDecomposition : Obligations.InvMixColumnsDecomposition :=
  invMixColumns_eq_mixColumns_circulant

/-! ### The rounds (42_reference_cipher.md R152 to R154) -/

/-- The full rounds `1` to `n` of `Cipher`. -/
def encRounds (rk : RoundKeys) (n : Nat) (s : Block) : Block :=
  (List.range n).foldl (fun s i => encRound rk s (i + 1)) s

/-- The full rounds `n` down to `1` of `InvCipher`. -/
def decRounds (rk : RoundKeys) (n : Nat) (s : Block) : Block :=
  (List.range n).foldl (fun s i => decRound rk s (n - i)) s

theorem cipher_eq_encRounds (rk : RoundKeys) (nr : Nat) (b : Block) :
    cipher rk nr b =
      addRoundKey (shiftRows (subBytes (encRounds rk (nr - 1) (addRoundKey b (roundKey rk 0))))) (roundKey rk nr) := rfl

theorem invCipher_eq_decRounds (rk : RoundKeys) (nr : Nat) (b : Block) :
    invCipher rk nr b =
      addRoundKey (invSubBytes (invShiftRows (decRounds rk (nr - 1) (addRoundKey b (roundKey rk nr)))))
        (roundKey rk 0) := rfl

theorem encRounds_succ (rk : RoundKeys) (n : Nat) (s : Block) :
    encRounds rk (n + 1) s = encRound rk (encRounds rk n s) (n + 1) := by
  simp [encRounds, List.range_succ]

theorem decRounds_succ (rk : RoundKeys) (n : Nat) (s : Block) :
    decRounds rk (n + 1) s = decRounds rk n (decRound rk s (n + 1)) := by
  simp [decRounds, List.range_succ_eq_map, List.foldl_map]

/-- A round of `InvCipher`, begun inside the next round of `Cipher`, undoes one and ends inside it. -/
theorem decRound_encRound (rk : RoundKeys) (s : Block) (r : Nat) :
    decRound rk (shiftRows (subBytes (encRound rk s r))) r = shiftRows (subBytes s) := by
  simp [decRound, encRound]

theorem decRounds_encRounds (rk : RoundKeys) (n : Nat) (s : Block) :
    decRounds rk n (shiftRows (subBytes (encRounds rk n s))) = shiftRows (subBytes s) := by
  induction n with
  | zero => rfl
  | succ n ih => rw [encRounds_succ, decRounds_succ, decRound_encRound, ih]

theorem invCipher_cipher (rk : RoundKeys) (nr : Nat) (b : Block) : invCipher rk nr (cipher rk nr b) = b := by
  simp [cipher_eq_encRounds, invCipher_eq_decRounds, decRounds_encRounds]

/-- A one-sided inverse of a map from the finitely many blocks to themselves is two-sided. -/
theorem cipher_invCipher (rk : RoundKeys) (nr : Nat) (b : Block) : cipher rk nr (invCipher rk nr b) = b :=
  Function.LeftInverse.rightInverse_of_card_le (invCipher_cipher rk nr) le_rfl b

/-- Settles O51: round by round from the inside out, for every number of rounds. -/
theorem cipherIsABijection : Obligations.CipherIsABijection := fun rk v b =>
  ⟨invCipher_cipher rk v.rounds b, cipher_invCipher rk v.rounds b⟩

end Sys2Proof.Machine

/-! ## The statements of 43_portable_engine.md -/

namespace Sys2Proof.Machine

/-! ### Packing and unpacking (43_portable_engine.md R171, R173) -/

theorem getLsbD_bsPack (X : Oct Block) {k p j : Nat} (hk : k < 8) (hp : p < 16) (hj : j < 8) :
    ((bsPack X).get j).getLsbD (8 * p + k) = (byteAt (X.get k) p).getLsbD j := by
  rw [← getLsbD_planeByte _ _ hj, planeByte_bsPack _ hp hk]

theorem getLsbD_byteAt_bsUnpack (Q : Oct Block) {k p j : Nat} (hk : k < 8) (hp : p < 16) (hj : j < 8) :
    (byteAt ((bsUnpack Q).get k) p).getLsbD j = (Q.get j).getLsbD (8 * p + k) := by
  rw [byteAt_bsUnpack _ hp hk, getLsbD_planeByte _ _ hj]

/-- Packing undoes unpacking (43_portable_engine.md R173). -/
theorem bsPack_bsUnpack (Q : Oct Block) : bsPack (bsUnpack Q) = Q :=
  Oct.ext_get fun j hj => block_ext fun p hp => byte_ext fun k hk => by
    rw [← getLsbD_eq_byteAt _ p hk, ← getLsbD_eq_byteAt _ p hk, getLsbD_bsPack _ hk hp hj,
      getLsbD_byteAt_bsUnpack _ hk hp hj]

/-- Settles O47: both maps say where a bit comes from, and the two places are each other's. -/
theorem packAndUnpackInverse : Obligations.PackAndUnpackInverse := fun X =>
  ⟨fun _ hk _ hp _ hj => ⟨getLsbD_bsPack X hk hp hj, getLsbD_byteAt_bsUnpack X hk hp hj⟩,
    bsUnpack_bsPack X, bsPack_bsUnpack X⟩

/-! ### The operations on planes (43_portable_engine.md R174, R188) -/

/-- An operation that acts as `f` in every lane lifts `f` (43_portable_engine.md R174). -/
theorem bsUnpack_lift {op : Oct Block → Oct Block} {f : Block → Block}
    (h : ∀ (Q : Oct Block) {k : Nat}, k < 8 → (bsUnpack (op Q)).get k = f ((bsUnpack Q).get k)) (X : Oct Block) :
    bsUnpack (op (bsPack X)) = X.map f :=
  Oct.ext_get fun k hk => by rw [h _ hk, bsUnpack_bsPack, Oct.get_map _ _ hk]

/-- Settles O46: each of the seven operations acts as its reference operation in every lane. -/
theorem planeOperationsLift : Obligations.PlaneOperationsLift := fun X key =>
  ⟨bsUnpack_lift lane_bsSubBytes X, bsUnpack_lift lane_bsInvSubBytes X, bsUnpack_lift lane_bsShiftRows X,
    bsUnpack_lift lane_bsInvShiftRows X, bsUnpack_lift lane_bsMixColumns X, bsUnpack_lift lane_bsInvMixColumns X,
    bsUnpack_lift (op := (bsAddRoundKey · (bsKey key))) (fun Q _ hk => lane_bsAddRoundKey Q hk key) X⟩

/-! ### The engine's operations (43_portable_engine.md R190, R198) -/

/-- Settles O36: a lane of eight is the block function of its block, and a single block is lane 0 of eight. -/
theorem portableEngineComputesCipher : Obligations.PortableEngineComputesCipher := fun rk v =>
  ⟨fun X _ hk => ⟨get_pEnc8 rk v.rounds X hk, get_pDec8 rk v.rounds X hk⟩,
    fun filler b => ⟨portableOne_val .enc rk v.rounds filler b, portableOne_val .dec rk v.rounds filler b⟩⟩

/-- Settles O48: a lane of the result is a function of that lane, the reference cipher. -/
theorem lanesAreIndependent : Obligations.LanesAreIndependent := fun rk v X Y k hk hXY => by
  rw [get_pEnc8 _ _ X hk, get_pEnc8 _ _ Y hk, get_pDec8 _ _ X hk, get_pDec8 _ _ Y hk, hXY]
  exact ⟨rfl, rfl⟩

theorem portableBatch_val (dir : Direction) (rk : RoundKeys) (nr : Nat) (X : Oct Block) :
    (portableBatch dir rk nr X).val = X.map (blockFunction dir rk nr) :=
  Oct.ext_get fun _ hk => by rw [get_portableBatch _ _ _ _ hk, Oct.get_map _ _ hk]

/-! ### The engine's steps: one evaluation of the circuit a round (43_portable_engine.md R194, R195) -/

/-- A loop whose body records one step records as many as it has turns. -/
theorem foldl_ops {α : Type} {g : Traced α → Nat → Traced α} {op : UnitOp}
    (h : ∀ t i, (g t i).ops = t.ops ++ [op]) (is : List Nat) (t : Traced α) :
    (is.foldl g t).ops = t.ops ++ List.replicate is.length op := by
  induction is generalizing t with
  | nil => simp
  | cons i is ih => simp [ih, h, List.replicate_succ]

/-- `nr - 1` full rounds and a last one, one step each. -/
theorem rounds_ops {α : Type} {g : Traced α → Nat → Traced α} {op : UnitOp}
    (h : ∀ t i, (g t i).ops = t.ops ++ [op]) {nr : Nat} (hnr : 0 < nr) {t : Traced α} (ht : t.ops = []) :
    ((List.range (nr - 1)).foldl g t).ops ++ [op] = List.replicate nr op := by
  rw [foldl_ops h, ht, List.nil_append, List.length_range, ← List.replicate_succ', Nat.sub_add_cancel hnr]

theorem portableBatch_ops (dir : Direction) (rk : RoundKeys) {nr : Nat} (hnr : 0 < nr) (X : Oct Block) :
    (portableBatch dir rk nr X).ops = List.replicate nr (.circuit (dir = .dec)) := by
  cases dir with
  | enc => exact rounds_ops (fun _ _ => rfl) hnr rfl
  | dec => exact rounds_ops (fun _ _ => rfl) hnr rfl

/-! ### The requests (43_portable_engine.md R194 to R197) -/

theorem rounds_pos (v : Variant) : 0 < v.rounds := by cases v <;> decide

/-- An eight-block request to the selected Portable engine. -/
theorem portableBatchStep_selected (dir : Direction) {s : State} (h : s.cfg.engine = .portable) :
    portableBatchStep dir s = .next { s.accept with
      reqBatch := s.reqBatch.map (blockFunction dir s.rk s.variant.rounds)
      unitOps := List.replicate s.variant.rounds (.circuit (dir = .dec)) } := by
  simp only [portableBatchStep, h, portableBatch_val, portableBatch_ops _ _ (rounds_pos _), State.recordOps,
    State.accept_unitOps, List.nil_append]

/-- A one-block request to the selected Portable engine; it takes the steps of the eight-block one. -/
theorem portableOneStep_selected (dir : Direction) {s : State} (h : s.cfg.engine = .portable) :
    portableOneStep dir s = .next { s.accept with
      reqBlock := blockFunction dir s.rk s.variant.rounds s.reqBlock
      unitOps := List.replicate s.variant.rounds (.circuit (dir = .dec)) } := by
  have hops (filler b : Block) : (portableOne dir s.rk s.variant.rounds filler b).ops =
      List.replicate s.variant.rounds (.circuit (dir = .dec)) := portableBatch_ops dir s.rk (rounds_pos _) _
  simp only [portableOneStep, h, portableOne_val, hops, State.recordOps, State.accept_unitOps, List.nil_append]

/-- Settles O38: each request is its direction of one of the two shared operations. -/
theorem portableRequests : Obligations.PortableRequests := fun _ h =>
  ⟨portableBatchStep_selected .enc h, portableBatchStep_selected .dec h, portableOneStep_selected .enc h,
    portableOneStep_selected .dec h⟩

end Sys2Proof.Machine

/-! ## The statements of 44_accelerated_engine.md -/

namespace Sys2Proof.Machine

/-! ### The round unit: the reads of the ROM are the reference substitutions (44_accelerated_engine.md R212 to R216) -/

theorem roundUnit_enc (S K : Block) : roundUnit .enc S K = addRoundKey (mixColumns (shiftRows (subBytes S))) K := by
  rw [roundUnit, romSubBytes_eq]

theorem roundUnit_encLast (S K : Block) : roundUnit .encLast S K = addRoundKey (shiftRows (subBytes S)) K := by
  rw [roundUnit, romSubBytes_eq]

theorem roundUnit_dec (S K : Block) :
    roundUnit .dec S K = invMixColumns (addRoundKey (invSubBytes (invShiftRows S)) K) := by
  rw [roundUnit, romInvSubBytes_eq]

theorem roundUnit_decLast (S K : Block) :
    roundUnit .decLast S K = addRoundKey (invSubBytes (invShiftRows S)) K := by
  rw [roundUnit, romInvSubBytes_eq]

/-- An operation of a present unit, given the new value of `S`; the record of `accept` is empty. -/
theorem roundUnitStep_of_roundUnit {sel : RndSel} {s : State} {S : Block} (h : s.cfg.targetHasRoundUnit = true)
    (hS : roundUnit sel s.unitS s.unitK = S) :
    roundUnitStep sel s = .next { s.accept with unitS := S, unitOps := roundUnitOps sel } := by
  rw [roundUnitStep_present h, hS, State.recordOps, State.accept_unitOps, List.nil_append]

/-- Settles O33: each operation is the shared one at its selector. -/
theorem roundUnitOperations : Obligations.RoundUnitOperations := fun s h =>
  ⟨roundUnitStep_of_roundUnit h rfl, roundUnitStep_of_roundUnit h (roundUnit_enc s.unitS s.unitK),
    roundUnitStep_of_roundUnit h (roundUnit_encLast s.unitS s.unitK),
    roundUnitStep_of_roundUnit h (roundUnit_dec s.unitS s.unitK),
    roundUnitStep_of_roundUnit h (roundUnit_decLast s.unitS s.unitK)⟩

/-! ### The engine's operations (44_accelerated_engine.md R218, R219, R223) -/

/-- Settles O37: the round-unit program of a direction is its block function. -/
theorem acceleratedEngineComputesCipher : Obligations.AcceleratedEngineComputesCipher := fun rk v b =>
  ⟨accelOne_val .enc rk v.rounds b, accelOne_val .dec rk v.rounds b⟩

theorem flatMap_range_const {α : Type} (n : Nat) (l : List α) :
    (List.range n).flatMap (fun _ => l) = (List.replicate n l).flatten := by
  rw [List.flatMap_def, List.map_const', List.length_range]

/-- The steps of a direction's program: an `RND.ARK`, `nr - 1` full rounds and a last one. -/
theorem flatMap_unitProgram_ops (dir : Direction) (nr : Nat) :
    (unitProgram dir nr).flatMap (fun op => roundUnitOps op.1) = oneBlockOps dir nr := by
  cases dir with
  | enc => simp [unitProgram, encProgram, oneBlockOps, List.flatMap_map, flatMap_range_const]
  | dec => simp [unitProgram, decProgram, oneBlockOps, List.flatMap_map, flatMap_range_const]

theorem accelOne_ops (dir : Direction) (rk : RoundKeys) (nr : Nat) (b : Block) :
    (accelOne dir rk nr b).ops = oneBlockOps dir nr := by
  rw [← flatMap_unitProgram_ops, List.flatMap_eq_foldl]
  exact (List.foldl_hom Traced.ops fun _ _ => rfl).symm

theorem groups_zero {size : Nat} (h : 0 < size) : groups size 0 = [] := by
  rw [groups, Nat.div_eq_of_lt (by omega), List.range_zero, List.map_nil]

/-- With no block there is no group, and so no step (44_accelerated_engine.md R220). -/
theorem accelMany_nil_ops (dir : Direction) (rk : RoundKeys) (nr : Nat) {pipe : Nat} (h : 0 < pipe) :
    (accelMany dir rk nr pipe []).ops = [] := by
  rw [accelMany, List.length_nil, groups_zero h, List.foldl_nil]

/-! ### The requests (44_accelerated_engine.md R218 to R222) -/

/-- A one-block request to the selected Accelerated engine. -/
theorem accelOneStep_selected (dir : Direction) {s : State} (h : s.cfg.engine = .accel) :
    ∃ k n, accelOneStep dir s = .next { s.accept with
      reqBlock := blockFunction dir s.rk s.variant.rounds s.reqBlock
      unitS := blockFunction dir s.rk s.variant.rounds s.reqBlock
      unitK := k
      unitOps := oneBlockOps dir s.variant.rounds
      freeCount := n } := by
  refine ⟨Config.freeBlock s.freeCount 1, s.freeCount + 1, ?_⟩
  simp only [accelOneStep, h, accelOne_val, accelOne_ops, State.recordOps, State.accept_unitOps, List.nil_append]

/-- An n-block request to the selected Accelerated engine. -/
theorem accelManyStep_selected (dir : Direction) {s : State} (h : s.cfg.engine = .accel) :
    ∃ S k n ops, accelManyStep dir s = .next { s.accept with
      reqBlocks := s.reqBlocks.map (blockFunction dir s.rk s.variant.rounds)
      unitS := S
      unitK := k
      unitOps := ops
      freeCount := n } ∧ (s.reqBlocks = [] → ops = []) := by
  have hpipe : 0 < s.cfg.pipe := Nat.succ_pos s.cfg.pipeExtra
  refine ⟨Config.freeBlock s.freeCount 0, Config.freeBlock s.freeCount 1, s.freeCount + 1,
    (accelMany dir s.rk s.variant.rounds s.cfg.pipe s.reqBlocks).ops, ?_, fun hnil => ?_⟩
  · simp only [accelManyStep, h, accelMany_val _ _ _ hpipe, State.recordOps, State.accept_unitOps, List.nil_append]
  · rw [hnil, accelMany_nil_ops _ _ _ hpipe]

/-- Settles O39: each request is its direction of the shared operation. -/
theorem acceleratedOneBlockRequests : Obligations.AcceleratedOneBlockRequests := fun _ h =>
  ⟨accelOneStep_selected .enc h, accelOneStep_selected .dec h⟩

/-- Settles O40: each request is its direction of the shared operation. -/
theorem acceleratedManyBlockRequests : Obligations.AcceleratedManyBlockRequests := fun _ h =>
  ⟨accelManyStep_selected .enc h, accelManyStep_selected .dec h⟩

end Sys2Proof.Machine

/-! ## The statements of 45_facade.md -/

namespace Sys2Proof.Machine

/-! ### The blocks of a buffer replaced, byte by byte -/

/-- Different blocks of a buffer do not overlap (20_memory.md R59). -/
theorem blockAddr_apart (addr : Nat) {j k : Nat} (h : j ≠ k) :
    blockAddr addr j + Config.blockBytes ≤ blockAddr addr k ∨
      blockAddr addr k + Config.blockBytes ≤ blockAddr addr j := by
  simp only [blockAddr, Config.blockBytes]
  omega

/-- A byte lies in block `k` of a buffer exactly when its offset divided by 16 is `k`. -/
theorem mem_block_iff (addr k x : Nat) :
    blockAddr addr k ≤ x ∧ x < blockAddr addr k + Config.blockBytes ↔ addr ≤ x ∧ (x - addr) / 16 = k := by
  simp only [blockAddr, Config.blockBytes]
  omega

/-- A byte of a block is the byte of memory at its offset in the buffer. -/
theorem Memory.byteAt_readBlock_offset (m : Memory) {addr x : Nat} (hx : addr ≤ x) :
    byteAt (m.readBlock (blockAddr addr ((x - addr) / 16))) ((x - addr) % 16) = m.read x := by
  rw [Memory.byteAt_readBlock _ _ (Nat.mod_lt _ (by decide))]
  congr 1
  simp only [blockAddr, Config.blockBytes]
  omega

section MapBlocks

variable {f : Block → Block} {addr : Nat} {m : Memory} {ms : List Nat}

/-- What every address reads as after the listed blocks are replaced, each once: a byte of a listed block is the byte
of the image of that block, and no other byte changes (45_facade.md R252). -/
theorem Memory.read_mapBlocks (hw : m.wf = true) (hfit : ∀ k ∈ ms, BlockFits addr k) (hms : ms.Nodup) (x : Nat) :
    (m.mapBlocks f addr ms).read x =
      if addr ≤ x ∧ (x - addr) / 16 ∈ ms then
        byteAt (f (m.readBlock (blockAddr addr ((x - addr) / 16)))) ((x - addr) % 16)
      else m.read x := by
  induction ms generalizing m with
  | nil => rw [if_neg (by simp)]; rfl
  | cons k ms ih =>
    rw [List.forall_mem_cons] at hfit
    obtain ⟨hk, hrest⟩ := hfit
    obtain ⟨hkms, hnodup⟩ := List.nodup_cons.1 hms
    rw [Memory.mapBlocks_cons, ih (Memory.wf_writeBlock hk hw) hrest hnodup, Memory.read_writeBlock hw hk]
    by_cases hlater : addr ≤ x ∧ (x - addr) / 16 ∈ ms
    · have hne : (x - addr) / 16 ≠ k := fun h => hkms (h ▸ hlater.2)
      rw [if_pos hlater, if_pos ⟨hlater.1, List.mem_cons_of_mem _ hlater.2⟩,
        Memory.readBlock_writeBlock_other hw hk (blockAddr_apart addr hne)]
    · rw [if_neg hlater]
      by_cases hnow : addr ≤ x ∧ (x - addr) / 16 = k
      · obtain ⟨hx, rfl⟩ := hnow
        have hoffset : x - blockAddr addr ((x - addr) / 16) = (x - addr) % 16 := by
          simp only [blockAddr, Config.blockBytes]
          omega
        rw [if_pos ((mem_block_iff ..).2 ⟨hx, rfl⟩), if_pos ⟨hx, List.mem_cons_self⟩, hoffset]
      · rw [if_neg (mt (mem_block_iff ..).1 hnow), if_neg]
        rintro ⟨hx, hmem⟩
        rcases List.mem_cons.1 hmem with h | h
        · exact hnow ⟨hx, h⟩
        · exact hlater ⟨hx, h⟩

/-- A listed block reads as its image. -/
theorem Memory.readBlock_mapBlocks (hw : m.wf = true) (hfit : ∀ k ∈ ms, BlockFits addr k) (hms : ms.Nodup) {k : Nat}
    (hk : k ∈ ms) : (m.mapBlocks f addr ms).readBlock (blockAddr addr k) = f (m.readBlock (blockAddr addr k)) :=
  block_ext fun p hp => by
    have hoffset : blockAddr addr k + p - addr = 16 * k + p := by
      simp only [blockAddr, Config.blockBytes]
      omega
    have hdiv : (16 * k + p) / 16 = k := by omega
    have hmod : (16 * k + p) % 16 = p := by omega
    rw [Memory.byteAt_readBlock _ _ hp, Memory.read_mapBlocks hw hfit hms, hoffset, hdiv, hmod,
      if_pos ⟨by simp only [blockAddr]; omega, hk⟩]

/-- A byte outside the first `n` blocks of a buffer reads as before they were replaced. -/
theorem Memory.read_mapBlocks_outside {n x : Nat} (hw : m.wf = true) (hfit : ∀ k < n, BlockFits addr k)
    (hx : x < addr ∨ blockAddr addr n ≤ x) : (m.mapBlocks f addr (List.range n)).read x = m.read x := by
  rw [Memory.read_mapBlocks hw (fun k hk => hfit k (List.mem_range.1 hk)) List.nodup_range, if_neg]
  simp only [blockAddr, Config.blockBytes, List.mem_range] at hx ⊢
  omega

/-- The order in which blocks are replaced does not matter (45_facade.md R255). -/
theorem Memory.mapBlocks_perm {ms' : List Nat} (hw : m.wf = true) (hfit : ∀ k ∈ ms, BlockFits addr k)
    (hms : ms.Nodup) (h : ms'.Perm ms) : m.mapBlocks f addr ms' = m.mapBlocks f addr ms := by
  have hfit' : ∀ k ∈ ms', BlockFits addr k := fun k hk => hfit k (h.mem_iff.1 hk)
  refine Memory.eq_of_read (Memory.wf_mapBlocks hw hfit') (Memory.wf_mapBlocks hw hfit) fun x => ?_
  rw [Memory.read_mapBlocks hw hfit' (h.nodup_iff.2 hms), Memory.read_mapBlocks hw hfit hms]
  simp only [h.mem_iff]

/-- The first `n1` blocks and then the next `n2`, as a buffer of their own, are the first `n1 + n2`
(45_facade.md R256). -/
theorem Memory.mapBlocks_range_add (f : Block → Block) (addr : Nat) (m : Memory) (n1 n2 : Nat) :
    m.mapBlocks f addr (List.range (n1 + n2)) =
      (m.mapBlocks f addr (List.range n1)).mapBlocks f (blockAddr addr n1) (List.range n2) := by
  have hshift (k : Nat) : blockAddr addr (n1 + k) = blockAddr (blockAddr addr n1) k := by
    simp only [blockAddr, Nat.mul_add, Nat.add_assoc]
  simp only [Memory.mapBlocks, List.range_add, List.foldl_append, List.foldl_map, hshift]

/-- Replacing blocks by images and these by their originals restores memory (45_facade.md R257). -/
theorem Memory.mapBlocks_mapBlocks_cancel {g : Block → Block} (hgf : ∀ b, g (f b) = b) (hw : m.wf = true)
    (hfit : ∀ k ∈ ms, BlockFits addr k) (hms : ms.Nodup) : (m.mapBlocks f addr ms).mapBlocks g addr ms = m := by
  have hw' : (m.mapBlocks f addr ms).wf = true := Memory.wf_mapBlocks hw hfit
  refine Memory.eq_of_read (Memory.wf_mapBlocks hw' hfit) hw fun x => ?_
  rw [Memory.read_mapBlocks hw' hfit hms]
  split
  · next hx => rw [Memory.readBlock_mapBlocks hw hfit hms hx.2, hgf, Memory.byteAt_readBlock_offset m hx.1]
  · next hx => rw [Memory.read_mapBlocks hw hfit hms, if_neg hx]

end MapBlocks

/-! ### A KEYSETUP that responds `OK` (45_facade.md R244 to R246) -/

/-- The registers above `Nr` are zero, those that the file does not have included (40_key_schedule.md R97). -/
theorem roundKey_keySchedule_above {v : Variant} (key : List Byte) {j : Nat} (h : v.rounds < j) :
    roundKey (keySchedule v key) j = 0 := by
  by_cases hj : j < 15
  · exact (roundKeysFromWords v key j hj).2 h
  · rw [roundKey, dif_neg hj]

theorem keyedState_port (v : Variant) (addr : Nat) (s : State) : (keyedState v addr s).port = none := by
  simp only [keyedState, State.respond_port, State.recordOps_port, State.recordRead_port, State.accept_port]

theorem keyedState_bus (v : Variant) (addr : Nat) (s : State) :
    (keyedState v addr s).bus = [⟨.read, addr, v.keyBytes⟩] := by
  simp only [keyedState, State.respond_bus, State.recordOps_bus, State.recordRead_bus, State.accept_bus,
    List.nil_append]

theorem keyedBy_keyedState (v : Variant) (addr : Nat) (s : State) : KeyedBy v addr s (keyedState v addr s) := by
  have hrk := keyedState_rk v addr s
  exact ⟨hrk, fun j hj => by rw [hrk, roundKey_keySchedule_above _ hj], keyedState_variant .., keyedState_keyValid ..,
    keyedState_mem .., keyedState_cfg .., keyedState_port .., keyedState_response .., keyedState_bus ..⟩

theorem keySetup_keyedBy {v : Variant} {addr : Nat} {s : State} (h : s.cfg.admitsKey addr v.keyBytes = true) :
    ∃ t, keySetup v addr v.keyBytes s = .next t ∧ KeyedBy v addr s t :=
  ⟨_, keySetup_ok h, keyedBy_keyedState v addr s⟩

/-- Settles O8: the three commands are one procedure, at their variants. -/
theorem keysetupKeysTheContext : Obligations.KeysetupKeysTheContext := fun _ _ =>
  ⟨keySetup_keyedBy (v := .aes128), keySetup_keyedBy (v := .aes192), keySetup_keyedBy (v := .aes256)⟩

/-! ### The block commands by direction -/

/-- ENCB or DECB. -/
def Direction.oneBlock : Direction → Nat → Instr
  | .enc, addr => .encb addr
  | .dec, addr => .decb addr

/-- ENCBS or DECBS. -/
def Direction.manyBlocks : Direction → Nat → Nat → Instr
  | .enc, addr, n => .encbs addr n
  | .dec, addr, n => .decbs addr n

/-- The other direction. -/
def Direction.opposite : Direction → Direction
  | .enc => .dec
  | .dec => .enc

theorem exec_oneBlock (dir : Direction) (addr : Nat) (s : State) :
    exec (dir.oneBlock addr) s = blockCommand addr 1 (runOneBlock dir addr) s := by cases dir <;> rfl

theorem exec_manyBlocks (dir : Direction) (addr n : Nat) (s : State) :
    exec (dir.manyBlocks addr n) s = blockCommand addr n (runBlocks dir addr n) s := by cases dir <;> rfl

theorem blockFunction_opposite (dir : Direction) (rk : RoundKeys) (nr : Nat) (b : Block) :
    blockFunction dir.opposite rk nr (blockFunction dir rk nr b) = b := by
  cases dir with
  | enc => exact invCipher_cipher rk nr b
  | dec => exact cipher_invCipher rk nr b

/-! ### What block commands that respond `OK` do, one or several (45_facade.md R252) -/

section

variable {s t u : State}

theorem SameContext.trans (h : SameContext s t) (h' : SameContext t u) : SameContext s u := by
  obtain ⟨hkey, hvariant, hrk⟩ := h
  obtain ⟨hkey', hvariant', hrk'⟩ := h'
  exact ⟨hkey'.trans hkey, hvariant'.trans hvariant, hrk'.trans hrk⟩

theorem SameContext.symm (h : SameContext s t) : SameContext t s := by
  obtain ⟨hkey, hvariant, hrk⟩ := h
  exact ⟨hkey.symm, hvariant.symm, hrk.symm⟩

end

/-- The blocks of a buffer with these numbers are replaced by their images, in that order; memory is in its canonical
form, the context and the configuration are as before. -/
structure BlocksMapped (dir : Direction) (addr : Nat) (ms : List Nat) (s t : State) : Prop where
  mem : t.mem = s.mem.mapBlocks (blockFunction dir s.rk s.variant.rounds) addr ms
  wf : t.mem.wf = true
  context : SameContext s t
  cfg : t.cfg = s.cfg

/-- A block command on `n` blocks at `addr` passes its checks, and memory is in its canonical form. -/
structure Serves (s : State) (addr n : Nat) : Prop where
  wf : s.mem.wf = true
  keyed : s.keyValid = true
  admits : s.cfg.admitsBlocks addr (blocksBytes n) = true

section BlocksMapped

variable {dir : Direction} {addr n : Nat} {ms ms' : List Nat} {s t u : State}

theorem Serves.fits (h : Serves s addr n) : ∀ k < n, BlockFits addr k := blockFits_of_admitsBlocks h.admits

theorem Serves.fits_range (h : Serves s addr n) : ∀ k ∈ List.range n, BlockFits addr k :=
  fun k hk => h.fits k (List.mem_range.1 hk)

theorem BlocksMapped.nil (hw : s.mem.wf = true) : BlocksMapped dir addr [] s s := ⟨rfl, hw, ⟨rfl, rfl, rfl⟩, rfl⟩

theorem BlocksMapped.keyValid (h : BlocksMapped dir addr ms s t) : t.keyValid = s.keyValid := h.context.1

theorem BlocksMapped.rk (h : BlocksMapped dir addr ms s t) : t.rk = s.rk := h.context.2.2

theorem BlocksMapped.variant (h : BlocksMapped dir addr ms s t) : t.variant = s.variant := h.context.2.1

/-- The context stays keyed and the configuration as it is, so the next command needs its admission only. -/
theorem BlocksMapped.serves {addr' : Nat} (h : BlocksMapped dir addr ms s t) (hkey : s.keyValid = true)
    (hadmits : s.cfg.admitsBlocks addr' (blocksBytes n) = true) : Serves t addr' n :=
  ⟨h.wf, h.keyValid.trans hkey, h.cfg ▸ hadmits⟩

/-- One after the other, both with the block function of the first context. -/
theorem BlocksMapped.append (h : BlocksMapped dir addr ms s t) (h' : BlocksMapped dir addr ms' t u) :
    BlocksMapped dir addr (ms ++ ms') s u where
  mem := by rw [h'.mem, h.mem, h.rk, h.variant, Memory.mapBlocks, Memory.mapBlocks, Memory.mapBlocks, List.foldl_append]
  wf := h'.wf
  context := h.context.trans h'.context
  cfg := h'.cfg.trans h.cfg

/-- A buffer's block `k` as the only block of a buffer of its own. -/
theorem BlocksMapped.single {k : Nat} (h : BlocksMapped dir (blockAddr addr k) (List.range 1) s t) :
    BlocksMapped dir addr [k] s t :=
  { h with mem := by rw [h.mem, Memory.mapBlocks_range_one, Memory.mapBlocks_cons]; rfl }

/-- The path of a block command, with its checks passed. -/
theorem blockCommand_completes {run : State → State} (hrun : MapsBlocks dir addr n run) (h : Serves s addr n) :
    ∃ t, blockCommand addr n run s = .next t ∧ BlocksMapped dir addr (List.range n) s t ∧ t.port = none ∧
      Answers t .ok := by
  obtain ⟨bus, unitOps, hs⟩ := hrun s.accept h.wf h.fits
  refine ⟨_, blockCommand_ok h.keyed h.admits, ?_⟩
  rw [hs]
  exact ⟨⟨rfl, Memory.wf_mapBlocks h.wf h.fits_range, ⟨rfl, rfl, rfl⟩, rfl⟩, rfl, rfl⟩

theorem oneBlock_completes (dir : Direction) (h : Serves s addr 1) :
    ∃ t, exec (dir.oneBlock addr) s = .next t ∧ BlocksMapped dir addr (List.range 1) s t ∧ t.port = none ∧
      Answers t .ok := by
  rw [exec_oneBlock]
  exact blockCommand_completes (runOneBlock_mapsBlocks dir addr) h

theorem manyBlocks_completes (dir : Direction) (h : Serves s addr n) :
    ∃ t, exec (dir.manyBlocks addr n) s = .next t ∧ BlocksMapped dir addr (List.range n) s t ∧ t.port = none ∧
      Answers t .ok := by
  rw [exec_manyBlocks]
  exact blockCommand_completes (runBlocks_mapsBlocks dir addr n) h

/-- The images block by block, and the frame byte by byte (45_facade.md R252). -/
theorem BlocksMapped.blocksDone (h : BlocksMapped dir addr (List.range n) s t) (hs : Serves s addr n)
    (hport : t.port = none) (hok : Answers t .ok) : BlocksDone dir addr n s t := by
  refine ⟨fun m hm => ?_, fun a ha => ?_, h.context, h.cfg, hport, hok⟩
  · rw [h.mem, Memory.readBlock_mapBlocks hs.wf hs.fits_range List.nodup_range (List.mem_range.2 hm)]
  · rw [h.mem, Memory.read_mapBlocks_outside hs.wf hs.fits ha]

theorem oneBlock_blocksDone (dir : Direction) (h : Serves s addr 1) :
    ∃ t, exec (dir.oneBlock addr) s = .next t ∧ BlocksDone dir addr 1 s t := by
  obtain ⟨t, he, hmapped, hport, hok⟩ := oneBlock_completes dir h
  exact ⟨t, he, hmapped.blocksDone h hport hok⟩

theorem manyBlocks_blocksDone (dir : Direction) (h : Serves s addr n) :
    ∃ t, exec (dir.manyBlocks addr n) s = .next t ∧ BlocksDone dir addr n s t := by
  obtain ⟨t, he, hmapped, hport, hok⟩ := manyBlocks_completes dir h
  exact ⟨t, he, hmapped.blocksDone h hport hok⟩

end BlocksMapped

/-- Settles O17: both paths of the facade replace the blocks of the buffer, on either engine. -/
theorem blockCommandsComplete : Obligations.BlockCommandsComplete := fun _ _ hw hk =>
  ⟨fun ha => ⟨oneBlock_blocksDone .enc ⟨hw, hk, ha⟩, oneBlock_blocksDone .dec ⟨hw, hk, ha⟩⟩,
    fun _ ha => ⟨manyBlocks_blocksDone .enc ⟨hw, hk, ha⟩, manyBlocks_blocksDone .dec ⟨hw, hk, ha⟩⟩⟩

/-! ### Runs of several block commands (45_facade.md R255 to R257) -/

theorem runAll_cons {i : Instr} {s t : State} (h : exec i s = .next t) (rest : List Instr) :
    runAll (i :: rest) s = runAll rest t := by
  simp only [runAll, h]

theorem runAll_pair {i j : Instr} {s t u : State} (hi : exec i s = .next t) (hj : exec j t = .next u) :
    runAll [i, j] s = .next u := by
  rw [runAll_cons hi, runAll_cons hj, runAll]

/-- Single-block commands one after the other, each block admitted alone. -/
theorem runAll_oneBlocks (dir : Direction) {addr : Nat} {ms : List Nat} {s : State} (hw : s.mem.wf = true)
    (hk : s.keyValid = true) (ha : ∀ m ∈ ms, s.cfg.admitsBlocks (blockAddr addr m) (blocksBytes 1) = true) :
    ∃ u, runAll (ms.map fun m => dir.oneBlock (blockAddr addr m)) s = .next u ∧ BlocksMapped dir addr ms s u := by
  induction ms generalizing s with
  | nil => exact ⟨s, rfl, .nil hw⟩
  | cons m ms ih =>
    rw [List.forall_mem_cons] at ha
    obtain ⟨t, he, hfirst, -⟩ := oneBlock_completes dir ⟨hw, hk, ha.1⟩
    obtain ⟨u, hu, hrest⟩ := ih hfirst.wf (hfirst.keyValid.trans hk) (by rw [hfirst.cfg]; exact ha.2)
    exact ⟨u, by rw [List.map_cons, runAll_cons he, hu], hfirst.single.append hrest⟩

theorem manyBlocks_eq_oneBlocks (dir : Direction) {s : State} {addr n : Nat} {order : List Nat} (hs : Serves s addr n)
    (ha : ∀ m < n, s.cfg.admitsBlocks (blockAddr addr m) (blocksBytes 1) = true) (horder : order.Perm (List.range n)) :
    ∃ t u, exec (dir.manyBlocks addr n) s = .next t ∧
      runAll (order.map fun m => dir.oneBlock (blockAddr addr m)) s = .next u ∧ t.mem = u.mem ∧ SameContext t u := by
  obtain ⟨t, ht, hmany, -⟩ := manyBlocks_completes dir hs
  obtain ⟨u, hu, hones⟩ := runAll_oneBlocks dir (addr := addr) hs.wf hs.keyed fun m hm =>
    ha m (List.mem_range.1 (horder.mem_iff.1 hm))
  refine ⟨t, u, ht, hu, ?_, hmany.context.symm.trans hones.context⟩
  rw [hmany.mem, hones.mem, Memory.mapBlocks_perm hs.wf hs.fits_range List.nodup_range horder]

/-- Settles O18: blocks do not overlap, so the order in which they are replaced does not matter. -/
theorem batchEqualsSingleCommands : Obligations.BatchEqualsSingleCommands := fun _ _ _ _ hw hk ha hsingle horder =>
  ⟨manyBlocks_eq_oneBlocks .enc ⟨hw, hk, ha⟩ hsingle horder, manyBlocks_eq_oneBlocks .dec ⟨hw, hk, ha⟩ hsingle horder⟩

theorem manyBlocks_split (dir : Direction) {s : State} {addr n1 n2 : Nat} (hs : Serves s addr (n1 + n2))
    (ha1 : s.cfg.admitsBlocks addr (blocksBytes n1) = true)
    (ha2 : s.cfg.admitsBlocks (blockAddr addr n1) (blocksBytes n2) = true) :
    ∃ t u, exec (dir.manyBlocks addr (n1 + n2)) s = .next t ∧
      runAll [dir.manyBlocks addr n1, dir.manyBlocks (blockAddr addr n1) n2] s = .next u ∧
      t.mem = u.mem ∧ SameContext t u := by
  obtain ⟨t, ht, hall, -⟩ := manyBlocks_completes dir hs
  obtain ⟨t1, ht1, hfirst, -⟩ := manyBlocks_completes dir ⟨hs.wf, hs.keyed, ha1⟩
  obtain ⟨u, hu, hsecond, -⟩ := manyBlocks_completes dir (hfirst.serves hs.keyed ha2)
  refine ⟨t, u, ht, runAll_pair ht1 hu, ?_, hall.context.symm.trans (hfirst.context.trans hsecond.context)⟩
  rw [hall.mem, hsecond.mem, hfirst.mem, hfirst.rk, hfirst.variant, Memory.mapBlocks_range_add]

/-- Settles O19: the blocks of the second command come after those of the first in the whole slice. -/
theorem splitSliceGivesSameMemory : Obligations.SplitSliceGivesSameMemory := fun _ _ _ _ hw hk ha ha1 ha2 =>
  ⟨manyBlocks_split .enc ⟨hw, hk, ha⟩ ha1 ha2, manyBlocks_split .dec ⟨hw, hk, ha⟩ ha1 ha2⟩

/-- The same blocks replaced in one direction and then in the other. -/
theorem BlocksMapped.roundTrip {dir : Direction} {addr n : Nat} {s t u : State} (hs : Serves s addr n)
    (h : BlocksMapped dir addr (List.range n) s t) (h' : BlocksMapped dir.opposite addr (List.range n) t u) :
    u.mem = s.mem ∧ SameContext s u := by
  refine ⟨?_, h.context.trans h'.context⟩
  rw [h'.mem, h.mem, h.rk, h.variant]
  exact Memory.mapBlocks_mapBlocks_cancel (blockFunction_opposite dir _ _) hs.wf hs.fits_range List.nodup_range

theorem oneBlock_roundTrip (dir : Direction) {s : State} {addr : Nat} (hs : Serves s addr 1) :
    ∃ u, runAll [dir.oneBlock addr, dir.opposite.oneBlock addr] s = .next u ∧ u.mem = s.mem ∧ SameContext s u := by
  obtain ⟨t, ht, hthere, -⟩ := oneBlock_completes dir hs
  obtain ⟨u, hu, hback, -⟩ := oneBlock_completes dir.opposite (hthere.serves hs.keyed hs.admits)
  exact ⟨u, runAll_pair ht hu, hthere.roundTrip hs hback⟩

theorem manyBlocks_roundTrip (dir : Direction) {s : State} {addr n : Nat} (hs : Serves s addr n) :
    ∃ u, runAll [dir.manyBlocks addr n, dir.opposite.manyBlocks addr n] s = .next u ∧ u.mem = s.mem ∧
      SameContext s u := by
  obtain ⟨t, ht, hthere, -⟩ := manyBlocks_completes dir hs
  obtain ⟨u, hu, hback, -⟩ := manyBlocks_completes dir.opposite (hthere.serves hs.keyed hs.admits)
  exact ⟨u, runAll_pair ht hu, hthere.roundTrip hs hback⟩

/-- Settles O20: the block functions of the two directions undo each other, block by block. -/
theorem roundTripRestoresMemory : Obligations.RoundTripRestoresMemory := fun _ _ _ hw hk =>
  ⟨fun ha => ⟨oneBlock_roundTrip .enc ⟨hw, hk, ha⟩, oneBlock_roundTrip .dec ⟨hw, hk, ha⟩⟩,
    fun ha => ⟨manyBlocks_roundTrip .enc ⟨hw, hk, ha⟩, manyBlocks_roundTrip .dec ⟨hw, hk, ha⟩⟩⟩

/-! ### The engine requests of a block command (45_facade.md R248, R249, R253, R254) -/

theorem requestsOf_append (ops ops' : List UnitOp) : requestsOf (ops ++ ops') = requestsOf ops ++ requestsOf ops' :=
  List.filterMap_append

theorem requestsOf_request_cons (word : BitVec 5) (ops : List UnitOp) :
    requestsOf (.request word :: ops) = word :: requestsOf ops := rfl

theorem requestsOf_eq_nil {ops : List UnitOp} (h : ∀ op ∈ ops, ∀ word, op ≠ .request word) : requestsOf ops = [] := by
  refine List.filterMap_eq_nil_iff.2 fun op hop => ?_
  cases op with
  | request word => exact absurd rfl (h _ hop word)
  | expand _ | round _ | romReads _ _ | circuit _ => rfl

/-- A loop whose turns add no request. -/
theorem requestsOf_foldl {α β : Type} {g : Traced α → β → Traced α}
    (h : ∀ t x, requestsOf (g t x).ops = requestsOf t.ops) (xs : List β) (t : Traced α) :
    requestsOf (xs.foldl g t).ops = requestsOf t.ops := by
  induction xs generalizing t with
  | nil => rfl
  | cons x xs ih => rw [List.foldl_cons, ih, h]

/-! The engines' own steps are evaluations of the circuit, round-unit operations and reads of the ROM. -/

theorem request_not_mem_roundUnitOps (sel : RndSel) {op : UnitOp} (h : op ∈ roundUnitOps sel) (word : BitVec 5) :
    op ≠ .request word := by
  rintro rfl
  cases sel <;> simp [roundUnitOps] at h

theorem requestsOf_portableBatch (dir : Direction) (rk : RoundKeys) (v : Variant) (X : Oct Block) :
    requestsOf (portableBatch dir rk v.rounds X).ops = [] := by
  refine requestsOf_eq_nil fun op hop word => ?_
  rw [portableBatch_ops dir rk (rounds_pos v)] at hop
  rw [List.eq_of_mem_replicate hop]
  exact UnitOp.noConfusion

theorem requestsOf_accelOne (dir : Direction) (rk : RoundKeys) (nr : Nat) (b : Block) :
    requestsOf (accelOne dir rk nr b).ops = [] := by
  refine requestsOf_eq_nil fun op hop word => ?_
  rw [accelOne_ops, ← flatMap_unitProgram_ops] at hop
  obtain ⟨r, -, hr⟩ := List.mem_flatMap.1 hop
  exact request_not_mem_roundUnitOps r.1 hr word

theorem requestsOf_runGroup (dir : Direction) (rk : RoundKeys) (nr : Nat) (xs : List Block) :
    requestsOf (runGroup dir rk nr xs).ops = [] := by
  refine requestsOf_foldl (fun t r => ?_) (unitProgram dir nr) ⟨xs, []⟩
  have hturn : requestsOf (t.val.flatMap fun _ => roundUnitOps r.1) = [] :=
    requestsOf_eq_nil fun op hop word => by
      obtain ⟨_, -, hr⟩ := List.mem_flatMap.1 hop
      exact request_not_mem_roundUnitOps r.1 hr word
  rw [roundUnitGroup, requestsOf_append, hturn, List.append_nil]

theorem requestsOf_accelMany (dir : Direction) (rk : RoundKeys) (nr pipe : Nat) (xs : List Block) :
    requestsOf (accelMany dir rk nr pipe xs).ops = [] := by
  refine requestsOf_foldl (fun t g => ?_) (groups pipe xs.length) ⟨[], []⟩
  rw [requestsOf_append, requestsOf_runGroup, List.append_nil]

theorem requestsOf_engineOne (c : Config) (dir : Direction) (rk : RoundKeys) (v : Variant) (b : Block) :
    requestsOf (engineOne c dir rk v.rounds b).ops = [] := by
  unfold engineOne
  split
  · exact requestsOf_portableBatch dir rk v _
  · exact requestsOf_accelOne dir rk v.rounds b

theorem requestsOf_engineMany (c : Config) (dir : Direction) (rk : RoundKeys) (v : Variant) (xs : List Block) :
    requestsOf (engineMany c dir rk v.rounds xs).ops = [] := by
  unfold engineMany
  split
  · exact requestsOf_portableBatch dir rk v _
  · exact requestsOf_accelMany dir rk v.rounds c.pipe xs

/-! So the requests on record are those of the facade: one for the single block, one for each chunk or group. -/

theorem requestsOf_runOneBlock (dir : Direction) (addr : Nat) (s : State) :
    requestsOf (runOneBlock dir addr s).unitOps = requestsOf s.unitOps ++ [oneRequest s.cfg.engine dir] := by
  simp only [runOneBlock_eq]
  rw [requestsOf_append, requestsOf_request_cons, requestsOf_engineOne]

theorem requestsOf_runBlockGroup (dir : Direction) (addr : Nat) (s : State) (g : Nat × Nat) :
    requestsOf (runBlockGroup dir addr s g).unitOps = requestsOf s.unitOps ++ [manyRequest s.cfg.engine dir] := by
  simp only [runBlockGroup_eq]
  rw [requestsOf_append, requestsOf_request_cons, requestsOf_engineMany]

theorem requestsOf_foldl_runBlockGroup (dir : Direction) (addr : Nat) (gs : List (Nat × Nat)) (s : State) :
    requestsOf (gs.foldl (runBlockGroup dir addr) s).unitOps =
      requestsOf s.unitOps ++ List.replicate gs.length (manyRequest s.cfg.engine dir) := by
  induction gs generalizing s with
  | nil => simp
  | cons g gs ih =>
    rw [List.foldl_cons, ih, requestsOf_runBlockGroup, runBlockGroup_cfg, List.length_cons, List.replicate_succ,
      List.append_assoc, List.singleton_append]

theorem length_groups (size n : Nat) : (groups size n).length = (n + size - 1) / size := by
  rw [groups, List.length_map, List.length_range]

theorem requestsOf_oneBlock_of_ok {dir : Direction} {addr : Nat} {s t : State}
    (h : exec (dir.oneBlock addr) s = .next t) (hok : Answers t .ok) :
    requestsOf t.unitOps = [oneRequest s.cfg.engine dir] := by
  rw [exec_oneBlock] at h
  rw [blockCommand_answers_ok h hok, State.respond_unitOps, requestsOf_runOneBlock]
  rfl

theorem requestsOf_manyBlocks_of_ok {dir : Direction} {addr n : Nat} {s t : State}
    (h : exec (dir.manyBlocks addr n) s = .next t) (hok : Answers t .ok) :
    requestsOf t.unitOps =
      List.replicate ((n + groupSize s.cfg - 1) / groupSize s.cfg) (manyRequest s.cfg.engine dir) := by
  rw [exec_manyBlocks] at h
  rw [blockCommand_answers_ok h hok, State.respond_unitOps, runBlocks, requestsOf_foldl_runBlockGroup, length_groups]
  rfl

/-- Settles O22: a chunk is of 8 blocks and a group of `PIPE`, and each is one request of the selected engine. -/
theorem engineRequestCount : Obligations.EngineRequestCount := by
  refine fun s t addr n => ⟨fun h hok => ?_, fun h hok => ?_, fun h hok => ?_, fun h hok => ?_⟩
  · rw [requestsOf_oneBlock_of_ok (dir := .enc) h hok]
    cases s.cfg.engine <;> rfl
  · rw [requestsOf_oneBlock_of_ok (dir := .dec) h hok]
    cases s.cfg.engine <;> rfl
  · rw [requestsOf_manyBlocks_of_ok (dir := .enc) h hok, groupSize]
    cases s.cfg.engine <;> rfl
  · rw [requestsOf_manyBlocks_of_ok (dir := .dec) h hok, groupSize]
    cases s.cfg.engine <;> rfl

end Sys2Proof.Machine

/-! ## The statements of 60_exceptions.md -/

namespace Sys2Proof.Machine

/-! ### Why a command is answered as it is (60_exceptions.md R282 to R285) -/

/-- The reason for a code: `OK`, or one of the checks that a command can fail (60_exceptions.md R285). -/
inductive AnswerReason (i : Instr) (s : State) : Code → Prop
  | ok : AnswerReason i s .ok
  | invalidKeyLength (v : Variant) (addr len : Nat) (hi : IsKeysetup i v addr len) (hlen : len ≠ v.keyBytes) :
      AnswerReason i s .invalidKeyLength
  | noKey (addr n : Nat) (hi : IsBlockCommand i addr n) (hkey : s.keyValid = false) : AnswerReason i s .noKey
  | keyBufferFault (v : Variant) (addr : Nat) (hi : IsKeysetup i v addr v.keyBytes)
      (hadmit : s.cfg.admitsKey addr v.keyBytes = false) : AnswerReason i s .bufferFault
  | blockBufferFault (addr n : Nat) (hi : IsBlockCommand i addr n) (hkey : s.keyValid = true)
      (hadmit : s.cfg.admitsBlocks addr (16 * n) = false) : AnswerReason i s .bufferFault

/-- A state answers with one code only (30_encoding.md R65). -/
theorem Answers.unique {t : State} {c c' : Code} (h : Answers t c) (h' : Answers t c') : c = c' :=
  Code.word_injective (Option.some.inj (h.symm.trans h'))

section

variable {i : Instr} {s t : State} {addr n len : Nat} {v : Variant} {c : Code}

/-- The three KEYSETUPs are one procedure. -/
theorem exec_keysetup (hi : IsKeysetup i v addr len) (s : State) : exec i s = keySetup v addr len s := by
  cases v <;> cases hi <;> rfl

/-- The four block commands make the same checks, each before its own path. -/
theorem exec_blockCommand (hi : IsBlockCommand i addr n) (s : State) :
    ∃ run, exec i s = blockCommand addr n run s := by
  rcases hi with ⟨rfl, rfl | rfl⟩ | rfl | rfl
  · exact ⟨runOneBlock .enc addr, rfl⟩
  · exact ⟨runOneBlock .dec addr, rfl⟩
  · exact ⟨runBlocks .enc addr n, rfl⟩
  · exact ⟨runBlocks .dec addr n, rfl⟩

/-- The instructions that name no buffer are the internal requests, and none of them gives a response. -/
theorem exec_response_of_no_buffer (hbuf : namedBuffer i = none) (h : exec i s = .next t) : t.response = none := by
  cases i with
  | keysetup128 | keysetup192 | keysetup256 | encb | decb | encbs | decbs => cases hbuf
  | pEnc1 | pDec1 => obtain ⟨-, rfl⟩ := portableOneStep_next h; rfl
  | pEnc8 | pDec8 => obtain ⟨-, rfl⟩ := portableBatchStep_next h; rfl
  | aEnc1 | aDec1 => obtain ⟨-, rfl⟩ := accelOneStep_next h; rfl
  | aEncN | aDecN => obtain ⟨-, rfl⟩ := accelManyStep_next h; rfl
  | rndArk | rndEnc | rndEncLast | rndDec | rndDecLast => obtain ⟨-, rfl⟩ := roundUnitStep_next h; rfl
  | sboxFwd | sboxInv => obtain rfl := romStep_next h; rfl

theorem keySetup_answerReason (hi : IsKeysetup i v addr len) (h : keySetup v addr len s = .next t)
    (hc : Answers t c) : AnswerReason i s c := by
  rcases keySetup_cases v addr len s with ⟨hlen, he⟩ | ⟨rfl, hadmit, he⟩ | ⟨-, -, he⟩ <;> cases he.symm.trans h
  · cases hc.unique (c' := .invalidKeyLength) rfl
    exact .invalidKeyLength v addr len hi hlen
  · cases hc.unique (c' := .bufferFault) rfl
    exact .keyBufferFault v addr hi hadmit
  · cases hc.unique (keyedState_response v addr s)
    exact .ok

theorem blockCommand_answerReason {run : State → State} (hi : IsBlockCommand i addr n)
    (h : blockCommand addr n run s = .next t) (hc : Answers t c) : AnswerReason i s c := by
  rcases blockCommand_cases addr n run s with ⟨hkey, he⟩ | ⟨hkey, hadmit, he⟩ | ⟨-, -, he⟩ <;>
    cases he.symm.trans h
  · cases hc.unique (c' := .noKey) rfl
    exact .noKey addr n hi hkey
  · cases hc.unique (c' := .bufferFault) rfl
    exact .blockBufferFault addr n hi hkey hadmit
  · cases hc.unique (c' := .ok) rfl
    exact .ok

/-- Every answer of an instruction has its reason; so `IllegalCommand` is the decoder's alone (60_exceptions.md
R287). -/
theorem exec_answerReason (h : exec i s = .next t) (hc : Answers t c) : AnswerReason i s c := by
  cases hbuf : namedBuffer i with
  | none => cases hc.symm.trans (exec_response_of_no_buffer hbuf h)
  | some b =>
    rcases namedBuffer_cases hbuf with ⟨addr, n, hi, -⟩ | ⟨v, addr, len, hi, -⟩
    · obtain ⟨run, hrun⟩ := exec_blockCommand hi s
      exact blockCommand_answerReason hi (hrun.symm.trans h) hc
    · exact keySetup_answerReason hi ((exec_keysetup hi s).symm.trans h) hc

/-- A KEYSETUP responds `OK` from its last case only. -/
theorem keySetup_answers_ok (h : keySetup v addr len s = .next t) (hok : Answers t .ok) : t = keyedState v addr s := by
  rcases keySetup_cases v addr len s with ⟨-, he⟩ | ⟨-, -, he⟩ | ⟨-, -, he⟩ <;> cases he.symm.trans h
  · cases hok.unique (c' := .invalidKeyLength) rfl
  · cases hok.unique (c' := .bufferFault) rfl
  · rfl

end

/-- Settles O9: the length is the first check of a KEYSETUP, and the only reason for this code. -/
theorem invalidKeyLengthExactly : Obligations.InvalidKeyLengthExactly := by
  refine ⟨fun i v addr len s hi hlen => ?_, fun i s t h hc => ?_⟩
  · exact ⟨_, (exec_keysetup hi s).trans (keySetup_invalidLength hlen), answeredOnly_respond s _⟩
  · cases exec_answerReason h hc with
    | invalidKeyLength v addr len hi hlen => exact ⟨v, addr, len, hi, hlen⟩

/-! ### When the context is keyed (60_exceptions.md R283) -/

/-- A step leaves the context keyed exactly when it was, or the step is a KEYSETUP that responds `OK`. -/
theorem step_keyValid_iff {s t : State} (h : step s = .next t) :
    t.keyValid = true ↔ s.keyValid = true ∨
      (Answers t .ok ∧ ∃ (r : Request) (i : Instr) (v : Variant) (addr len : Nat),
        s.port = some r ∧ decode r = .ok i ∧ IsKeysetup i v addr len) := by
  constructor
  · intro hkey
    rcases (step_effect h).sameContext_or_keyed with ⟨hvalid, -, -⟩ | ⟨r, i, v, addr, hp, hd, hi, rfl⟩
    · exact .inl (hvalid.symm.trans hkey)
    · exact .inr ⟨keyedState_response v addr s, r, i, v, addr, v.keyBytes, hp, hd, hi⟩
  · rintro (hkey | ⟨hok, r, i, v, addr, len, hp, hd, hi⟩)
    · obtain ⟨-, hkeeps⟩ := onlyKeysetupWritesContext s t h
      exact hkeeps hkey
    · rw [step_decoded hp hd, exec_keysetup hi] at h
      rw [keySetup_answers_ok h hok, keyedState_keyValid]

/-- Settles O10: the key is the first check of a block command, and the only reason for this code; the reset event
clears it. -/
theorem noKeyExactly : Obligations.NoKeyExactly := by
  refine ⟨fun i addr n s hi hkey => ?_, fun i s t h hc => ?_, ⟨rfl, fun s t h => ?_⟩, fun s t => step_keyValid_iff⟩
  · obtain ⟨run, hrun⟩ := exec_blockCommand hi s
    exact ⟨_, hrun.trans (blockCommand_noKey hkey), answeredOnly_respond s _⟩
  · cases exec_answerReason h hc with
    | noKey addr n hi hkey => exact ⟨hkey, addr, n, hi⟩
  · obtain ⟨-, rfl⟩ := State.resetEvent_next h
    rfl

/-! ### Buffers that are not admitted (60_exceptions.md R284) -/

theorem admitsKey_eq_false_iff (c : Config) (addr n : Nat) :
    c.admitsKey addr n = false ↔ n ≠ 0 ∧ (2 ^ 64 < addr + n ∨ c.memAdmit addr n .read = false) := by
  rw [← Bool.not_eq_true, admitsKey_iff, not_or, not_and_or, Nat.not_le, Bool.not_eq_true]

theorem admitsBlocks_eq_false_iff (c : Config) (addr n : Nat) :
    c.admitsBlocks addr n = false ↔
      n ≠ 0 ∧ (2 ^ 64 < addr + n ∨ c.memAdmit addr n .read = false ∨ c.memAdmit addr n .write = false) := by
  rw [← Bool.not_eq_true, admitsBlocks_iff, not_or, not_and_or, not_and_or, Nat.not_le, Bool.not_eq_true,
    Bool.not_eq_true]

/-- Settles O11: admission is the last check of both kinds of command, and the only reason for this code. -/
theorem bufferFaultExactly : Obligations.BufferFaultExactly := by
  refine ⟨fun i v addr s hi hadmit => ?_, fun i addr n s hi hkey hadmit => ?_, fun i s t h hc => ?_,
    fun c addr n => ⟨admitsKey_eq_false_iff c addr n, admitsBlocks_eq_false_iff c addr n,
      fun hr => memAdmit_unrestricted hr addr n⟩⟩
  · exact ⟨_, (exec_keysetup hi s).trans (keySetup_bufferFault hadmit), answeredOnly_respond s _⟩
  · obtain ⟨run, hrun⟩ := exec_blockCommand hi s
    exact ⟨_, hrun.trans (blockCommand_bufferFault hkey hadmit), answeredOnly_respond s _⟩
  · cases exec_answerReason h hc with
    | keyBufferFault v addr hi hadmit => exact .inl ⟨v, addr, hi, hadmit⟩
    | blockBufferFault addr n hi hkey hadmit => exact .inr ⟨addr, n, hi, hkey, hadmit⟩

/-! ### Every descriptor is answered, and a fault changes nothing (60_exceptions.md R280, R286, R289) -/

/-- Settles O14: a descriptor frees the port and gives a response, so its effect is that of a command; of those only
the bare answer has a code other than `OK`. -/
theorem faultChangesNothing : Obligations.FaultChangesNothing := by
  intro s t d hp h hne
  obtain ⟨u, c, hu, hc, hport⟩ := step_answers_descriptor hp
  cases hu.symm.trans h
  cases step_effect h with
  | idle ht =>
    rw [ht, hp] at hport
    cases hport
  | answered c' ht =>
    subst ht
    exact ⟨⟨c', fun hok => hne (hok ▸ rfl), rfl⟩, ⟨rfl, rfl, rfl⟩, rfl, rfl, rfl⟩
  | keyed _ _ v addr _ _ _ ht => exact absurd (ht ▸ keyedState_response v addr s) hne
  | blocks _ _ _ _ ht => exact absurd (ht ▸ rfl) hne
  | internal _ _ _ hresp => cases hc.symm.trans hresp

/-- Settles O15: an illegal descriptor is answered by the decoder, any other by the command it names. -/
theorem everyDescriptorIsAnswered : Obligations.EveryDescriptorIsAnswered := fun _ _ hp => step_answers_descriptor hp

end Sys2Proof.Machine

/-! ## The statements of 70_reset_and_hazards.md -/

namespace Sys2Proof.Machine

/-! ### The steps of the units are told by public values (70_reset_and_hazards.md R320, point 3)

Each list below has no key, round key or data among its arguments. -/

/-- A loop whose turns record steps told by the turn alone, whatever the value carried along. -/
theorem foldl_ops_flatMap {α β : Type} {g : Traced α → β → Traced α} {steps : β → List UnitOp} {xs : List β}
    (h : ∀ x ∈ xs, ∀ t, (g t x).ops = t.ops ++ steps x) (t : Traced α) :
    (xs.foldl g t).ops = t.ops ++ xs.flatMap steps := by
  induction xs generalizing t with
  | nil => simp
  | cons x xs ih =>
    rw [List.forall_mem_cons] at h
    obtain ⟨hx, hxs⟩ := h
    rw [List.foldl_cons, ih hxs, hx, List.flatMap_cons, List.append_assoc]

/-- The steps of one `SubWord` (40_key_schedule.md R101). -/
def subWordSteps : Engine → List UnitOp
  | .portable => [.circuit false]
  | .accel => [.romReads false 4]

theorem engineSubWord_ops (e : Engine) (w : Word) : (engineSubWord e w).ops = subWordSteps e := by
  cases e <;> rfl

/-- The steps that compute `w[i]`: the recurrence substitutes at some places, told by `Nk` and `i`
(40_key_schedule.md R96). -/
def scheduleSteps (e : Engine) (nk i : Nat) : List UnitOp :=
  if i % nk = 0 ∨ (nk = 8 ∧ i % nk = 4) then subWordSteps e else []

theorem scheduleTemp_ops (e : Engine) (nk i : Nat) (prev : Word) :
    (scheduleTemp (engineSubWord e) nk i prev).ops = scheduleSteps e nk i := by
  unfold scheduleTemp scheduleSteps
  by_cases hfirst : i % nk = 0
  · simp only [hfirst, true_or, if_true, engineSubWord_ops]
  · by_cases hfourth : nk = 8 ∧ i % nk = 4
    · rw [if_neg hfirst, if_pos hfourth, if_pos (.inr hfourth), engineSubWord_ops]
    · rw [if_neg hfirst, if_neg hfourth, if_neg (not_or.2 ⟨hfirst, hfourth⟩)]

/-- The steps of `KS.EXPAND`. -/
def expandSteps (e : Engine) (v : Variant) : List UnitOp :=
  .expand v :: (List.range (4 * (v.rounds + 1) - v.keyWords)).flatMap fun k =>
    scheduleSteps e v.keyWords (v.keyWords + k)

theorem expandKey_ops (e : Engine) (v : Variant) (key : List Byte) :
    (expandKey (engineSubWord e) v key).ops = expandSteps e v := by
  have hwords := foldl_ops_flatMap (xs := List.range (4 * (v.rounds + 1) - v.keyWords))
    (g := fun t k => scheduleStep (engineSubWord e) v.keyWords t (v.keyWords + k))
    (fun k _ t => by rw [scheduleStep, scheduleTemp_ops]) ⟨keyScheduleStart v.keyWords key, []⟩
  rw [List.nil_append] at hwords
  rw [expandKey, scheduleWords, hwords, expandSteps]

/-- The steps of one group of the round unit: each operation on every block in flight
(44_accelerated_engine.md R222). -/
def groupSteps (dir : Direction) (nr count : Nat) : List UnitOp :=
  (unitProgram dir nr).flatMap fun op => (List.replicate count (roundUnitOps op.1)).flatten

theorem roundUnitGroup_ops (rk : RoundKeys) (t : Traced (List Block)) (op : RndSel × Nat) :
    (roundUnitGroup rk t op).ops = t.ops ++ (List.replicate t.val.length (roundUnitOps op.1)).flatten := by
  rw [roundUnitGroup, List.flatMap_def, List.map_const']

/-- A group keeps its size, so its steps are told by that size. -/
theorem foldl_roundUnitGroup_ops (rk : RoundKeys) (program : List (RndSel × Nat)) (t : Traced (List Block)) :
    (program.foldl (roundUnitGroup rk) t).ops =
      t.ops ++ program.flatMap fun op => (List.replicate t.val.length (roundUnitOps op.1)).flatten := by
  induction program generalizing t with
  | nil => simp
  | cons op program ih =>
    have hsize : (roundUnitGroup rk t op).val.length = t.val.length := List.length_map ..
    rw [List.foldl_cons, ih, hsize, roundUnitGroup_ops, List.flatMap_cons, List.append_assoc]

theorem runGroup_ops (dir : Direction) (rk : RoundKeys) (nr : Nat) (xs : List Block) :
    (runGroup dir rk nr xs).ops = groupSteps dir nr xs.length :=
  foldl_roundUnitGroup_ops rk (unitProgram dir nr) ⟨xs, []⟩

theorem accelMany_ops (dir : Direction) (rk : RoundKeys) (nr pipe : Nat) (xs : List Block) :
    (accelMany dir rk nr pipe xs).ops = (groups pipe xs.length).flatMap fun g => groupSteps dir nr g.2 := by
  refine foldl_ops_flatMap (fun g hg t => ?_) ⟨[], []⟩
  obtain ⟨-, hwithin⟩ := group_bounds hg
  have hsize : ((xs.drop g.1).take g.2).length = g.2 := by
    rw [List.length_take, List.length_drop, Nat.min_eq_left hwithin]
  simp only [runGroup_ops, hsize]

/-- The steps of a one-block request to the engine (43_portable_engine.md R196, 44_accelerated_engine.md R218). -/
def engineOneSteps (e : Engine) (dir : Direction) (nr : Nat) : List UnitOp :=
  match e with
  | .portable => List.replicate nr (.circuit (dir = .dec))
  | .accel => oneBlockOps dir nr

theorem engineOne_ops (c : Config) (dir : Direction) (rk : RoundKeys) (v : Variant) (b : Block) :
    (engineOne c dir rk v.rounds b).ops = engineOneSteps c.engine dir v.rounds := by
  unfold engineOne engineOneSteps
  cases c.engine with
  | portable => exact portableBatch_ops dir rk (rounds_pos v) _
  | accel => exact accelOne_ops dir rk v.rounds b

/-- The steps of a request for `count` blocks to the selected engine (43_portable_engine.md R194,
44_accelerated_engine.md R222). -/
def engineManySteps (c : Config) (dir : Direction) (nr count : Nat) : List UnitOp :=
  match c.engine with
  | .portable => List.replicate nr (.circuit (dir = .dec))
  | .accel => (groups c.pipe count).flatMap fun g => groupSteps dir nr g.2

theorem engineMany_ops (c : Config) (dir : Direction) (rk : RoundKeys) (v : Variant) (xs : List Block) :
    (engineMany c dir rk v.rounds xs).ops = engineManySteps c dir v.rounds xs.length := by
  unfold engineMany engineManySteps
  cases c.engine with
  | portable => exact portableBatch_ops dir rk (rounds_pos v) _
  | accel => exact accelMany_ops dir rk v.rounds c.pipe xs

/-! ### The S-box of an engine (41_sbox.md R130; 43_portable_engine.md R199; 40_key_schedule.md R101) -/

/-- If the step evaluates an S-box, it does so in the form of this engine: the circuit or the ROM. -/
def UsesSboxOf (e : Engine) : UnitOp → Prop
  | .romReads _ _ => e = .accel
  | .circuit _ => e = .portable
  | .expand _ => True
  | .request _ => True
  | .round _ => True

theorem subWordSteps_usesSboxOf (e : Engine) : ∀ op ∈ subWordSteps e, UsesSboxOf e op := by
  cases e with
  | portable => exact List.forall_mem_singleton.2 rfl
  | accel => exact List.forall_mem_singleton.2 rfl

theorem expandSteps_usesSboxOf (e : Engine) (v : Variant) : ∀ op ∈ expandSteps e v, UsesSboxOf e op := by
  refine List.forall_mem_cons.2 ⟨trivial, List.forall_mem_flatMap.2 fun k _ => ?_⟩
  unfold scheduleSteps
  split
  · exact subWordSteps_usesSboxOf e
  · exact List.forall_mem_nil _

theorem roundUnitOps_usesSboxOf (sel : RndSel) : ∀ op ∈ roundUnitOps sel, UsesSboxOf .accel op := by
  cases sel with
  | ark => exact List.forall_mem_singleton.2 trivial
  | enc | encLast | dec | decLast => exact List.forall_mem_cons.2 ⟨trivial, List.forall_mem_singleton.2 rfl⟩

theorem groupSteps_usesSboxOf (dir : Direction) (nr count : Nat) :
    ∀ op ∈ groupSteps dir nr count, UsesSboxOf .accel op := by
  refine List.forall_mem_flatMap.2 fun r _ op hop => ?_
  obtain ⟨ops, hops, hmem⟩ := List.mem_flatten.1 hop
  rw [List.eq_of_mem_replicate hops] at hmem
  exact roundUnitOps_usesSboxOf r.1 op hmem

theorem replicate_circuit_usesSboxOf (nr : Nat) (inverse : Bool) :
    ∀ op ∈ List.replicate nr (UnitOp.circuit inverse), UsesSboxOf .portable op := fun op hop => by
  rw [List.eq_of_mem_replicate hop]
  rfl

theorem engineOneSteps_usesSboxOf (e : Engine) (dir : Direction) (nr : Nat) :
    ∀ op ∈ engineOneSteps e dir nr, UsesSboxOf e op := by
  cases e with
  | portable => exact replicate_circuit_usesSboxOf nr _
  | accel =>
    rw [engineOneSteps, ← flatMap_unitProgram_ops]
    exact List.forall_mem_flatMap.2 fun r _ => roundUnitOps_usesSboxOf r.1

theorem engineManySteps_usesSboxOf (c : Config) (dir : Direction) (nr count : Nat) :
    ∀ op ∈ engineManySteps c dir nr count, UsesSboxOf c.engine op := by
  unfold engineManySteps
  cases c.engine with
  | portable => exact replicate_circuit_usesSboxOf nr _
  | accel => exact List.forall_mem_flatMap.2 fun g _ => groupSteps_usesSboxOf dir nr g.2

/-! ### The records of the facade's paths (45_facade.md R248, R249, R253, R254) -/

/-- What a block path adds to the two records is told by the configuration and the variant, its substitutions are
those of the engine, and it leaves the public values alone. -/
structure RecordsPublicly (run : State → State) (accesses : Config → List BusAccess)
    (steps : Config → Variant → List UnitOp) : Prop where
  samePublic : ∀ s, SamePublic s (run s)
  bus : ∀ s, (run s).bus = s.bus ++ accesses s.cfg
  unitOps : ∀ s, (run s).unitOps = s.unitOps ++ steps s.cfg s.variant
  usesSboxOf : ∀ c v, ∀ op ∈ steps c v, UsesSboxOf c.engine op

/-- A path that changes memory and the records only leaves the public values alone. -/
theorem samePublic_of_frame {s t : State} (h : ∃ mem bus unitOps, t = { s with mem, bus, unitOps }) :
    SamePublic s t := by
  obtain ⟨mem, bus, unitOps, rfl⟩ := h
  exact ⟨rfl, rfl, rfl⟩

/-- The steps of the single-block path: one request. -/
def oneBlockSteps (dir : Direction) (c : Config) (v : Variant) : List UnitOp :=
  .request (oneRequest c.engine dir) :: engineOneSteps c.engine dir v.rounds

theorem runOneBlock_recordsPublicly (dir : Direction) (addr : Nat) :
    RecordsPublicly (runOneBlock dir addr) (fun _ => [⟨.read, addr, 16⟩, ⟨.write, addr, 16⟩])
      (oneBlockSteps dir) where
  samePublic s := samePublic_of_frame (runOneBlock_frame dir addr s)
  bus s := runOneBlock_bus dir addr s
  unitOps s := by simp only [runOneBlock_eq, engineOne_ops, oneBlockSteps]
  usesSboxOf c v := List.forall_mem_cons.2 ⟨trivial, engineOneSteps_usesSboxOf c.engine dir v.rounds⟩

/-- The steps of one chunk or group: one request. -/
def blockGroupSteps (dir : Direction) (c : Config) (v : Variant) (g : Nat × Nat) : List UnitOp :=
  .request (manyRequest c.engine dir) :: engineManySteps c dir v.rounds g.2

theorem runBlockGroup_unitOps (dir : Direction) (addr : Nat) (s : State) (g : Nat × Nat) :
    (runBlockGroup dir addr s g).unitOps = s.unitOps ++ blockGroupSteps dir s.cfg s.variant g := by
  simp only [runBlockGroup_eq, engineMany_ops, List.length_map, length_blockAddrs, blockGroupSteps]

theorem runBlockGroup_variant (dir : Direction) (addr : Nat) (s : State) (g : Nat × Nat) :
    (runBlockGroup dir addr s g).variant = s.variant := by
  rw [runBlockGroup_eq]

/-- What some chunks or groups, one after the other, add to the record of steps. -/
theorem foldl_runBlockGroup_unitOps (dir : Direction) (addr : Nat) (gs : List (Nat × Nat)) (s : State) :
    (gs.foldl (runBlockGroup dir addr) s).unitOps =
      s.unitOps ++ gs.flatMap (blockGroupSteps dir s.cfg s.variant) := by
  induction gs generalizing s with
  | nil => simp
  | cons g gs ih =>
    rw [List.foldl_cons, ih, runBlockGroup_cfg, runBlockGroup_variant, runBlockGroup_unitOps, List.flatMap_cons,
      List.append_assoc]

theorem runBlocks_recordsPublicly (dir : Direction) (addr n : Nat) :
    RecordsPublicly (runBlocks dir addr n) (fun c => (groups (groupSize c) n).flatMap (groupAccesses addr))
      (fun c v => (groups (groupSize c) n).flatMap (blockGroupSteps dir c v)) where
  samePublic s := samePublic_of_frame (runBlocks_frame dir addr n s)
  bus s := runBlocks_bus dir addr n s
  unitOps s := foldl_runBlockGroup_unitOps dir addr _ s
  usesSboxOf c v := List.forall_mem_flatMap.2 fun g _ =>
    List.forall_mem_cons.2 ⟨trivial, engineManySteps_usesSboxOf c dir v.rounds g.2⟩

/-! ### Two cores that differ in secrets only (70_reset_and_hazards.md R320) -/

/-- Both cores complete, with the same response and the same records, and again agree on the public values; the
substitutions on record are those of the engine. -/
def SameTrace (e : Engine) (o o' : Host.Outcome State Fault Refusal) : Prop :=
  ∃ t t', o = .next t ∧ o' = .next t' ∧ t.response = t'.response ∧ t.bus = t'.bus ∧ t.unitOps = t'.unitOps ∧
    SamePublic t t' ∧ ∀ op ∈ t.unitOps, UsesSboxOf e op

/-- A command that is only answered has empty records. -/
theorem sameTrace_answered {s s' : State} (e : Engine) (code : Code) (h : SamePublic s s') :
    SameTrace e (.next (s.accept.respond code)) (.next (s'.accept.respond code)) :=
  ⟨_, _, rfl, rfl, rfl, rfl, rfl, h, List.forall_mem_nil _⟩

theorem keyedState_unitOps (v : Variant) (addr : Nat) (s : State) :
    (keyedState v addr s).unitOps = expandSteps s.cfg.engine v := by
  simp only [keyedState, State.respond_unitOps, State.recordOps_unitOps, State.recordRead_unitOps,
    State.accept_unitOps, List.nil_append, expandKey_ops]

/-- The two cores may read different keys, and so hold different schedules. -/
theorem keyedState_sameTrace (v : Variant) (addr : Nat) {s s' : State} (h : SamePublic s s') :
    SameTrace s.cfg.engine (.next (keyedState v addr s)) (.next (keyedState v addr s')) := by
  obtain ⟨hcfg, -, -⟩ := h
  refine ⟨_, _, rfl, rfl, ?_, ?_, ?_, ⟨?_, ?_, ?_⟩, ?_⟩
  · rw [keyedState_response, keyedState_response]
  · rw [keyedState_bus, keyedState_bus]
  · rw [keyedState_unitOps, keyedState_unitOps, hcfg]
  · rw [keyedState_cfg, keyedState_cfg, hcfg]
  · rw [keyedState_keyValid, keyedState_keyValid]
  · rw [keyedState_variant, keyedState_variant]
  · rw [keyedState_unitOps]
    exact expandSteps_usesSboxOf s.cfg.engine v

theorem keySetup_sameTrace (v : Variant) (addr len : Nat) {s s' : State} (h : SamePublic s s') :
    SameTrace s.cfg.engine (keySetup v addr len s) (keySetup v addr len s') := by
  have hcfg : s.cfg = s'.cfg := h.1
  rcases keySetup_cases v addr len s with ⟨hl, he⟩ | ⟨rfl, ha, he⟩ | ⟨rfl, ha, he⟩ <;> rw [he]
  · rw [keySetup_invalidLength hl]
    exact sameTrace_answered _ _ h
  · rw [keySetup_bufferFault (hcfg ▸ ha)]
    exact sameTrace_answered _ _ h
  · rw [keySetup_ok (hcfg ▸ ha)]
    exact keyedState_sameTrace v addr h

/-- The two cores may process different data under different round keys. -/
theorem RecordsPublicly.sameTrace {run : State → State} {accesses : Config → List BusAccess}
    {steps : Config → Variant → List UnitOp} (hrun : RecordsPublicly run accesses steps) {s s' : State}
    (h : SamePublic s s') :
    SameTrace s.cfg.engine (.next ((run s.accept).respond .ok)) (.next ((run s'.accept).respond .ok)) := by
  obtain ⟨hcfg, hkey, hvariant⟩ := h
  obtain ⟨hc, hk, hv⟩ := hrun.samePublic s.accept
  obtain ⟨hc', hk', hv'⟩ := hrun.samePublic s'.accept
  have hops (u : State) : (run u.accept).unitOps = steps u.cfg u.variant := hrun.unitOps u.accept
  have hbus (u : State) : (run u.accept).bus = accesses u.cfg := hrun.bus u.accept
  refine ⟨_, _, rfl, rfl, rfl, ?_, ?_, ⟨?_, ?_, ?_⟩, ?_⟩
  · rw [State.respond_bus, State.respond_bus, hbus, hbus, hcfg]
  · rw [State.respond_unitOps, State.respond_unitOps, hops, hops, hcfg, hvariant]
  · exact hc.symm.trans (hcfg.trans hc')
  · exact hk.symm.trans (hkey.trans hk')
  · exact hv.symm.trans (hvariant.trans hv')
  · rw [State.respond_unitOps, hops]
    exact hrun.usesSboxOf s.cfg s.variant

theorem blockCommand_sameTrace {run : State → State} {accesses : Config → List BusAccess}
    {steps : Config → Variant → List UnitOp} (hrun : RecordsPublicly run accesses steps) (addr n : Nat)
    {s s' : State} (h : SamePublic s s') :
    SameTrace s.cfg.engine (blockCommand addr n run s) (blockCommand addr n run s') := by
  have ⟨hcfg, hkey, _⟩ := h
  rcases blockCommand_cases addr n run s with ⟨hk, he⟩ | ⟨hk, ha, he⟩ | ⟨hk, ha, he⟩ <;> rw [he]
  · rw [blockCommand_noKey (hkey ▸ hk)]
    exact sameTrace_answered _ _ h
  · rw [blockCommand_bufferFault (hkey ▸ hk) (hcfg ▸ ha)]
    exact sameTrace_answered _ _ h
  · rw [blockCommand_ok (hkey ▸ hk) (hcfg ▸ ha)]
    exact hrun.sameTrace h

theorem command_sameTrace {i : Instr} (hi : isCommand i = true) {s s' : State} (h : SamePublic s s') :
    SameTrace s.cfg.engine (exec i s) (exec i s') := by
  cases i with
  | keysetup128 addr len => exact keySetup_sameTrace .aes128 addr len h
  | keysetup192 addr len => exact keySetup_sameTrace .aes192 addr len h
  | keysetup256 addr len => exact keySetup_sameTrace .aes256 addr len h
  | encb addr => exact blockCommand_sameTrace (runOneBlock_recordsPublicly .enc addr) addr 1 h
  | decb addr => exact blockCommand_sameTrace (runOneBlock_recordsPublicly .dec addr) addr 1 h
  | encbs addr n => exact blockCommand_sameTrace (runBlocks_recordsPublicly .enc addr n) addr n h
  | decbs addr n => exact blockCommand_sameTrace (runBlocks_recordsPublicly .dec addr n) addr n h
  | pEnc1 | pDec1 | pEnc8 | pDec8 | aEnc1 | aDec1 | aEncN | aDecN | rndArk | rndEnc | rndEncLast | rndDec | rndDecLast
  | sboxFwd _ | sboxInv _ => exact absurd hi Bool.false_ne_true

/-- Settles O24: what a command records is a list made of its operands, the configuration and the variant alone, and
each substitution in it has the form of the engine. -/
theorem secretsDoNotReachTheTrace : Obligations.SecretsDoNotReachTheTrace := by
  intro i s s' hi h
  obtain ⟨t, t', ht, ht', hresp, hbus, hops, hpublic, hsbox⟩ := command_sameTrace hi h
  refine ⟨t, t', ht, ht', hresp, hbus, hops, hpublic, fun he inverse n hop => ?_, fun he inverse hop => ?_⟩
  · have hrom : s.cfg.engine = .accel := hsbox _ hop
    cases he.symm.trans hrom
  · have hcircuit : s.cfg.engine = .portable := hsbox _ hop
    cases he.symm.trans hcircuit

end Sys2Proof.Machine

/-! ## Sample words and known answers (95_test_vectors.md, 96_test_vectors_families.md) -/

namespace Sys2Proof.Machine

/-! ### Words written out from the bit tables (96_test_vectors_families.md V17) -/

/-- Settles O4: three KEYSETUPs, two block commands and a word of each internal port, each decoded by evaluation. -/
theorem sampleWordsDecode : Obligations.SampleWordsDecode :=
  ⟨by decide, by decide, by decide, by decide, by decide, by decide, by decide, by decide⟩

/-! ### Known answers (95_test_vectors.md V1, V6, V7) -/

/-- The key `00 01 02 ...` of V1 and V6, as the statement writes it. -/
def countingKey (n : Nat) : List Byte := (List.range n).map fun i => BitVec.ofNat 8 i

/-- The plaintext of V1 and V6, last byte first. -/
def knownPlain : Block := 0xffeeddccbbaa99887766554433221100

theorem cipher_aes128_knownPlain :
    cipher (keySchedule .aes128 (countingKey 16)) 10 knownPlain = 0x5ac5b47080b7cdd830047b6ad8e0c469 := by
  decide +kernel

theorem cipher_aes192_knownPlain :
    cipher (keySchedule .aes192 (countingKey 24)) 12 knownPlain = 0x91710deca070af6ee0df4c86a47ca9dd := by
  decide +kernel

theorem cipher_aes256_knownPlain :
    cipher (keySchedule .aes256 (countingKey 32)) 14 knownPlain = 0x8960494b9049fceabf456751cab7a28e := by
  decide +kernel

/-- `InvCipher` gives the block back from its ciphertext (42_reference_cipher.md R154). -/
theorem invCipher_of_cipher {rk : RoundKeys} {nr : Nat} {b c : Block} (h : cipher rk nr b = c) :
    invCipher rk nr c = b := by
  rw [← h, invCipher_cipher]

/-- Settles O52: the ciphertexts are evaluated, and the way back follows, since the two ciphers undo each other. -/
theorem knownAnswers : Obligations.KnownAnswers :=
  ⟨⟨cipher_aes128_knownPlain, cipher_aes192_knownPlain, cipher_aes256_knownPlain⟩,
    invCipher_of_cipher cipher_aes128_knownPlain, invCipher_of_cipher cipher_aes192_knownPlain,
    invCipher_of_cipher cipher_aes256_knownPlain⟩

end Sys2Proof.Machine
